-- ==== Sys2Proof/Word.lean ====
section
/-! DEFINITION. The value types of the machine and the primitives of `spec/00_scope.md` rules R5
and R6 that every later file uses. -/

namespace Sys2Proof

/-- A memory word `w[19:0]` (R5, R9). -/
abbrev Word := BitVec 20

/-- A register value: 32 bits, read as signed where a rule says so (R5). -/
abbrev RegVal := BitVec 32

/-- One framebuffer pixel (R39). -/
abbrev Pixel := BitVec 8

/-- A general register index, the value of a 4-bit field of an instruction word (R10, R71). -/
abbrev RegIx := BitVec 4

/-- An I/O register index, 0 to 22 (R18). -/
abbrev IoIx := Fin 23

/-- `s32(v)`: the two's-complement integer of a register value (R5). -/
def s32 (v : RegVal) : Int := v.toInt

/-- `u32(v)`: the same bits read as 0 .. 2^32-1 (R5). -/
def u32 (v : RegVal) : Nat := v.toNat

/-- `wrap32(n)`: the 32-bit vector congruent to `n` modulo 2^32 (R6). -/
def wrap32 (n : Int) : RegVal := BitVec.ofInt 32 n

end Sys2Proof
end

