-- ==== Sys2Proof/Config.lean ====
section
/-! DEFINITION. What is fixed for a machine (`spec/00_scope.md` rules R3 and R4): the fixed
parameters, the free values, and the type of the four open parameters a run is given. -/

namespace Sys2Proof

namespace Config

/-- Main memory depth in words (R3, R37). -/
abbrev memDepth : Nat := 4096

/-- Words per disk sector (R3, R38). -/
abbrev sectorWords : Nat := 128

/-- Sectors of the disk (R3, R38). -/
abbrev diskSectors : Nat := 128

/-- Disk depth in words (R3, R38). -/
abbrev diskDepth : Nat := 16384

/-- Pixels of the framebuffer (R3, R39). -/
abbrev pixelCount : Nat := 65536

/-- FREE VALUE. The result of a shift whose amount lies outside 0..31 (R117 to R119, U1). The argument
is the number of free values drawn so far, so each draw is a fresh value. Nothing constrains it
(assumption 4). -/
opaque shiftFree : Nat → RegVal

/-- FREE VALUE. `DISK_LATENCY` of the reset state, less one. The spec gives no number (R4, D13)
(assumption 14). -/
opaque diskLatencyPred : Nat

/-- `DISK_LATENCY` of the reset state: some positive number (R4: `DISK_LATENCY >= 1`). -/
def diskLatency : Nat := diskLatencyPred + 1

end Config

/-- The open parameters of R4, which the host supplies before the first step (R228). -/
structure RunInputs where
  /-- `MEM_IMAGE`: the words of addresses 0, 1, 2, ... (R58, R222). -/
  memImage : List Word
  /-- `DISK_IMAGE`: the words of disk indices 0, 1, 2, ... (R58, R222). -/
  diskImage : List Word
  /-- `IRQ2_SCHEDULE` (R179, R223). R181 is defined for any list, so the entries are integers. -/
  irq2Schedule : List Int
  /-- `DISK_LATENCY` (R224). -/
  diskLatency : Nat
  deriving DecidableEq, Repr

end Sys2Proof
end

