-- ==== Sys2Proof/Syntax.lean ====
section
/-! DEFINITION. The 22 instructions (`spec/30_encoding.md` rules R71, R74, R75; one constructor per row
of `spec/opcode_table.json`), and an instruction with its immediate word. -/

namespace Sys2Proof

/-- An instruction as the decoder answers it (R81): the mnemonic and the three fields. The fields that
`jal`, `reti` and `halt` ignore are kept, because they count for immediate mode (R78). -/
inductive Instr where
  /-- `add` (R111). -/
  | add (rd rs rt : RegIx)
  /-- `sub` (R112). -/
  | sub (rd rs rt : RegIx)
  /-- `mul` (R113). -/
  | mul (rd rs rt : RegIx)
  /-- `and` (R114). -/
  | and (rd rs rt : RegIx)
  /-- `or` (R115). -/
  | or (rd rs rt : RegIx)
  /-- `xor` (R116). -/
  | xor (rd rs rt : RegIx)
  /-- `sll` (R117). -/
  | sll (rd rs rt : RegIx)
  /-- `sra` (R118). -/
  | sra (rd rs rt : RegIx)
  /-- `srl` (R119). -/
  | srl (rd rs rt : RegIx)
  /-- `beq` (R131). -/
  | beq (rd rs rt : RegIx)
  /-- `bne` (R132). -/
  | bne (rd rs rt : RegIx)
  /-- `blt` (R133). -/
  | blt (rd rs rt : RegIx)
  /-- `bgt` (R134). -/
  | bgt (rd rs rt : RegIx)
  /-- `ble` (R135). -/
  | ble (rd rs rt : RegIx)
  /-- `bge` (R136). -/
  | bge (rd rs rt : RegIx)
  /-- `jal` (R137). -/
  | jal (rd rs rt : RegIx)
  /-- `lw` (R141). -/
  | lw (rd rs rt : RegIx)
  /-- `sw` (R142). -/
  | sw (rd rs rt : RegIx)
  /-- `reti` (R151). -/
  | reti (rd rs rt : RegIx)
  /-- `in` (R152) (`in` is a word of Lean's own). -/
  | ioIn (rd rs rt : RegIx)
  /-- `out` (R153). -/
  | ioOut (rd rs rt : RegIx)
  /-- `halt` (R158). -/
  | halt (rd rs rt : RegIx)
  deriving DecidableEq, Repr

/-- An instruction together with its immediate word, if it has one (R70, R73). -/
structure Insn where
  /-- The instruction of the first word. -/
  instr : Instr
  /-- The second word. -/
  imm : Option Word
  deriving DecidableEq, Repr

end Sys2Proof
end

