-- ==== Sys2Proof/Decode.lean ====
section
/-! DEFINITION. The decoder and the encoder (`spec/30_encoding.md` rules R70 to R82). The opcode numbers
stand in one table, `Instr.opcode` (R75, R76). -/

namespace Sys2Proof

/-- `w[19:12]` (R71). -/
def opcodeField (w : Word) : BitVec 8 := w.extractLsb' 12 8

/-- `w[11:8]` (R71). -/
def rdField (w : Word) : RegIx := w.extractLsb' 8 4

/-- `w[7:4]` (R71). -/
def rsField (w : Word) : RegIx := w.extractLsb' 4 4

/-- `w[3:0]` (R71). -/
def rtField (w : Word) : RegIx := w.extractLsb' 0 4

/-- The opcode map of R75: the one place where the numbers stand. DEDUCED: numbers 1 to 21 are the
source's listing order (D1); unsafe (assumption 1). -/
def Instr.opcode : Instr → BitVec 8
  | .add _ _ _ => 0x00
  | .sub _ _ _ => 0x01
  | .mul _ _ _ => 0x02
  | .and _ _ _ => 0x03
  | .or _ _ _ => 0x04
  | .xor _ _ _ => 0x05
  | .sll _ _ _ => 0x06
  | .sra _ _ _ => 0x07
  | .srl _ _ _ => 0x08
  | .beq _ _ _ => 0x09
  | .bne _ _ _ => 0x0A
  | .blt _ _ _ => 0x0B
  | .bgt _ _ _ => 0x0C
  | .ble _ _ _ => 0x0D
  | .bge _ _ _ => 0x0E
  | .jal _ _ _ => 0x0F
  | .lw _ _ _ => 0x10
  | .sw _ _ _ => 0x11
  | .reti _ _ _ => 0x12
  | .ioIn _ _ _ => 0x13
  | .ioOut _ _ _ => 0x14
  | .halt _ _ _ => 0x15

/-- The fields `rd`, `rs`, `rt` of an instruction (R71). -/
def Instr.fields : Instr → RegIx × RegIx × RegIx
  | .add rd rs rt => (rd, rs, rt)
  | .sub rd rs rt => (rd, rs, rt)
  | .mul rd rs rt => (rd, rs, rt)
  | .and rd rs rt => (rd, rs, rt)
  | .or rd rs rt => (rd, rs, rt)
  | .xor rd rs rt => (rd, rs, rt)
  | .sll rd rs rt => (rd, rs, rt)
  | .sra rd rs rt => (rd, rs, rt)
  | .srl rd rs rt => (rd, rs, rt)
  | .beq rd rs rt => (rd, rs, rt)
  | .bne rd rs rt => (rd, rs, rt)
  | .blt rd rs rt => (rd, rs, rt)
  | .bgt rd rs rt => (rd, rs, rt)
  | .ble rd rs rt => (rd, rs, rt)
  | .bge rd rs rt => (rd, rs, rt)
  | .jal rd rs rt => (rd, rs, rt)
  | .lw rd rs rt => (rd, rs, rt)
  | .sw rd rs rt => (rd, rs, rt)
  | .reti rd rs rt => (rd, rs, rt)
  | .ioIn rd rs rt => (rd, rs, rt)
  | .ioOut rd rs rt => (rd, rs, rt)
  | .halt rd rs rt => (rd, rs, rt)

/-- `imm_mode`: at least one of the three fields equals 1, whatever the opcode (R73, R80). -/
def Instr.immMode (i : Instr) : Bool :=
  i.fields.1 == 1 || i.fields.2.1 == 1 || i.fields.2.2 == 1

/-- The length in words, `1 + imm_mode` (R80). -/
def Instr.length (i : Instr) : Nat := if i.immMode then 2 else 1

/-- The 22 instructions, each waiting for its fields. The decoder picks the one whose number in
`Instr.opcode` is the word's opcode field. -/
def instrForms : List (RegIx → RegIx → RegIx → Instr) :=
  [.add, .sub, .mul, .and, .or, .xor, .sll, .sra, .srl,
   .beq, .bne, .blt, .bgt, .ble, .bge, .jal, .lw, .sw, .reti, .ioIn, .ioOut, .halt]

/-- Decode one word: total, `none` exactly for the illegal opcodes (R77, R81). -/
def decodeWord (w : Word) : Option Instr :=
  (instrForms.map fun form => form (rdField w) (rsField w) (rtField w)).find?
    fun i => i.opcode == opcodeField w

/-- What decoding a sequence of words answers. -/
inductive DecodeResult where
  /-- An instruction with its immediate word, and the words after it. -/
  | ok (i : Insn) (rest : List Word)
  /-- The first word has opcode 22..255 (R77). -/
  | illegalOpcode (w : Word)
  /-- The first word is an instruction in immediate mode and no second word follows (R93). -/
  | missingImmediate (i : Instr)
  /-- There is no word to decode. -/
  | noWord
  deriving DecidableEq, Repr

/-- Decode the instruction at the head of a sequence of words (R70, R73, R80). -/
def decode : List Word → DecodeResult
  | [] => .noWord
  | w :: rest =>
    match decodeWord w with
    | none => .illegalOpcode w
    | some i =>
      if i.immMode then
        match rest with
        | [] => .missingImmediate i
        | m :: rest' => .ok { instr := i, imm := some m } rest'
      else .ok { instr := i, imm := none } rest

/-- The instruction word, `(opcode << 12) | (rd << 8) | (rs << 4) | rt` (R71, R84). The four parts do not overlap, so
the sum is their union. -/
def encodeWord (i : Instr) : Word :=
  BitVec.ofNat 20 (i.opcode.toNat * 2 ^ 12 + i.fields.1.toNat * 2 ^ 8 +
    i.fields.2.1.toNat * 2 ^ 4 + i.fields.2.2.toNat)

/-- The words of an instruction: its instruction word and, where it has one, its immediate word at
the next higher address (R51, R70). -/
def encode (i : Insn) : List Word := encodeWord i.instr :: i.imm.toList

/-- The two words held by the `nbits` bits of `w`: the first in bits 19..0, the second in bits 39..20,
every bit above `nbits` being 0. -/
def tableWords (nbits w : Nat) : List Word :=
  [BitVec.ofNat 20 (w % 2 ^ nbits), BitVec.ofNat 20 (w % 2 ^ nbits / 2 ^ 20)]

/-- The instruction the decoder reads from an instruction whose bits are `w`. -/
def decodeTableWord (nbits w : Nat) : Option Instr :=
  match decode (tableWords nbits w) with
  | .ok i _ => some i.instr
  | _ => none

end Sys2Proof
end

