-- ==== Sys2Proof/WellFormed.lean ====
section
/-! DEFINITION. When an instruction with its immediate word, and the inputs of a run, are well formed. -/

namespace Sys2Proof

/-- The immediate word is there exactly when the instruction is in immediate mode (R73, R80). Nothing else
can be wrong: every value of every field is legal (R78, R79). -/
def Insn.wf (i : Insn) : Bool := i.imm.isSome == i.instr.immMode

/-- A list of integers is ascending (R179). DESIGN CHOICE: equal neighbours are accepted (assumption 30). -/
def ascending : List Int → Bool
  | a :: b :: rest => decide (a ≤ b) && ascending (b :: rest)
  | _ => true

/-- The inputs of a run that R4, R58, R174 and R179 admit: images no longer than their medium, an
ascending schedule of non-negative entries below 2^31, a positive latency (N14, U10, U11)
(assumption 30). -/
def RunInputs.wf (inp : RunInputs) : Bool :=
  decide (inp.memImage.length ≤ Config.memDepth) &&
  decide (inp.diskImage.length ≤ Config.diskDepth) &&
  (ascending inp.irq2Schedule && inp.irq2Schedule.all fun t => decide (0 ≤ t ∧ t < 2 ^ 31)) &&
  decide (1 ≤ inp.diskLatency)

end Sys2Proof
end

