-- ==== Sys2Proof/Machine/State.lean ====
section
/-! DEFINITION. The state of the machine (`spec/10_state.md`), the reasons a step can stop, and the
state after reset (R47). -/

namespace Sys2Proof.Machine

/-- Storage of `w`-bit elements by index, as (index, element) pairs: indices strictly rising, no listed
element 0. An unlisted index reads 0 (R47, R58: what no image line supplies is zero)
(assumption 26). -/
abbrev Cells (w : Nat) := List (Nat × BitVec w)

/-- Main memory, by word address (R37). -/
abbrev Memory := Cells 20

/-- The disk, by flat index `128 * sector + offset` (R38). -/
abbrev Disk := Cells 20

/-- The framebuffer, by linear pixel index (R39). -/
abbrev Framebuffer := Cells 8

/-- The values of the state element `fault` other than `none` (R45). -/
inductive MachineFault where
  /-- `IllegalOpcode(addr, word)` (R171). Raised by decoding the word at `pc`. -/
  | illegalOpcode (addr : Nat) (word : Word)
  /-- `PcOutOfRange(pc)` (R172). Raised by the fetch of the first or the second word. -/
  | pcOutOfRange (pc : RegVal)
  deriving DecidableEq, Repr

/-- Why no step is taken from a state (R91). -/
inductive Fault where
  /-- Raised by `step` in a state whose `fault` is set: the machine has stopped and takes no further
  step (R45, R170). Safe: the spec defines no transition here. -/
  | faulted (f : MachineFault)
  /-- Raised by `step` in a state whose `halted` is 1: the run has ended normally and no further step is
  taken (R42, R158). Safe: the spec defines no transition here. -/
  | halted
  deriving DecidableEq, Repr

/-- Reasons to give an instruction no meaning. -/
inductive Refusal where
  /-- Raised by an arm of `exec` whose instruction has no meaning yet; none is left. Safe. -/
  | notModelled (mnemonic : String)
  deriving DecidableEq, Repr

/-- The direction of an I/O-register record (R234). -/
inductive IoDir where
  /-- Emitted by `in`. -/
  | read
  /-- Emitted by `out`. -/
  | write
  deriving DecidableEq, Repr

/-- An execution-trace record `trace(a, w, x[0..15])` (R233). -/
structure TraceRec where
  addr : Nat
  word : Word
  regs : Vector RegVal 16
  deriving DecidableEq, Repr

/-- An I/O-register record `hwreg(c, dir, k, v)` (R234). -/
structure HwregRec where
  cycle : RegVal
  dir : IoDir
  index : IoIx
  value : RegVal
  deriving DecidableEq, Repr

/-- An LED or 7-segment record `(c, v)` (R235, R236). -/
structure OutputRec where
  cycle : RegVal
  value : RegVal
  deriving DecidableEq, Repr

/-- The complete state: the tuple at the head of `spec/10_state.md`, then the observation streams, the
run inputs a step reads, and two fields of the model's own. -/
structure State where
  /-- `x[0..15]` (R10). -/
  x : Vector RegVal 16
  /-- `pc` (R14). -/
  pc : RegVal
  /-- `io[0..22]` (R18). -/
  io : Vector RegVal 23
  /-- `Mem[0..4095]` (R37). -/
  mem : Memory
  /-- `Disk[0..16383]` (R38). -/
  disk : Disk
  /-- `FB[0..65535]` (R39). -/
  fb : Framebuffer
  /-- `in_isr` (R41). -/
  inIsr : Bool
  /-- `halted` (R42). -/
  halted : Bool
  /-- `disk_acc` (R43). -/
  diskAcc : Nat
  /-- `sched_cursor` (R44). -/
  schedCursor : Nat
  /-- `fault` (R45). -/
  fault : Option MachineFault
  /-- The execution trace, newest record first (R233; assumption 28). -/
  trace : List TraceRec
  /-- The I/O-register stream, newest record first (R234; assumption 28). -/
  hwreg : List HwregRec
  /-- The LED stream, newest record first (R235; assumption 28). -/
  ledsLog : List OutputRec
  /-- The 7-segment stream, newest record first (R236; assumption 28). -/
  display7segLog : List OutputRec
  /-- The run input `IRQ2_SCHEDULE`; no step changes it (R179; assumption 24). -/
  irq2Schedule : List Int
  /-- The parameter `DISK_LATENCY`; no step changes it (R224; assumption 24). -/
  diskLatency : Nat
  /-- The local variable `cost` of the step (R90, R99; assumption 27). -/
  cost : Nat
  /-- How many free values have been drawn (assumption 5). -/
  draws : Nat
  deriving DecidableEq, Repr

/-- The state after reset (R47, R220, R221) with empty images and an empty schedule; a run with other
inputs starts from `State.load` (assumption 25). -/
def State.reset : State where
  x := Vector.replicate 16 0
  pc := 0
  io := Vector.replicate 23 0
  mem := []
  disk := []
  fb := []
  inIsr := false
  halted := false
  diskAcc := 0
  schedCursor := 0
  fault := none
  trace := []
  hwreg := []
  ledsLog := []
  display7segLog := []
  irq2Schedule := []
  diskLatency := Config.diskLatency
  cost := 0
  draws := 0

end Sys2Proof.Machine
end

