-- ==== Sys2Proof/Machine/IoMap.lean ====
section
/-! DEFINITION. The index of each I/O register (`spec/10_state.md` rule R18), and the values the
controllers write (R20, R29, R32). -/

namespace Sys2Proof.Machine

abbrev Io.irq0enable : IoIx := 0
abbrev Io.irq1enable : IoIx := 1
abbrev Io.irq2enable : IoIx := 2
abbrev Io.irq0status : IoIx := 3
abbrev Io.irq1status : IoIx := 4
abbrev Io.irq2status : IoIx := 5
abbrev Io.irqhandler : IoIx := 6
abbrev Io.irqreturn : IoIx := 7
abbrev Io.clks : IoIx := 8
abbrev Io.leds : IoIx := 9
abbrev Io.display7seg : IoIx := 10
abbrev Io.timerenable : IoIx := 11
abbrev Io.timercurrent : IoIx := 12
abbrev Io.timermax : IoIx := 13
abbrev Io.diskcmd : IoIx := 14
abbrev Io.disksector : IoIx := 15
abbrev Io.diskbuffer : IoIx := 16
abbrev Io.diskstatus : IoIx := 17
abbrev Io.reserved18 : IoIx := 18
abbrev Io.reserved19 : IoIx := 19
abbrev Io.monitoraddr : IoIx := 20
abbrev Io.monitordata : IoIx := 21
abbrev Io.monitorcmd : IoIx := 22

/-- `diskstatus` FREE. DEDUCED: the value is the spec's decision D14 (R32; assumption 15). -/
abbrev diskFree : RegVal := 0

/-- `diskstatus` BUSY. DEDUCED: the value is the spec's decision D14 (R32; assumption 15). -/
abbrev diskBusy : RegVal := 1

/-- `diskcmd` none. DEDUCED: the value is the spec's decision D14 (R29; assumption 15). -/
abbrev diskCmdNone : RegVal := 0

/-- `diskcmd` read: disk to memory (R29). -/
abbrev diskCmdRead : RegVal := 1

/-- `diskcmd` write: memory to disk (R29). -/
abbrev diskCmdWrite : RegVal := 2

/-- What setting a status bit writes. DEDUCED: the whole register becomes 1, the spec's decision D16
(R20; assumption 17). -/
abbrev statusSet : RegVal := 1

/-- The value of `monitorcmd` that stores a pixel (R36). -/
abbrev monitorCmdWrite : RegVal := 1

end Sys2Proof.Machine
end

