-- ==== Sys2Proof/Machine/Ops.lean ====
section
/-! DEFINITION. The named operations over storage and registers (`spec/00_scope.md` rule R6), raising a
fault (R170), and interrupt entry and return (R189, R191). -/

namespace Sys2Proof.Machine

/-- The element at index `a`. -/
def Cells.read {w : Nat} : Cells w → Nat → BitVec w
  | [], _ => 0#w
  | (k, v) :: rest, a => if a < k then 0#w else if a = k then v else Cells.read rest a

/-- Set the element at index `a`, keeping the canonical form: 0 is not listed. -/
def Cells.write {w : Nat} : Cells w → Nat → BitVec w → Cells w
  | [], a, v => if v = 0#w then [] else [(a, v)]
  | (k, u) :: rest, a, v =>
    if a < k then (if v = 0#w then (k, u) :: rest else (a, v) :: (k, u) :: rest)
    else if a = k then (if v = 0#w then rest else (a, v) :: rest)
    else (k, u) :: Cells.write rest a v

/-- The canonical form from index `lo` on: indices strictly rising, from `lo` to below `depth`, no element 0. -/
def Cells.wfFrom {w : Nat} (depth : Nat) : Nat → Cells w → Bool
  | _, [] => true
  | lo, (k, v) :: rest =>
    decide (lo ≤ k) && decide (k < depth) && !(v == 0#w) && Cells.wfFrom depth (k + 1) rest

/-- Main memory is in canonical form. -/
def Memory.wf (m : Memory) : Bool := Cells.wfFrom Config.memDepth 0 m

/-- The disk is in canonical form. -/
def Disk.wf (d : Disk) : Bool := Cells.wfFrom Config.diskDepth 0 d

/-- The framebuffer is in canonical form. -/
def Framebuffer.wf (f : Framebuffer) : Bool := Cells.wfFrom Config.pixelCount 0 f

/-- `x[i]` (R6). -/
def State.reg (s : State) (i : RegIx) : RegVal := s.x[i.toNat]'i.isLt

/-- `x[i] <- v`, the unconditional write (R6). Instructions use `State.writeReg`. -/
def State.setReg (s : State) (i : RegIx) (v : RegVal) : State :=
  { s with x := s.x.set i.toNat v i.isLt }

/-- `WriteReg(rd, v, allow_imm)` (R98): register 0 is never written, register 1 only by `add`. DEDUCED:
that this holds of `lw`, `in` and the link of `jal` is the spec's decision D8 (assumption 8). -/
def State.writeReg (s : State) (rd : RegIx) (v : RegVal) (allowImm : Bool) : State :=
  if rd = 0 then s
  else if rd = 1 ∧ allowImm = false then s
  else s.setReg rd v

/-- `io[k]` (R6). -/
def State.ioReg (s : State) (k : IoIx) : RegVal := s.io[k.val]'k.isLt

/-- `io[k] <- v` (R6). -/
def State.setIo (s : State) (k : IoIx) (v : RegVal) : State :=
  { s with io := s.io.set k.val v k.isLt }

/-- `pc <- t` (R6). -/
def State.setPc (s : State) (t : RegVal) : State := { s with pc := t }

/-- `clks`, another name for `io[8]` (R6, R23). DEDUCED: one register, the spec's decision D10
(assumption 11). -/
def State.clks (s : State) : RegVal := s.ioReg Io.clks

/-- `clks <- wrap32(clks + n)` (R95, R141, R142). -/
def State.advanceClks (s : State) (n : Nat) : State := s.setIo Io.clks (wrap32 (s32 s.clks + n))

/-- `Mem[a]` (R6). -/
def State.memWord (s : State) (a : Nat) : Word := Cells.read s.mem a

/-- `Mem[a] <- w` (R6). -/
def State.setMemWord (s : State) (a : Nat) (w : Word) : State :=
  { s with mem := Cells.write s.mem a w }

/-- Replace main memory: what a disk read transfer does (R203). -/
def State.setMem (s : State) (m : Memory) : State := { s with mem := m }

/-- `Disk[d]` (R6). -/
def State.diskWord (s : State) (d : Nat) : Word := Cells.read s.disk d

/-- Replace the disk: what a disk write transfer does (R203). -/
def State.setDisk (s : State) (d : Disk) : State := { s with disk := d }

/-- `FB[p]` (R6). -/
def State.pixel (s : State) (p : Nat) : Pixel := Cells.read s.fb p

/-- `FB[p] <- v` (R6). -/
def State.setPixel (s : State) (p : Nat) (v : Pixel) : State :=
  { s with fb := Cells.write s.fb p v }

/-- Write `in_isr` (R41). -/
def State.setInIsr (s : State) (b : Bool) : State := { s with inIsr := b }

/-- `halted <- 1` (R42, R158). -/
def State.setHalted (s : State) : State := { s with halted := true }

/-- Write `disk_acc` (R43). -/
def State.setDiskAcc (s : State) (n : Nat) : State := { s with diskAcc := n }

/-- Write `sched_cursor` (R44). -/
def State.setSchedCursor (s : State) (n : Nat) : State := { s with schedCursor := n }

/-- `fault <- f` (R170). -/
def State.setFault (s : State) (f : MachineFault) : State := { s with fault := some f }

/-- Write the step's `cost` (R90). -/
def State.setCost (s : State) (n : Nat) : State := { s with cost := n }

/-- The extra cycle of `lw` and `sw`: `clks <- wrap32(clks + 1); cost := cost + 1` (R141, R142). -/
def State.extraCycle (s : State) : State := (s.advanceClks 1).setCost (s.cost + 1)

/-- `emit trace(...)` (R233). -/
def State.emitTrace (s : State) (r : TraceRec) : State := { s with trace := r :: s.trace }

/-- `emit hwreg(...)` (R234). -/
def State.emitHwreg (s : State) (r : HwregRec) : State := { s with hwreg := r :: s.hwreg }

/-- `emit leds(...)` (R235). -/
def State.emitLeds (s : State) (r : OutputRec) : State := { s with ledsLog := r :: s.ledsLog }

/-- `emit display7seg(...)` (R236). -/
def State.emitDisplay7seg (s : State) (r : OutputRec) : State :=
  { s with display7segLog := r :: s.display7segLog }

/-- Count one free value as drawn (assumption 5). -/
def State.countDraw (s : State) : State := { s with draws := s.draws + 1 }

/-- `raise F(info)`: the fault is recorded and the step ends with no other change (R170). DEDUCED: that a
fault is a recorded state is the spec's decision D9 (assumption 9). -/
def raiseFault (f : MachineFault) (s : State) : Host.Outcome State Fault Refusal :=
  .next (s.setFault f)

/-- Interrupt entry (R189): `io[7] <- pc; pc <- io[6]; in_isr <- 1`, and nothing else. -/
def State.takeInterrupt (s : State) : State :=
  ((s.setIo Io.irqreturn s.pc).setPc (s.ioReg Io.irqhandler)).setInIsr true

/-- Return from an interrupt (R151, R191): `pc <- io[7]; in_isr <- 0`, and nothing else. -/
def State.returnFromInterrupt (s : State) : State :=
  (s.setPc (s.ioReg Io.irqreturn)).setInIsr false

end Sys2Proof.Machine
end

