-- ==== Sys2Proof/Machine/Operands.lean ====
section
/-! DEFINITION. Conversions between words and register values (`spec/00_scope.md` rule R6), and how an
address or an index is formed from the operand registers (R53, R140, R159). -/

namespace Sys2Proof.Machine

/-- `sext_20(w)`: bits 31..20 all equal `w[19]` (R6). -/
def sext20 (w : Word) : RegVal := w.signExtend 32

/-- `zext_20(w)`: bits 31..20 are 0 (R6). -/
def zext20 (w : Word) : RegVal := w.setWidth 32

/-- `v[19:0]` (R5, R6). -/
def low20 (v : RegVal) : Word := v.extractLsb' 0 20

/-- `v[7:0]` (R5, R6). -/
def low8 (v : RegVal) : Pixel := v.extractLsb' 0 8

/-- `a mod m`, the non-negative remainder (R6). DEDUCED: the spec's decision D11 (assumption 12). -/
def wrapIndex (a : Int) (m : Nat) : Nat := (a % (m : Int)).toNat

/-- The sum of the two address or index registers, wrapped to 32 bits and read as signed (R53, R159). -/
def operandSum (s : State) (rs rt : RegIx) : Int :=
  s32 (wrap32 (s32 (s.reg rs) + s32 (s.reg rt)))

/-- `EA`, the effective address of `lw` and `sw` (R140). -/
def effectiveAddress (s : State) (rs rt : RegIx) : Nat :=
  wrapIndex (operandSum s rs rt) Config.memDepth

/-- `k`, the I/O index of `in` and `out` (R159). -/
def ioIndex (s : State) (rs rt : RegIx) : IoIx :=
  ⟨wrapIndex (operandSum s rs rt) 23, by unfold wrapIndex; omega⟩

end Sys2Proof.Machine
end

