-- ==== Sys2Proof/Machine/Flags.lean ====
section
/-! DEFINITION. The machine has no flags (`spec/10_state.md` rule R17). The conditions it computes instead:
the six branch comparisons (R131 to R136) and the interrupt request (R187). -/

namespace Sys2Proof.Machine

/-- `a = b` (R131). -/
def condEq (a b : RegVal) : Bool := decide (s32 a = s32 b)

/-- `a != b` (R132). -/
def condNe (a b : RegVal) : Bool := decide (s32 a ≠ s32 b)

/-- `a < b`, signed (R133). DEDUCED: the spec's decision D6 (assumption 6), as for the next three. -/
def condLt (a b : RegVal) : Bool := decide (s32 a < s32 b)

/-- `a > b`, signed (R134). -/
def condGt (a b : RegVal) : Bool := decide (s32 a > s32 b)

/-- `a <= b`, signed (R135). -/
def condLe (a b : RegVal) : Bool := decide (s32 a ≤ s32 b)

/-- `a >= b`, signed (R136). -/
def condGe (a b : RegVal) : Bool := decide (s32 a ≥ s32 b)

/-- `irq`: some line is both enabled and pending, bitwise on the full registers (R187). -/
def irqRequest (s : State) : Bool :=
  ((s.ioReg Io.irq0enable &&& s.ioReg Io.irq0status) |||
    (s.ioReg Io.irq1enable &&& s.ioReg Io.irq1status) |||
    (s.ioReg Io.irq2enable &&& s.ioReg Io.irq2status)) != 0

/-- `take`: an interrupt is requested and the machine is not in a service routine (R187). -/
def takeCondition (s : State) : Bool := irqRequest s && !s.inIsr

end Sys2Proof.Machine
end

