-- ==== Sys2Proof/Machine/Fetch.lean ====
section
/-! DEFINITION. Steps 1 to 4 of `Step()` (`spec/40_step.md` rule R90): fetch and decode, immediate load,
trace point, advance. -/

namespace Sys2Proof.Machine

/-- What a fetch that raises no fault yields: the address, the raw word, the instruction. -/
structure Fetched where
  addr : Nat
  word : Word
  insn : Insn
  deriving DecidableEq, Repr

/-- The words of the instruction stream at address `a`: `Mem[a]` and, unless `a` is the last address, `Mem[a + 1]`.
The stream does not wrap (R16, R93). -/
def State.streamWords (s : State) (a : Nat) : List Word :=
  if a + 1 < Config.memDepth then [s.memWord a, s.memWord (a + 1)] else [s.memWord a]

/-- Fetch and decode (R92, R93), or the fault it raises, in the order of R173. DEDUCED: the range test is the
spec's decision D3 (assumption 2). -/
def State.fetch (s : State) : Except MachineFault Fetched :=
  if 0 ≤ s32 s.pc ∧ s32 s.pc ≤ 4095 then
    let a := (s32 s.pc).toNat
    match decode (s.streamWords a) with
    | .ok i _ => .ok { addr := a, word := s.memWord a, insn := i }
    | .illegalOpcode w => .error (.illegalOpcode a w)
    | .missingImmediate _ => .error (.pcOutOfRange s.pc)
    | .noWord => .error (.pcOutOfRange s.pc)
  else .error (.pcOutOfRange s.pc)

/-- `x[1] <- sext_20(...)` if there is an immediate word; not subject to the write guard (R93). -/
def State.loadImmediate (s : State) (imm : Option Word) : State :=
  match imm with
  | some m => s.setReg 1 (sext20 m)
  | none => s

/-- Immediate load, trace point, and the advance of `pc` and `clks` (R93, R94, R95). -/
def State.beginInsn (s : State) (f : Fetched) : State :=
  let s1 := s.loadImmediate f.insn.imm
  let s2 := s1.emitTrace { addr := f.addr, word := f.word, regs := s1.x }
  let n := f.insn.instr.length
  ((s2.setPc (wrap32 (f.addr + n))).advanceClks n).setCost n

end Sys2Proof.Machine
end

