-- ==== Sys2Proof/Machine/Alu.lean ====
section
/-! DEFINITION. The nine arithmetic and logic instructions (`spec/41_alu.md`). PRESUMED: what each mnemonic
computes is the standard meaning, which R110 marks as general knowledge (assumption 23). Results wrap
modulo 2^32, the spec's decision D4 (assumption 3). -/

namespace Sys2Proof.Machine

/-- The value of a shift by `n`: `op n` for an amount in 0..31, and otherwise a fresh free value (R117 to R119, U1;
assumption 4). The state counts the draw. -/
def shiftValue (s : State) (n : Int) (op : Nat → RegVal) : RegVal × State :=
  if 0 ≤ n ∧ n ≤ 31 then (op n.toNat, s) else (Config.shiftFree s.draws, s.countDraw)

/-- Write the value of a shift through the guard (R117 to R119). -/
def writeShift (s : State) (rd : RegIx) (n : Int) (op : Nat → RegVal) : State :=
  (shiftValue s n op).2.writeReg rd (shiftValue s n op).1 false

/-- `add` (R111): the one instruction that may write register 1. -/
def execAdd (rd rs rt : RegIx) (s : State) : Host.Outcome State Fault Refusal :=
  .next (s.writeReg rd (wrap32 (s32 (s.reg rs) + s32 (s.reg rt))) true)

/-- `sub` (R112). -/
def execSub (rd rs rt : RegIx) (s : State) : Host.Outcome State Fault Refusal :=
  .next (s.writeReg rd (wrap32 (s32 (s.reg rs) - s32 (s.reg rt))) false)

/-- `mul` (R113): the low 32 bits of the product. -/
def execMul (rd rs rt : RegIx) (s : State) : Host.Outcome State Fault Refusal :=
  .next (s.writeReg rd (wrap32 (s32 (s.reg rs) * s32 (s.reg rt))) false)

/-- `and` (R114). -/
def execAnd (rd rs rt : RegIx) (s : State) : Host.Outcome State Fault Refusal :=
  .next (s.writeReg rd (s.reg rs &&& s.reg rt) false)

/-- `or` (R115). -/
def execOr (rd rs rt : RegIx) (s : State) : Host.Outcome State Fault Refusal :=
  .next (s.writeReg rd (s.reg rs ||| s.reg rt) false)

/-- `xor` (R116). -/
def execXor (rd rs rt : RegIx) (s : State) : Host.Outcome State Fault Refusal :=
  .next (s.writeReg rd (s.reg rs ^^^ s.reg rt) false)

/-- `sll` (R117): `wrap32(u32(x[rs]) * 2^n)`. -/
def execSll (rd rs rt : RegIx) (s : State) : Host.Outcome State Fault Refusal :=
  .next (writeShift s rd (s32 (s.reg rt)) fun n => wrap32 (u32 (s.reg rs) * 2 ^ n))

/-- `sra` (R118): `wrap32(floor(s32(x[rs]) / 2^n))`. -/
def execSra (rd rs rt : RegIx) (s : State) : Host.Outcome State Fault Refusal :=
  .next (writeShift s rd (s32 (s.reg rt)) fun n => wrap32 (s32 (s.reg rs) / 2 ^ n))

/-- `srl` (R119): `floor(u32(x[rs]) / 2^n)`. -/
def execSrl (rd rs rt : RegIx) (s : State) : Host.Outcome State Fault Refusal :=
  .next (writeShift s rd (s32 (s.reg rt)) fun n => wrap32 (u32 (s.reg rs) / 2 ^ n))

end Sys2Proof.Machine
end

