-- ==== Sys2Proof/Machine/Branch.lean ====
section
/-! DEFINITION. The control transfer instructions (`spec/42_branch.md`). -/

namespace Sys2Proof.Machine

/-- `if cond then pc <- x[rd]`: the whole 32 bits, absolute and unmasked (R130). -/
def branchIf (c : Bool) (rd : RegIx) (s : State) : State :=
  if c then s.setPc (s.reg rd) else s

/-- `beq` (R131). -/
def execBeq (rd rs rt : RegIx) (s : State) : Host.Outcome State Fault Refusal :=
  .next (branchIf (condEq (s.reg rs) (s.reg rt)) rd s)

/-- `bne` (R132). -/
def execBne (rd rs rt : RegIx) (s : State) : Host.Outcome State Fault Refusal :=
  .next (branchIf (condNe (s.reg rs) (s.reg rt)) rd s)

/-- `blt` (R133). -/
def execBlt (rd rs rt : RegIx) (s : State) : Host.Outcome State Fault Refusal :=
  .next (branchIf (condLt (s.reg rs) (s.reg rt)) rd s)

/-- `bgt` (R134). -/
def execBgt (rd rs rt : RegIx) (s : State) : Host.Outcome State Fault Refusal :=
  .next (branchIf (condGt (s.reg rs) (s.reg rt)) rd s)

/-- `ble` (R135). -/
def execBle (rd rs rt : RegIx) (s : State) : Host.Outcome State Fault Refusal :=
  .next (branchIf (condLe (s.reg rs) (s.reg rt)) rd s)

/-- `bge` (R136). -/
def execBge (rd rs rt : RegIx) (s : State) : Host.Outcome State Fault Refusal :=
  .next (branchIf (condGe (s.reg rs) (s.reg rt)) rd s)

/-- `jal` (R137): the link is written first and the target is read after it; `rt` is ignored. DEDUCED: with
`rd = rs` the target is the link, the spec's decision D7 (assumption 7). -/
def execJal (rd rs _rt : RegIx) (s : State) : Host.Outcome State Fault Refusal :=
  let s1 := s.writeReg rd s.pc false
  .next (s1.setPc (s1.reg rs))

end Sys2Proof.Machine
end

