-- ==== Sys2Proof/Machine/LoadStore.lean ====
section
/-! DEFINITION. The load and store instructions (`spec/43_load_store.md`). -/

namespace Sys2Proof.Machine

/-- `lw` (R141): the loaded word is zero-extended; the extra cycle is charged even where the write is
suppressed. -/
def execLw (rd rs rt : RegIx) (s : State) : Host.Outcome State Fault Refusal :=
  let v := zext20 (s.memWord (effectiveAddress s rs rt))
  .next (s.writeReg rd v false).extraCycle

/-- `sw` (R142): the low 20 bits of `x[rd]` are stored. -/
def execSw (rd rs rt : RegIx) (s : State) : Host.Outcome State Fault Refusal :=
  .next (s.setMemWord (effectiveAddress s rs rt) (low20 (s.reg rd))).extraCycle

end Sys2Proof.Machine
end

