-- ==== Sys2Proof/Machine/System.lean ====
section
/-! DEFINITION. The system instructions (`spec/44_system.md`). -/

namespace Sys2Proof.Machine

/-- `PixelWrite()` (R156): address and data are what the registers hold at this moment. DEDUCED: the address
modulo 65536 is the spec's decision D19 (assumption 20). -/
def State.pixelWrite (s : State) : State :=
  (s.setPixel (wrapIndex (s32 (s.ioReg Io.monitoraddr)) Config.pixelCount)
    (low8 (s.ioReg Io.monitordata))).setIo Io.monitorcmd 0

/-- The `case k of` of `out` (R153 to R157): the side effect of having written `v` to register `k`, with `c` the
cycle of the record. -/
def State.outSideEffect (s : State) (c : RegVal) (k : IoIx) (v : RegVal) : State :=
  if k = Io.leds then s.emitLeds { cycle := c, value := v }
  else if k = Io.display7seg then s.emitDisplay7seg { cycle := c, value := v }
  else if k = Io.monitorcmd then (if v = monitorCmdWrite then s.pixelWrite else s)
  else if k = Io.diskcmd then
    (if v = diskCmdRead ∨ v = diskCmdWrite then s.setIo Io.diskstatus diskBusy else s)
  else s

/-- `reti` (R151): the fields are ignored. -/
def execReti (_rd _rs _rt : RegIx) (s : State) : Host.Outcome State Fault Refusal :=
  .next s.returnFromInterrupt

/-- `in` (R152): the record is emitted also where the register write is suppressed. -/
def execIn (rd rs rt : RegIx) (s : State) : Host.Outcome State Fault Refusal :=
  let k := ioIndex s rs rt
  let v := s.ioReg k
  .next ((s.writeReg rd v false).emitHwreg { cycle := s.clks, dir := .read, index := k, value := v })

/-- `out` (R153): the cycle of the records is sampled before the write. DEDUCED: what the records hold is the
spec's decision D21 (assumption 21). -/
def execOut (rd rs rt : RegIx) (s : State) : Host.Outcome State Fault Refusal :=
  let k := ioIndex s rs rt
  let v := s.reg rd
  let c := s.clks
  .next (((s.setIo k v).emitHwreg { cycle := c, dir := .write, index := k, value := v }).outSideEffect c k v)

/-- `halt` (R158): the fields are ignored. -/
def execHalt (_rd _rs _rt : RegIx) (s : State) : Host.Outcome State Fault Refusal :=
  .next s.setHalted

end Sys2Proof.Machine
end

