-- ==== Sys2Proof/Machine/Dispatch.lean ====
section
/-! DEFINITION. `Execute(op, rd, rs, rt)` of `spec/40_step.md` rules R90 and R96: one arm per instruction. -/

namespace Sys2Proof.Machine

def exec (i : Instr) (s : State) : Host.Outcome State Fault Refusal :=
  match i with
  | .add rd rs rt => Sys2Proof.Machine.execAdd rd rs rt s
  | .sub rd rs rt => Sys2Proof.Machine.execSub rd rs rt s
  | .mul rd rs rt => Sys2Proof.Machine.execMul rd rs rt s
  | .and rd rs rt => Sys2Proof.Machine.execAnd rd rs rt s
  | .or rd rs rt => Sys2Proof.Machine.execOr rd rs rt s
  | .xor rd rs rt => Sys2Proof.Machine.execXor rd rs rt s
  | .sll rd rs rt => Sys2Proof.Machine.execSll rd rs rt s
  | .sra rd rs rt => Sys2Proof.Machine.execSra rd rs rt s
  | .srl rd rs rt => Sys2Proof.Machine.execSrl rd rs rt s
  | .beq rd rs rt => Sys2Proof.Machine.execBeq rd rs rt s
  | .bne rd rs rt => Sys2Proof.Machine.execBne rd rs rt s
  | .blt rd rs rt => Sys2Proof.Machine.execBlt rd rs rt s
  | .bgt rd rs rt => Sys2Proof.Machine.execBgt rd rs rt s
  | .ble rd rs rt => Sys2Proof.Machine.execBle rd rs rt s
  | .bge rd rs rt => Sys2Proof.Machine.execBge rd rs rt s
  | .jal rd rs rt => Sys2Proof.Machine.execJal rd rs rt s
  | .lw rd rs rt => Sys2Proof.Machine.execLw rd rs rt s
  | .sw rd rs rt => Sys2Proof.Machine.execSw rd rs rt s
  | .reti rd rs rt => Sys2Proof.Machine.execReti rd rs rt s
  | .ioIn rd rs rt => Sys2Proof.Machine.execIn rd rs rt s
  | .ioOut rd rs rt => Sys2Proof.Machine.execOut rd rs rt s
  | .halt rd rs rt => Sys2Proof.Machine.execHalt rd rs rt s

end Sys2Proof.Machine
end

