-- ==== Sys2Proof/Machine/Peripherals.lean ====
section
/-! DEFINITION. The peripheral phase (`spec/60_exceptions.md` rule R175): injector, disk, timer, interrupt
assertion, in that order. -/

namespace Sys2Proof.Machine

/-- `InjectScheduled()` (R181): at most one entry is consumed. DEDUCED: the signed comparison is the spec's
decision D22 (assumption 22). -/
def State.injectScheduled (s : State) : State :=
  match s.irq2Schedule[s.schedCursor]? with
  | some t =>
    if t ≤ s32 s.clks then (s.setIo Io.irq2status statusSet).setSchedCursor (s.schedCursor + 1) else s
  | none => s

/-- The sector of a transfer, `s32(io[15]) mod 128` (R203). DEDUCED: D15 (assumption 16). -/
def State.transferSector (s : State) : Nat :=
  wrapIndex (s32 (s.ioReg Io.disksector)) Config.diskSectors

/-- The disk index of word `i` of the transfer, `128*s + i` (R38, R203). -/
def State.transferDiskIndex (s : State) (i : Nat) : Nat :=
  Config.sectorWords * s.transferSector + i

/-- The memory address of word `i` of the transfer, `(b + i) mod 4096` (R203). DEDUCED: D15
(assumption 16). -/
def State.transferAddress (s : State) (i : Nat) : Nat :=
  wrapIndex (s32 (s.ioReg Io.diskbuffer) + i) Config.memDepth

/-- A read transfer: `for i in 0..127: Mem[(b + i) mod 4096] <- Disk[128*s + i]` (R203). -/
def State.transferRead (s : State) : State :=
  s.setMem ((List.range Config.sectorWords).foldl
    (fun m i => Cells.write m (s.transferAddress i) (s.diskWord (s.transferDiskIndex i))) s.mem)

/-- A write transfer: `for i in 0..127: Disk[128*s + i] <- Mem[(b + i) mod 4096]` (R203). -/
def State.transferWrite (s : State) : State :=
  s.setDisk ((List.range Config.sectorWords).foldl
    (fun d i => Cells.write d (s.transferDiskIndex i) (s.memWord (s.transferAddress i))) s.disk)

/-- `Transfer()` (R203): the three registers are read here, at completion (R207). -/
def State.transfer (s : State) : State :=
  if s.ioReg Io.diskcmd = diskCmdRead then s.transferRead
  else if s.ioReg Io.diskcmd = diskCmdWrite then s.transferWrite
  else s

/-- `Complete()` (R204). -/
def State.completeTransfer (s : State) : State :=
  (((s.transfer.setDiskAcc 0).setIo Io.irq1status statusSet).setIo Io.diskcmd diskCmdNone).setIo
    Io.diskstatus diskFree

/-- `DiskProgress(cost)` (R202). -/
def State.diskProgress (s : State) : State :=
  if s.ioReg Io.diskstatus = diskBusy then
    let t := s.setDiskAcc (s.diskAcc + s.cost)
    if s.diskLatency ≤ t.diskAcc then t.completeTransfer else t
  else s

/-- `Expire()` (R196). -/
def State.timerExpire (s : State) : State :=
  (s.setIo Io.timercurrent 0).setIo Io.irq0status statusSet

/-- `TimerProgress(cost)` (R195). DEDUCED: the nesting, "set" as non-zero and the signed comparison are the
spec's decision D17 (assumption 18). -/
def State.timerProgress (s : State) : State :=
  if s.ioReg Io.timerenable ≠ 0 then
    let t := s.setIo Io.timercurrent (wrap32 (s32 (s.ioReg Io.timercurrent) + s.cost))
    if s32 (t.ioReg Io.timermax) ≤ s32 (t.ioReg Io.timercurrent) then t.timerExpire else t
  else s

/-- `InterruptAssert()` (R187, R189). -/
def State.interruptAssert (s : State) : State :=
  if takeCondition s then s.takeInterrupt else s

/-- `Peripherals(cost)` (R175), with the cost the step left in the state. -/
def State.peripherals (s : State) : State :=
  s.injectScheduled.diskProgress.timerProgress.interruptAssert

end Sys2Proof.Machine
end

