-- ==== Sys2Proof/Machine/Step.lean ====
section
/-! DEFINITION. `Step()` (`spec/40_step.md` rules R90, R91, R100), and placing an instruction where the next step
fetches it. -/

namespace Sys2Proof.Machine

/-- One step. In a halted or a faulted state no step is taken (R91). DEDUCED: the peripheral phase runs after
every instruction, `halt` among them, the spec's decision D18 (assumption 19). -/
def step (s : State) : Host.Outcome State Fault Refusal :=
  if s.halted then .fault .halted
  else
    match s.fault with
    | some f => .fault (.faulted f)
    | none =>
      match s.fetch with
      | .error f => raiseFault f s
      | .ok f =>
        match exec f.insn.instr (s.beginInsn f) with
        | .next t => .next t.peripherals
        | .fault r => .fault r
        | .refused r => .refused r

/-- Where an instruction of two words is placed: at `pc`, or at 0 where the fetch could not read two words from
`pc` (assumption 25). -/
def State.placeAddress (s : State) : Nat := if s.pc.toNat + 1 < Config.memDepth then s.pc.toNat else 0

/-- Store the words of `tableWords nbits w` where the next step fetches, and make that step be taken
(assumption 25). -/
def State.withFetchWord (s : State) (nbits w : Nat) : State :=
  match tableWords nbits w with
  | w0 :: w1 :: _ =>
    { ((s.setMemWord s.placeAddress w0).setMemWord (s.placeAddress + 1) w1).setPc
        (BitVec.ofNat 32 s.placeAddress) with halted := false, fault := none }
  | _ => s

end Sys2Proof.Machine
end

