-- ==== Sys2Proof/Machine/Load.lean ====
section
/-! DEFINITION. The load before the first step (`spec/20_memory.md` rule R58, `spec/70_reset_and_hazards.md` rules R220 to
R224). -/

namespace Sys2Proof.Machine

/-- The cells of an image whose first line belongs to index `start`. -/
def loadCells {w : Nat} (start : Nat) : List (BitVec w) → Cells w
  | [] => []
  | v :: rest =>
    if v = 0#w then loadCells (start + 1) rest else (start, v) :: loadCells (start + 1) rest

/-- The state immediately before the first step of a run with these inputs (R47). -/
def State.initial (inp : RunInputs) : State :=
  { State.reset with
    mem := loadCells 0 inp.memImage
    disk := loadCells 0 inp.diskImage
    irq2Schedule := inp.irq2Schedule
    diskLatency := inp.diskLatency }

/-- Load a run: `none` where the inputs are ill formed, for the machine is only ever started from well-formed
ones (R174; assumption 30). -/
def State.load (inp : RunInputs) : Option State :=
  if inp.wf then some (State.initial inp) else none

end Sys2Proof.Machine
end

