-- ==== Sys2Proof/Machine/Observe.lean ====
section
/-! DEFINITION. What the host observes (`spec/70_reset_and_hazards.md` rules R233 to R239), as values; the text forms are
outside the machine (assumption 31). -/

namespace Sys2Proof.Machine

/-- The symbolic name of an I/O register (R234). -/
def ioName (k : IoIx) : String :=
  (["irq0enable", "irq1enable", "irq2enable", "irq0status", "irq1status", "irq2status", "irqhandler",
    "irqreturn", "clks", "leds", "display7seg", "timerenable", "timercurrent", "timermax", "diskcmd",
    "disksector", "diskbuffer", "diskstatus", "reserved", "reserved", "monitoraddr", "monitordata",
    "monitorcmd"] : List String).getD k.val ""

/-- The execution trace in the order of emission (R233). -/
def State.traceStream (s : State) : List TraceRec := s.trace.reverse

/-- The I/O-register stream in the order of emission (R234). -/
def State.hwregStream (s : State) : List HwregRec := s.hwreg.reverse

/-- The LED stream in the order of emission (R235). -/
def State.ledsStream (s : State) : List OutputRec := s.ledsLog.reverse

/-- The 7-segment stream in the order of emission (R236). -/
def State.display7segStream (s : State) : List OutputRec := s.display7segLog.reverse

/-- The elements of a store of `depth` elements, cut after the last that is not 0 (R237, R239). -/
def Cells.readout {w : Nat} (c : Cells w) (depth : Nat) : List (BitVec w) :=
  (((List.range depth).map (Cells.read c)).reverse.dropWhile (· == 0)).reverse

/-- The memory read-out (R237). -/
def State.memReadout (s : State) : List Word := Cells.readout s.mem Config.memDepth

/-- The disk read-out (R237). -/
def State.diskReadout (s : State) : List Word := Cells.readout s.disk Config.diskDepth

/-- The register read-out: `x[2]` to `x[15]` (R238). -/
def State.regReadout (s : State) : List RegVal := s.x.toList.drop 2

/-- The cycle read-out: `clks` (R238). -/
def State.cycleReadout (s : State) : RegVal := s.clks

/-- The monitor read-out (R239). -/
def State.monitorReadout (s : State) : List Pixel := Cells.readout s.fb Config.pixelCount

end Sys2Proof.Machine
end

