-- ==== Sys2Proof/Safety.lean ====
section
/-! DEFINITION. What holds of every state a run reaches, when a step is taken, and what it means that an
instruction leaves the rest of the state alone: the terms in which claims are stated. -/

namespace Sys2Proof.Machine

/-- A step is taken from `s` (R90, R91). -/
def State.Running (s : State) : Prop := s.halted = false ∧ s.fault = none

/-- `s` is the final state of a run (R231): halted, which a faulted state is not (R170). -/
def State.Final (s : State) : Prop := s.halted = true

/-- The next step from `s` executes the fetched instruction `f`. -/
def State.Executes (s : State) (f : Fetched) : Prop := s.Running ∧ s.fetch = .ok f

/-- The invariant of every reachable state. -/
structure State.Inv (s : State) : Prop where
  /-- `x[0] = 0` (R11). -/
  zeroReg : s.reg 0 = 0
  /-- Main memory is canonical, so no word lies beyond address 4095 (R37). -/
  memWf : Memory.wf s.mem = true
  /-- The disk is canonical (R38). -/
  diskWf : Disk.wf s.disk = true
  /-- The framebuffer is canonical (R39). -/
  fbWf : Framebuffer.wf s.fb = true
  /-- Between steps `disk_acc` has not reached the latency (R202, R204). In particular the latency is
  positive (R4). -/
  diskAcc : s.diskAcc < s.diskLatency
  /-- `sched_cursor` lies in `0 .. length(IRQ2_SCHEDULE)` (R44). -/
  cursor : s.schedCursor ≤ s.irq2Schedule.length
  /-- A halted machine is not a faulted one (R170). -/
  oneStop : s.halted = true → s.fault = none

/-- `t` is `s` but for the registers in `regs`, the I/O registers in `ios`, the memory words at addresses in
`words` and the pixels in `pixels`. The disk and the controllers' own state are `s`'s. -/
structure State.SameOutside (s t : State) (regs : RegIx → Prop) (ios : IoIx → Prop)
    (words pixels : Nat → Prop) : Prop where
  reg : ∀ r, ¬ regs r → t.reg r = s.reg r
  io : ∀ k, ¬ ios k → t.ioReg k = s.ioReg k
  mem : ∀ a, ¬ words a → t.memWord a = s.memWord a
  pixel : ∀ p, ¬ pixels p → t.pixel p = s.pixel p
  disk : ∀ d, t.diskWord d = s.diskWord d
  diskAcc : t.diskAcc = s.diskAcc
  schedCursor : t.schedCursor = s.schedCursor
  fault : t.fault = s.fault
  trace : t.trace = s.trace
  irq2Schedule : t.irq2Schedule = s.irq2Schedule
  diskLatency : t.diskLatency = s.diskLatency

/-- The three streams an opcode may append to are unchanged. -/
structure State.SameStreams (s t : State) : Prop where
  hwreg : t.hwreg = s.hwreg
  ledsLog : t.ledsLog = s.ledsLog
  display7segLog : t.display7segLog = s.display7segLog

/-- The control state and the model's own fields are unchanged. -/
structure State.SameControl (s t : State) : Prop where
  pc : t.pc = s.pc
  inIsr : t.inIsr = s.inIsr
  halted : t.halted = s.halted
  cost : t.cost = s.cost
  draws : t.draws = s.draws

/-- No index. -/
def nothing {α : Type} : α → Prop := fun _ => False

/-- Whether a result may be written to register `rd` (R98). -/
def mayWrite (rd : RegIx) (allowImm : Bool) : Prop := rd ≠ 0 ∧ (rd = 1 → allowImm = true)

/-- `i` completes in `s`, puts `v` into register `rd` where the guard of R98 lets it, and changes nothing else. -/
def WritesOnly (i : Instr) (s : State) (rd : RegIx) (allowImm : Bool) (v : RegVal) : Prop :=
  ∃ t, exec i s = .next t ∧
    (mayWrite rd allowImm → t.reg rd = v) ∧
    s.SameOutside t (fun r => r = rd ∧ mayWrite rd allowImm) nothing nothing nothing ∧
    s.SameStreams t ∧ s.SameControl t

/-- `i` completes in `s`, leaves `target` in `pc`, and changes nothing else. -/
def SetsPcOnly (i : Instr) (s : State) (target : RegVal) : Prop :=
  ∃ t, exec i s = .next t ∧ t.pc = target ∧
    s.SameOutside t nothing nothing nothing nothing ∧ s.SameStreams t ∧
    t.inIsr = s.inIsr ∧ t.halted = s.halted ∧ t.cost = s.cost ∧ t.draws = s.draws

/-- The word at `pc` (R92). -/
def State.wordAtPc (s : State) : Word := s.memWord s.pc.toNat

/-- The state an instruction `i` at `pc` executes in: immediate loaded, trace record emitted, `pc`, `clks` and the cost
advanced (R93 to R95), written out field by field. -/
def State.prepared (s : State) (i : Instr) : State :=
  let s1 := if i.immMode then s.setReg 1 (sext20 (s.memWord (s.pc.toNat + 1))) else s
  { s1 with
    trace := { addr := s.pc.toNat, word := s.wordAtPc, regs := s1.x } :: s.trace
    pc := BitVec.ofNat 32 (s.pc.toNat + i.length)
    io := s.io.set 8 (s.clks + BitVec.ofNat 32 i.length)
    cost := i.length }

/-- Two trace records that differ at most in the column of register 1. -/
def TraceRec.AgreeButImm (a b : TraceRec) : Prop :=
  a.addr = b.addr ∧ a.word = b.word ∧
    ∀ r : RegIx, r ≠ 1 → a.regs[r.toNat]'r.isLt = b.regs[r.toNat]'r.isLt

/-- Two states that differ at most in `x[1]` and in its column of the trace (R12). -/
structure State.AgreeButImm (s t : State) : Prop where
  reg : ∀ r : RegIx, r ≠ 1 → t.reg r = s.reg r
  trace : List.Forall₂ TraceRec.AgreeButImm s.trace t.trace
  rest : { t with x := s.x, trace := s.trace } = s

/-- The state without its observation streams. -/
def State.withoutStreams (s : State) : State :=
  { s with trace := [], hwreg := [], ledsLog := [], display7segLog := [] }

end Sys2Proof.Machine
end

