-- ==== Sys2Proof/Certificates/Slice0/Obligations.lean ====
section
/-! DEFINITION. The statements about the machine that are to be proved. Each docstring names the rules it rests on; where a clause
rests on a decision the spec marks as its own, the docstring names it. -/

open Sys2Proof Sys2Proof.Machine

/-! ### Encoding -/

/-- R7: the round-trip law of the word codec. -/
def Obligations.WordCodecRoundTrip : Prop :=
  ∀ v : RegVal, (s32 (sext20 (low20 v)) - s32 v) % 2 ^ 20 = 0 ∧
    (sext20 (low20 v) = v ↔ -2 ^ 19 ≤ s32 v ∧ s32 v < 2 ^ 19)

/-- R81: the decoder is total, answering an instruction with the word's own fields for opcodes 0..21 and none for
22..255. -/
def Obligations.DecoderAnswersByOpcode : Prop :=
  ∀ w : Word,
    (w.toNat / 4096 ≤ 21 → ∃ i, decodeWord w = some i ∧ i.opcode.toNat = w.toNat / 4096 ∧
      i.fields = (w.extractLsb' 8 4, w.extractLsb' 4 4, w.extractLsb' 0 4)) ∧
    (22 ≤ w.toNat / 4096 → decodeWord w = none)

/-- R75 with the spec's decision D1 (assumption 1): the word `opcode << 12 | rd << 8 | rs << 4 | rt` decodes to the
instruction of that number with those fields. -/
def Obligations.OpcodeMapDecodes : Prop :=
  ∀ rd rs rt : RegIx,
    let word (n : Nat) : Word :=
      BitVec.ofNat 20 (n * 4096 + rd.toNat * 256 + rs.toNat * 16 + rt.toNat)
    decodeWord (word 0) = some (.add rd rs rt) ∧ decodeWord (word 1) = some (.sub rd rs rt) ∧
    decodeWord (word 2) = some (.mul rd rs rt) ∧ decodeWord (word 3) = some (.and rd rs rt) ∧
    decodeWord (word 4) = some (.or rd rs rt) ∧ decodeWord (word 5) = some (.xor rd rs rt) ∧
    decodeWord (word 6) = some (.sll rd rs rt) ∧ decodeWord (word 7) = some (.sra rd rs rt) ∧
    decodeWord (word 8) = some (.srl rd rs rt) ∧ decodeWord (word 9) = some (.beq rd rs rt) ∧
    decodeWord (word 10) = some (.bne rd rs rt) ∧ decodeWord (word 11) = some (.blt rd rs rt) ∧
    decodeWord (word 12) = some (.bgt rd rs rt) ∧ decodeWord (word 13) = some (.ble rd rs rt) ∧
    decodeWord (word 14) = some (.bge rd rs rt) ∧ decodeWord (word 15) = some (.jal rd rs rt) ∧
    decodeWord (word 16) = some (.lw rd rs rt) ∧ decodeWord (word 17) = some (.sw rd rs rt) ∧
    decodeWord (word 18) = some (.reti rd rs rt) ∧ decodeWord (word 19) = some (.ioIn rd rs rt) ∧
    decodeWord (word 20) = some (.ioOut rd rs rt) ∧ decodeWord (word 21) = some (.halt rd rs rt)

/-- R70, R71, R73: every well-formed instruction, with every value of every field and of the immediate word, is read back from
its words, whatever follows them. -/
def Obligations.EncodeThenDecode : Prop :=
  ∀ (i : Insn) (rest : List Word), i.wf = true → decode (encode i ++ rest) = .ok i rest

/-- R70, R71, R73: what the decoder accepts is well formed, and its words are exactly the words consumed. -/
def Obligations.DecodeThenEncode : Prop :=
  ∀ (ws rest : List Word) (i : Insn), decode ws = .ok i rest →
    i.wf = true ∧ encode i ++ rest = ws

/-- R80: one word, or two exactly when a field of the instruction word is 1. -/
def Obligations.InstructionLengthFromFields : Prop :=
  ∀ (w : Word) (more rest : List Word) (i : Insn), decode (w :: more) = .ok i rest →
    (w :: more).length = rest.length +
      (1 + if w.extractLsb' 8 4 = 1 ∨ w.extractLsb' 4 4 = 1 ∨ w.extractLsb' 0 4 = 1 then 1 else 0)

/-- R75, R77: some words of `95_test_vectors.md` section 2.1, ten legal and two illegal. Nine of the ten rest on the opcode numbers 1 to
21, the spec's decision D1 (R76, assumption 1). -/
def Obligations.SampleWordsDecode : Prop :=
  decodeWord 0x00230 = some (.add 2 3 0) ∧ decodeWord 0x08A71 = some (.srl 10 7 1) ∧
  decodeWord 0x0B9A8 = some (.blt 9 10 8) ∧ decodeWord 0x0FF10 = some (.jal 15 1 0) ∧
  decodeWord 0x10801 = some (.lw 8 0 1) ∧ decodeWord 0x11B10 = some (.sw 11 1 0) ∧
  decodeWord 0x12010 = some (.reti 0 1 0) ∧ decodeWord 0x13801 = some (.ioIn 8 0 1) ∧
  decodeWord 0x14701 = some (.ioOut 7 0 1) ∧ decodeWord 0x15100 = some (.halt 1 0 0) ∧
  decodeWord 0x16000 = none ∧ decodeWord 0xFFFFF = none

/-! ### Instructions: completion, result and frame -/

/-- R111 to R113. That the three mnemonics add, subtract and multiply is general knowledge (R110, assumption 23); that results
wrap is the spec's decision D4 (assumption 3); what `mayWrite` excludes is D8 (assumption 8). -/
def Obligations.AddSubMulWriteResult : Prop :=
  ∀ (rd rs rt : RegIx) (s : State),
    WritesOnly (.add rd rs rt) s rd true (s.reg rs + s.reg rt) ∧
    WritesOnly (.sub rd rs rt) s rd false (s.reg rs - s.reg rt) ∧
    WritesOnly (.mul rd rs rt) s rd false (s.reg rs * s.reg rt)

/-- R114 to R116. The meanings of the mnemonics are general knowledge (R110, assumption 23). -/
def Obligations.BitwiseWriteResult : Prop :=
  ∀ (rd rs rt : RegIx) (s : State),
    WritesOnly (.and rd rs rt) s rd false (s.reg rs &&& s.reg rt) ∧
    WritesOnly (.or rd rs rt) s rd false (s.reg rs ||| s.reg rt) ∧
    WritesOnly (.xor rd rs rt) s rd false (s.reg rs ^^^ s.reg rt)

/-- R117 to R119 for an amount in 0..31. The meanings of the mnemonics are general knowledge (R110, assumption 23). -/
def Obligations.ShiftsInRangeWriteResult : Prop :=
  ∀ (rd rs rt : RegIx) (s : State), 0 ≤ s32 (s.reg rt) → s32 (s.reg rt) ≤ 31 →
    WritesOnly (.sll rd rs rt) s rd false (s.reg rs <<< (s.reg rt).toNat) ∧
    WritesOnly (.sra rd rs rt) s rd false ((s.reg rs).sshiftRight (s.reg rt).toNat) ∧
    WritesOnly (.srl rd rs rt) s rd false (s.reg rs >>> (s.reg rt).toNat)

/-- R117 to R119 for every other amount: the instruction completes and at most its destination changes; of the value written nothing
is said (D5, assumption 4). -/
def Obligations.ShiftsOutOfRangeComplete : Prop :=
  ∀ (rd rs rt : RegIx) (s : State), s32 (s.reg rt) < 0 ∨ 31 < s32 (s.reg rt) →
    ∀ i ∈ [Instr.sll rd rs rt, Instr.sra rd rs rt, Instr.srl rd rs rt],
      ∃ t, exec i s = .next t ∧
        s.SameOutside t (fun r => r = rd ∧ mayWrite rd false) nothing nothing nothing ∧
        s.SameStreams t ∧
        t.pc = s.pc ∧ t.inIsr = s.inIsr ∧ t.halted = s.halted ∧ t.cost = s.cost

/-- R98: no instruction writes register 0, and none but `add` writes register 1. For `lw`, `in` and the link of `jal` this is the
spec's decision D8 (assumption 8). -/
def Obligations.OnlyAddWritesImmediateRegister : Prop :=
  ∀ (i : Instr) (s t : State), exec i s = .next t →
    t.reg 0 = s.reg 0 ∧ ((∀ rd rs rt, i ≠ .add rd rs rt) → t.reg 1 = s.reg 1)

/-- R130 to R132: `beq` and `bne` put the whole of `x[rd]` into `pc`, or leave it. -/
def Obligations.BranchOnEquality : Prop :=
  ∀ (rd rs rt : RegIx) (s : State),
    SetsPcOnly (.beq rd rs rt) s (if s.reg rs = s.reg rt then s.reg rd else s.pc) ∧
    SetsPcOnly (.bne rd rs rt) s (if s.reg rs = s.reg rt then s.pc else s.reg rd)

/-- R130, R133 to R136. The signed comparison is the spec's decision D6 (assumption 6). -/
def Obligations.BranchOnSignedOrder : Prop :=
  ∀ (rd rs rt : RegIx) (s : State),
    SetsPcOnly (.blt rd rs rt) s (if (s.reg rs).slt (s.reg rt) then s.reg rd else s.pc) ∧
    SetsPcOnly (.bgt rd rs rt) s (if (s.reg rt).slt (s.reg rs) then s.reg rd else s.pc) ∧
    SetsPcOnly (.ble rd rs rt) s (if (s.reg rs).sle (s.reg rt) then s.reg rd else s.pc) ∧
    SetsPcOnly (.bge rd rs rt) s (if (s.reg rt).sle (s.reg rs) then s.reg rd else s.pc)

/-- R137: the link is the advanced `pc`, the target `x[rs]`. That a suppressed link still jumps is D8, that with `rd = rs` the link
itself is the target is D7 (assumptions 7 and 8). -/
def Obligations.JalLinksThenJumps : Prop :=
  ∀ (rd rs rt : RegIx) (s : State), ∃ t, exec (.jal rd rs rt) s = .next t ∧
    (mayWrite rd false → t.reg rd = s.pc) ∧
    (rd = rs ∧ mayWrite rd false → t.pc = s.pc) ∧
    (¬ (rd = rs ∧ mayWrite rd false) → t.pc = s.reg rs) ∧
    s.SameOutside t (fun r => r = rd ∧ mayWrite rd false) nothing nothing nothing ∧
    s.SameStreams t ∧
    t.inIsr = s.inIsr ∧ t.halted = s.halted ∧ t.cost = s.cost ∧ t.draws = s.draws

/-- R53, R140: the effective address is bits 11..0 of the 32-bit sum. The non-negative remainder is D11, the wrapped sum D4
(assumptions 3 and 12). -/
def Obligations.EffectiveAddressIsLowTwelveBits : Prop :=
  ∀ (rs rt : RegIx) (s : State),
    effectiveAddress s rs rt = ((s.reg rs + s.reg rt).extractLsb' 0 12).toNat

/-- R141: the loaded word is zero-extended and the extra cycle is charged. What `mayWrite` excludes is D8 (assumption 8). -/
def Obligations.LoadWordZeroExtends : Prop :=
  ∀ (rd rs rt : RegIx) (s : State), ∃ t, exec (.lw rd rs rt) s = .next t ∧
    (mayWrite rd false → (t.reg rd).toNat = (s.memWord (effectiveAddress s rs rt)).toNat) ∧
    t.clks = s.clks + 1 ∧ t.cost = s.cost + 1 ∧
    s.SameOutside t (fun r => r = rd ∧ mayWrite rd false) (fun k => k = Io.clks) nothing nothing ∧
    s.SameStreams t ∧
    t.pc = s.pc ∧ t.inIsr = s.inIsr ∧ t.halted = s.halted ∧ t.draws = s.draws

/-- R142: the low 20 bits of `x[rd]` are stored at the effective address, and no other word changes. The premise on memory is part
of the invariant `StepKeepsInvariant` keeps. -/
def Obligations.StoreWordKeepsLowTwentyBits : Prop :=
  ∀ (rd rs rt : RegIx) (s : State), Memory.wf s.mem = true →
    ∃ t, exec (.sw rd rs rt) s = .next t ∧
      (t.memWord (effectiveAddress s rs rt)).toNat = (s.reg rd).toNat % 2 ^ 20 ∧
      t.clks = s.clks + 1 ∧ t.cost = s.cost + 1 ∧
      s.SameOutside t nothing (fun k => k = Io.clks) (fun a => a = effectiveAddress s rs rt) nothing ∧
      s.SameStreams t ∧
      t.pc = s.pc ∧ t.inIsr = s.inIsr ∧ t.halted = s.halted ∧ t.draws = s.draws

/-- R54, R244: a value stored by `sw` and read back by `lw` returns as its low 20 bits, zero-extended. -/
def Obligations.StoreThenLoadReturnsLowBits : Prop :=
  ∀ (ra rd rs rt : RegIx) (s : State), Memory.wf s.mem = true → mayWrite rd false →
    ∃ t u, exec (.sw ra rs rt) s = .next t ∧ exec (.lw rd rs rt) t = .next u ∧
      (u.reg rd).toNat = (s.reg ra).toNat % 2 ^ 20

/-- R151: `reti` restores `pc` from `irqreturn` and clears `in_isr`, whatever its fields, and changes nothing else. -/
def Obligations.RetiRestoresPc : Prop :=
  ∀ (rd rs rt : RegIx) (s : State), ∃ t, exec (.reti rd rs rt) s = .next t ∧
    t.pc = s.ioReg Io.irqreturn ∧ t.inIsr = false ∧
    s.SameOutside t nothing nothing nothing nothing ∧ s.SameStreams t ∧
    t.halted = s.halted ∧ t.cost = s.cost ∧ t.draws = s.draws

/-- R158: `halt` sets the halt flag and changes nothing else. -/
def Obligations.HaltSetsHaltFlagOnly : Prop :=
  ∀ (rd rs rt : RegIx) (s : State), ∃ t, exec (.halt rd rs rt) s = .next t ∧
    t.halted = true ∧
    s.SameOutside t nothing nothing nothing nothing ∧ s.SameStreams t ∧
    t.pc = s.pc ∧ t.inIsr = s.inIsr ∧ t.cost = s.cost ∧ t.draws = s.draws

/-- R159: the I/O index is the sum modulo 23. The non-negative remainder of a negative sum is D11 (assumption 12). -/
def Obligations.IoIndexIsModulo : Prop :=
  ∀ (rs rt : RegIx) (s : State),
    ((ioIndex s rs rt).val : Int) = (s.reg rs + s.reg rt).toInt % 23 ∧
    ((s.reg rs + s.reg rt).toNat ≤ 22 →
      (ioIndex s rs rt).val = (s.reg rs + s.reg rt).toNat)

/-- R152: `in` copies the I/O register to `x[rd]` and emits one record. What `mayWrite` excludes, and that the record is emitted then
too, is D8 (assumption 8). -/
def Obligations.InCopiesIoRegister : Prop :=
  ∀ (rd rs rt : RegIx) (s : State), ∃ t, exec (.ioIn rd rs rt) s = .next t ∧
    (mayWrite rd false → t.reg rd = s.ioReg (ioIndex s rs rt)) ∧
    t.hwreg = { cycle := s.clks, dir := .read, index := ioIndex s rs rt,
                value := s.ioReg (ioIndex s rs rt) } :: s.hwreg ∧
    s.SameOutside t (fun r => r = rd ∧ mayWrite rd false) nothing nothing nothing ∧
    t.ledsLog = s.ledsLog ∧ t.display7segLog = s.display7segLog ∧ s.SameControl t

/-- R153 for the registers whose write has no side effect: all but 9, 10, 14 and 22. The record's content is D21
(assumption 21). -/
def Obligations.OutStoresPlainRegister : Prop :=
  ∀ (rd rs rt : RegIx) (s : State),
    ioIndex s rs rt ≠ Io.leds → ioIndex s rs rt ≠ Io.display7seg →
    ioIndex s rs rt ≠ Io.diskcmd → ioIndex s rs rt ≠ Io.monitorcmd →
    ∃ t, exec (.ioOut rd rs rt) s = .next t ∧
      t.ioReg (ioIndex s rs rt) = s.reg rd ∧
      t.hwreg = { cycle := s.clks, dir := .write, index := ioIndex s rs rt,
                  value := s.reg rd } :: s.hwreg ∧
      s.SameOutside t nothing (fun k => k = ioIndex s rs rt) nothing nothing ∧
      t.ledsLog = s.ledsLog ∧ t.display7segLog = s.display7segLog ∧ s.SameControl t

/-- R24, R25, R154, R155: an `out` to `leds` or `display7seg` stores the value and emits one record on that stream at every write.
The cycle of the records is D21 (assumption 21). -/
def Obligations.OutLogsDisplayRegisters : Prop :=
  ∀ (rd rs rt : RegIx) (s : State),
    ioIndex s rs rt = Io.leds ∨ ioIndex s rs rt = Io.display7seg →
    ∃ t, exec (.ioOut rd rs rt) s = .next t ∧
      t.ioReg (ioIndex s rs rt) = s.reg rd ∧
      t.hwreg = { cycle := s.clks, dir := .write, index := ioIndex s rs rt,
                  value := s.reg rd } :: s.hwreg ∧
      t.ledsLog = (if ioIndex s rs rt = Io.leds
        then { cycle := s.clks, value := s.reg rd } :: s.ledsLog else s.ledsLog) ∧
      t.display7segLog = (if ioIndex s rs rt = Io.display7seg
        then { cycle := s.clks, value := s.reg rd } :: s.display7segLog else s.display7segLog) ∧
      s.SameOutside t nothing (fun k => k = ioIndex s rs rt) nothing nothing ∧ s.SameControl t

/-- R157: an `out` to `diskcmd` stores the value and, for 1 and 2 only, makes the disk BUSY; the transfer is deferred. That BUSY is 1 is
D14 (assumption 15). -/
def Obligations.OutStartsDiskCommand : Prop :=
  ∀ (rd rs rt : RegIx) (s : State), ioIndex s rs rt = Io.diskcmd →
    ∃ t, exec (.ioOut rd rs rt) s = .next t ∧
      t.ioReg Io.diskcmd = s.reg rd ∧
      t.ioReg Io.diskstatus =
        (if s.reg rd = 1 ∨ s.reg rd = 2 then 1 else s.ioReg Io.diskstatus) ∧
      t.hwreg = { cycle := s.clks, dir := .write, index := Io.diskcmd, value := s.reg rd } :: s.hwreg ∧
      s.SameOutside t nothing (fun k => k = Io.diskcmd ∨ k = Io.diskstatus) nothing nothing ∧
      t.ledsLog = s.ledsLog ∧ t.display7segLog = s.display7segLog ∧ s.SameControl t

/-- R34 to R36, R156: an `out` of 1 to `monitorcmd` writes the low 8 bits of `monitordata` to one pixel, and the register then reads 0; any
other value is stored and has no effect. The pixel index modulo 65536 is D19, the record's content D21 (assumptions 20
and 21). -/
def Obligations.OutMonitorCommandWritesPixel : Prop :=
  ∀ (rd rs rt : RegIx) (s : State), ioIndex s rs rt = Io.monitorcmd →
    Framebuffer.wf s.fb = true →
    ∃ t, exec (.ioOut rd rs rt) s = .next t ∧
      t.ioReg Io.monitorcmd = (if s.reg rd = 1 then 0 else s.reg rd) ∧
      (s.reg rd = 1 → (t.pixel ((s.ioReg Io.monitoraddr).toNat % 65536)).toNat =
        (s.ioReg Io.monitordata).toNat % 256) ∧
      t.hwreg =
        { cycle := s.clks, dir := .write, index := Io.monitorcmd, value := s.reg rd } :: s.hwreg ∧
      s.SameOutside t nothing (fun k => k = Io.monitorcmd) nothing
        (fun p => s.reg rd = 1 ∧ p = (s.ioReg Io.monitoraddr).toNat % 65536) ∧
      t.ledsLog = s.ledsLog ∧ t.display7segLog = s.display7segLog ∧ s.SameControl t

/-- R41, R43, R44: no instruction reads `in_isr`, `disk_acc` or `sched_cursor`: changing them before an instruction changes nothing
after it but them. -/
def Obligations.HiddenStateUnreadable : Prop :=
  ∀ (i : Instr) (s : State) (b : Bool) (n c : Nat), ∃ t t',
    exec i s = .next t ∧
    exec i { s with inIsr := b, diskAcc := n, schedCursor := c } = .next t' ∧
    t' = { t with inIsr := t'.inIsr, diskAcc := n, schedCursor := c } ∧
    (t'.inIsr = b ∨ ∃ rd rs rt, i = .reti rd rs rt)

/-! ### The step -/

/-- R90, R93 to R96, R100, R175: a step runs the instruction at `pc` in the prepared state, and then the peripheral phase: the injector,
the disk, the timer and the interrupt test, in that order. That the phase runs after `halt` too is D18 (assumption 19). -/
def Obligations.StepRunsDecodedInstruction : Prop :=
  ∀ (s : State) (i : Instr), s.Running → s.pc.toNat + i.length ≤ 4096 →
    decodeWord s.wordAtPc = some i →
    ∃ t, exec i (s.prepared i) = .next t ∧
      step s = .next t.injectScheduled.diskProgress.timerProgress.interruptAssert

/-- R16, R172: a fetch outside memory raises `PcOutOfRange` and changes nothing else. The trap is the spec's decision D3, the recorded
fault D9 (assumptions 2 and 9). -/
def Obligations.FetchOutsideMemoryFaults : Prop :=
  ∀ s : State, s.Running →
    (4096 ≤ s.pc.toNat ∨
      (s.pc.toNat = 4095 ∧ ∃ i, decodeWord s.wordAtPc = some i ∧ i.immMode = true)) →
    step s = .next { s with fault := some (.pcOutOfRange s.pc) }

/-- R77, R171: an opcode of 22..255 raises `IllegalOpcode` and changes nothing else. The recorded fault is the spec's decision D9
(assumption 9). -/
def Obligations.IllegalOpcodeFaults : Prop :=
  ∀ s : State, s.Running → s.pc.toNat < 4096 → 22 ≤ s.wordAtPc.toNat / 4096 →
    step s = .next { s with fault := some (.illegalOpcode s.pc.toNat s.wordAtPc) }

/-- R42: `halted` is set by `halt` and by nothing else, is never cleared, and stops the machine; it is 0 at reset. -/
def Obligations.HaltedSetOnlyByHalt : Prop :=
  (∀ (s t : State) (f : Fetched), s.Executes f → step s = .next t →
    (t.halted = true ↔ ∃ rd rs rt, f.insn.instr = .halt rd rs rt)) ∧
  (∀ s t : State, step s = .next t → t.fault ≠ none → t.halted = false) ∧
  (∀ s t : State, s.halted = true → step s ≠ .next t) ∧
  State.reset.halted = false

/-- R45, R170: in a faulted state no step is taken, and a faulted state reached by a step is not final. The recorded fault is the
spec's decision D9 (assumption 9); that `step` answers it is assumption 9. -/
def Obligations.FaultedMachineTakesNoStep : Prop :=
  (∀ (s : State) (f : MachineFault), s.halted = false → s.fault = some f →
    step s = .fault (.faulted f)) ∧
  (∀ s t : State, step s = .next t → t.fault ≠ none → ¬ t.Final)

/-- R101: apart from the two faults of the fetch nothing fails, because every index is reduced: data addresses modulo 4096, I/O indices
modulo 23, sector numbers modulo 128, pixel indices modulo 65536. The recorded fault is D9, the non-negative remainder D11,
the reductions of the disk and monitor registers D15 and D19 (assumptions 9, 12, 16 and 20). -/
def Obligations.NoOtherRuntimeFailure : Prop :=
  (∀ s : State, s.Running → ∃ t, step s = .next t ∧
    (t.fault = none ∨ t.fault = some (.pcOutOfRange s.pc) ∨
      t.fault = some (.illegalOpcode s.pc.toNat s.wordAtPc)) ∧
    ((∃ f, s.fetch = .ok f) → t.fault = none)) ∧
  (∀ (s : State) (rs rt : RegIx),
    (effectiveAddress s rs rt : Int) = (s.reg rs + s.reg rt).toInt % 4096 ∧
    ((ioIndex s rs rt).val : Int) = (s.reg rs + s.reg rt).toInt % 23) ∧
  (∀ s : State, (s.transferSector : Int) = (s.ioReg Io.disksector).toInt % 128) ∧
  (∀ (s : State) (i : Nat),
    (s.transferAddress i : Int) = ((s.ioReg Io.diskbuffer).toInt + i) % 4096) ∧
  (∀ (s : State) (p : Nat), Framebuffer.wf s.fb = true → s.pixelWrite.pixel p ≠ s.pixel p →
    (p : Int) = (s.ioReg Io.monitoraddr).toInt % 65536)

/-- R23, R99: the cost of a step, by instruction and immediate mode, is what it adds to `clks`, modulo 2^32 (D4, assumption 3), unless the
instruction is an `out` to `clks` itself, which overwrites it (D10, assumption 11). -/
def Obligations.StepCostIsTheTable : Prop :=
  ∀ (s t : State) (f : Fetched), s.Executes f → step s = .next t →
    ((∃ rd rs rt, f.insn.instr = .lw rd rs rt ∨ f.insn.instr = .sw rd rs rt) →
      t.cost = if f.insn.instr.immMode then 3 else 2) ∧
    ((∀ rd rs rt, f.insn.instr ≠ .lw rd rs rt ∧ f.insn.instr ≠ .sw rd rs rt) →
      t.cost = if f.insn.instr.immMode then 2 else 1) ∧
    ((∀ rd rs rt, f.insn.instr = .ioOut rd rs rt → ioIndex (s.beginInsn f) rs rt ≠ Io.clks) →
      t.clks = s.clks + BitVec.ofNat 32 t.cost)

/-- R94: one trace record per step: the fetched `pc`, the raw word, and the registers after the immediate load and before the opcode. -/
def Obligations.TraceRecordPerStep : Prop :=
  ∀ (s t : State) (f : Fetched), s.Executes f → step s = .next t →
    ∃ r, t.trace = r :: s.trace ∧ r.addr = s.pc.toNat ∧ r.word = s.wordAtPc ∧
      ∀ i : RegIx, r.regs[i.toNat]'i.isLt =
        if i = 1 ∧ f.insn.instr.immMode = true then sext20 (s.memWord (s.pc.toNat + 1)) else s.reg i

/-! ### The peripheral phase -/

/-- R181: the injector sets `irq2status` and consumes one entry when the next entry has been reached, and changes nothing else; otherwise it
does nothing. The signed comparison is D22, that the status becomes 1 is D16 (assumptions 17 and 22). -/
def Obligations.InjectorConsumesOneEntry : Prop :=
  (∀ (s : State) (t : Int), s.irq2Schedule[s.schedCursor]? = some t → t ≤ s32 s.clks →
    s.injectScheduled.ioReg Io.irq2status = 1 ∧
    s.injectScheduled.schedCursor = s.schedCursor + 1 ∧
    (∀ k, k ≠ Io.irq2status → s.injectScheduled.ioReg k = s.ioReg k) ∧
    s.injectScheduled =
      { s with io := s.injectScheduled.io, schedCursor := s.injectScheduled.schedCursor }) ∧
  (∀ (s : State) (t : Int), s.irq2Schedule[s.schedCursor]? = some t → s32 s.clks < t →
    s.injectScheduled = s) ∧
  (∀ s : State, s.irq2Schedule.length ≤ s.schedCursor → s.injectScheduled = s)

/-- R44, R181: `sched_cursor` starts at 0 (D12, assumption 13), stays within the schedule, increases by at most one per step, and no
instruction reads or writes it. -/
def Obligations.ScheduleCursorOnlyAdvances : Prop :=
  State.reset.schedCursor = 0 ∧
  (∀ s t : State, step s = .next t →
    (t.schedCursor = s.schedCursor ∨ t.schedCursor = s.schedCursor + 1) ∧
    (s.schedCursor ≤ s.irq2Schedule.length → t.schedCursor ≤ t.irq2Schedule.length)) ∧
  (∀ (i : Instr) (s : State) (c : Nat), ∃ t, exec i s = .next t ∧
    exec i { s with schedCursor := c } = .next { t with schedCursor := c })

/-- R195, R196: an enabled timer adds the cost, and on reaching `timermax` returns to 0 and sets `irq0status`; no other I/O register and
nothing else of the state changes. The nesting, "set" and the signed comparison are D17, the set status bit as 1 is D16 (assumptions 17
and 18). -/
def Obligations.TimerCountsAndExpires : Prop :=
  ∀ s : State,
    let count := s.ioReg Io.timercurrent + BitVec.ofNat 32 s.cost
    (s.ioReg Io.timerenable = 0 → s.timerProgress = s) ∧
    (s.ioReg Io.timerenable ≠ 0 → count.slt (s.ioReg Io.timermax) = true →
      s.timerProgress.ioReg Io.timercurrent = count ∧
      ∀ k, k ≠ Io.timercurrent → s.timerProgress.ioReg k = s.ioReg k) ∧
    (s.ioReg Io.timerenable ≠ 0 → (s.ioReg Io.timermax).sle count = true →
      s.timerProgress.ioReg Io.timercurrent = 0 ∧ s.timerProgress.ioReg Io.irq0status = 1 ∧
      ∀ k, k ≠ Io.timercurrent → k ≠ Io.irq0status → s.timerProgress.ioReg k = s.ioReg k) ∧
    s.timerProgress = { s with io := s.timerProgress.io }

/-- R201 to R207: while the disk is BUSY each step adds its cost to the accumulator; the transfer completes in the first step that reaches
the latency, moving the words that `completeTransfer` moves from the state the instruction left, and in none before; a disk that is not BUSY
is left alone. Apart from that the phase writes only what the injector, the timer and interrupt entry write (R175): no general register, no
pixel, no stream, no other I/O register, and `pc` and `irqreturn` only on entry. FREE, BUSY and "none" as 0, 1, 0 are D14, the set status bit
as 1 is D16; that the registers are read at completion, that an `out` to `diskcmd` while BUSY does not restart the accumulator and that any
command completes are D15 (assumptions 15 to 17). -/
def Obligations.DiskCompletesAtLatencyBoundary : Prop :=
  ∀ (s t u : State) (f : Fetched), s.Executes f → step s = .next t →
    exec f.insn.instr (s.beginInsn f) = .next u →
    (u.ioReg Io.diskstatus ≠ 1 →
      t.ioReg Io.diskstatus = u.ioReg Io.diskstatus ∧ t.diskAcc = s.diskAcc ∧ t.mem = u.mem ∧
      t.disk = s.disk ∧ t.ioReg Io.diskcmd = u.ioReg Io.diskcmd ∧
      t.ioReg Io.irq1status = u.ioReg Io.irq1status) ∧
    (u.ioReg Io.diskstatus = 1 → s.diskAcc + t.cost < s.diskLatency →
      t.ioReg Io.diskstatus = 1 ∧ t.diskAcc = s.diskAcc + t.cost ∧ t.mem = u.mem ∧
      t.disk = s.disk ∧ t.ioReg Io.diskcmd = u.ioReg Io.diskcmd ∧
      t.ioReg Io.irq1status = u.ioReg Io.irq1status) ∧
    (u.ioReg Io.diskstatus = 1 → s.diskLatency ≤ s.diskAcc + t.cost →
      t.ioReg Io.diskstatus = 0 ∧ t.diskAcc = 0 ∧ t.ioReg Io.diskcmd = 0 ∧
      t.ioReg Io.irq1status = 1 ∧
      t.mem = u.completeTransfer.mem ∧ t.disk = u.completeTransfer.disk) ∧
    (∀ k, k ∉ [Io.irq0status, Io.irq1status, Io.irq2status, Io.irqreturn, Io.timercurrent,
        Io.diskcmd, Io.diskstatus] → t.ioReg k = u.ioReg k) ∧
    (t.inIsr = u.inIsr → t.pc = u.pc ∧ t.ioReg Io.irqreturn = u.ioReg Io.irqreturn) ∧
    t = { u with pc := t.pc, io := t.io, mem := t.mem, disk := t.disk, inIsr := t.inIsr,
                 diskAcc := t.diskAcc, schedCursor := t.schedCursor }

/-- R203, R204: completing a read command copies the sector's 128 words to the buffer, wrapping at the end of memory, sets the four
elements of R204 and changes nothing else. The wrap-arounds and the sampling at completion are D15, the values the registers end with D14 and D16 (assumptions 15 to 17). -/
def Obligations.DiskReadTransferCopiesSector : Prop :=
  ∀ s : State, Memory.wf s.mem = true → s.ioReg Io.diskcmd = 1 →
    let address (i : Nat) : Nat := ((s.ioReg Io.diskbuffer).toNat + i) % 4096
    let index (i : Nat) : Nat := 128 * ((s.ioReg Io.disksector).toNat % 128) + i
    (∀ i, i < 128 → s.completeTransfer.memWord (address i) = s.diskWord (index i)) ∧
    (∀ a, (∀ i, i < 128 → a ≠ address i) → s.completeTransfer.memWord a = s.memWord a) ∧
    s.completeTransfer.disk = s.disk ∧ s.completeTransfer.diskAcc = 0 ∧
    s.completeTransfer.ioReg Io.irq1status = 1 ∧ s.completeTransfer.ioReg Io.diskcmd = 0 ∧
    s.completeTransfer.ioReg Io.diskstatus = 0 ∧
    (∀ k, k ≠ Io.irq1status → k ≠ Io.diskcmd → k ≠ Io.diskstatus →
      s.completeTransfer.ioReg k = s.ioReg k) ∧
    s.completeTransfer =
      { s with mem := s.completeTransfer.mem, io := s.completeTransfer.io, diskAcc := 0 }

/-- R203, R204, R207: completing a write command copies the 128 buffer words to the sector and changes no other disk word; any other
command moves nothing; beside that only the four elements of R204 change. The wrap-arounds are D15, the values the registers end with D14 and D16 (assumptions 15 to 17). -/
def Obligations.DiskWriteTransferCopiesSector : Prop :=
  ∀ s : State, Disk.wf s.disk = true → s.ioReg Io.diskcmd ≠ 1 →
    let address (i : Nat) : Nat := ((s.ioReg Io.diskbuffer).toNat + i) % 4096
    let index (i : Nat) : Nat := 128 * ((s.ioReg Io.disksector).toNat % 128) + i
    (s.ioReg Io.diskcmd = 2 →
      (∀ i, i < 128 → s.completeTransfer.diskWord (index i) = s.memWord (address i)) ∧
      (∀ d, (∀ i, i < 128 → d ≠ index i) → s.completeTransfer.diskWord d = s.diskWord d)) ∧
    (s.ioReg Io.diskcmd ≠ 2 → s.completeTransfer.disk = s.disk) ∧
    s.completeTransfer.mem = s.mem ∧ s.completeTransfer.diskAcc = 0 ∧
    s.completeTransfer.ioReg Io.irq1status = 1 ∧ s.completeTransfer.ioReg Io.diskcmd = 0 ∧
    s.completeTransfer.ioReg Io.diskstatus = 0 ∧
    (∀ k, k ≠ Io.irq1status → k ≠ Io.diskcmd → k ≠ Io.diskstatus →
      s.completeTransfer.ioReg k = s.ioReg k) ∧
    s.completeTransfer =
      { s with disk := s.completeTransfer.disk, io := s.completeTransfer.io, diskAcc := 0 }

/-- R187: an interrupt is taken exactly when the machine is outside a service routine and some bit is set both in a line's enable and in its
status, over the full 32 bits. -/
def Obligations.InterruptTestIsBitwise : Prop :=
  ∀ s : State, takeCondition s = true ↔
    s.inIsr = false ∧ ∃ b, b < 32 ∧
      ((s.ioReg Io.irq0enable).getLsbD b = true ∧ (s.ioReg Io.irq0status).getLsbD b = true ∨
        (s.ioReg Io.irq1enable).getLsbD b = true ∧ (s.ioReg Io.irq1status).getLsbD b = true ∨
        (s.ioReg Io.irq2enable).getLsbD b = true ∧ (s.ioReg Io.irq2status).getLsbD b = true)

/-- R189: interrupt entry saves `pc` into `irqreturn`, loads it from `irqhandler`, sets `in_isr`, and saves or changes nothing else. -/
def Obligations.InterruptEntrySavesPc : Prop :=
  ∀ s : State,
    (takeCondition s = true →
      s.interruptAssert.ioReg Io.irqreturn = s.pc ∧
      s.interruptAssert.pc = s.ioReg Io.irqhandler ∧
      s.interruptAssert.inIsr = true ∧
      s.SameOutside s.interruptAssert nothing (fun k => k = Io.irqreturn) nothing nothing ∧
      s.SameStreams s.interruptAssert ∧ s.interruptAssert.halted = s.halted ∧
      s.interruptAssert.cost = s.cost ∧ s.interruptAssert.draws = s.draws) ∧
    (takeCondition s = false → s.interruptAssert = s)

/-- R192: inside a service routine, until `reti`, no interrupt is entered, whatever the enables and statuses: `pc` and `irqreturn` are as the
instruction left them. -/
def Obligations.NoNestedInterruptEntry : Prop :=
  ∀ (s t u : State) (f : Fetched), s.Executes f → s.inIsr = true → step s = .next t →
    (∀ rd rs rt, f.insn.instr ≠ .reti rd rs rt) →
    exec f.insn.instr (s.beginInsn f) = .next u →
    t.inIsr = true ∧ t.pc = u.pc ∧ t.ioReg Io.irqreturn = u.ioReg Io.irqreturn

/-- R191: service-routine mode is left only by executing `reti`. -/
def Obligations.ServiceModeLeftOnlyByReti : Prop :=
  ∀ s t : State, step s = .next t → s.inIsr = true → t.inIsr = false →
    ∃ f rd rs rt, s.fetch = .ok f ∧ f.insn.instr = .reti rd rs rt ∧ t.pc = s.ioReg Io.irqreturn

/-- R151, R191: the phase that ends a `reti` step enters the handler again when some line is pending and enabled at its interrupt test,
saving the restored `pc`. The lines are read in the state after the step, since the test is last and entry writes no enable and no status; a
line with bit 0 pending and enabled before the step is one of them, since no controller clears that bit. -/
def Obligations.PendingInterruptReentersAfterReti : Prop :=
  ∀ (s t : State) (f : Fetched) (rd rs rt : RegIx), s.Executes f → step s = .next t →
    f.insn.instr = .reti rd rs rt →
    ((t.ioReg Io.irq0enable &&& t.ioReg Io.irq0status ≠ 0 ∨
      t.ioReg Io.irq1enable &&& t.ioReg Io.irq1status ≠ 0 ∨
      t.ioReg Io.irq2enable &&& t.ioReg Io.irq2status ≠ 0) ∨
      ((s.ioReg Io.irq0enable).getLsbD 0 = true ∧ (s.ioReg Io.irq0status).getLsbD 0 = true ∨
        (s.ioReg Io.irq1enable).getLsbD 0 = true ∧ (s.ioReg Io.irq1status).getLsbD 0 = true ∨
        (s.ioReg Io.irq2enable).getLsbD 0 = true ∧ (s.ioReg Io.irq2status).getLsbD 0 = true)) →
    t.inIsr = true ∧ t.pc = s.ioReg Io.irqhandler ∧ t.ioReg Io.irqreturn = s.ioReg Io.irqreturn

/-- R20, R178: a step that executes no `out` leaves each status register as it was or sets it to 1; nothing in hardware clears it. That
setting writes 1 is D16 (assumption 17). -/
def Obligations.StatusRegistersOnlySetByHardware : Prop :=
  ∀ s t : State, step s = .next t →
    (∀ f rd rs rt, s.fetch = .ok f → f.insn.instr ≠ .ioOut rd rs rt) →
    ∀ k ∈ [Io.irq0status, Io.irq1status, Io.irq2status], t.ioReg k = s.ioReg k ∨ t.ioReg k = 1

/-- R18: the registers of whose rows the table says that hardware does not write them change only by `out`; `monitorcmd` is cleared only by
the `out` that writes it. That no hardware writes `reserved18` and `reserved19` is D19 (R33, assumption 20). -/
def Obligations.SoftwareRegistersKeptByHardware : Prop :=
  ∀ s t : State, step s = .next t →
    (∀ f rd rs rt, s.fetch = .ok f → f.insn.instr ≠ .ioOut rd rs rt) →
    ∀ k ∈ [Io.irq0enable, Io.irq1enable, Io.irq2enable, Io.irqhandler, Io.leds, Io.display7seg,
        Io.timerenable, Io.timermax, Io.disksector, Io.diskbuffer, Io.reserved18, Io.reserved19,
        Io.monitoraddr, Io.monitordata, Io.monitorcmd],
      t.ioReg k = s.ioReg k

/-- R37: a step changes a memory word only by `sw` at its effective address, or by a read transfer that completes in it, inside the 128-word
buffer: after the instruction the disk is BUSY with command 1, and the step's cost brings the accumulator to the latency. The wrap-around of
the buffer is D15, BUSY as 1 is D14 (assumptions 15 and 16). -/
def Obligations.MemoryChangedOnlyByStoreOrDisk : Prop :=
  ∀ (s t : State) (a : Nat), Memory.wf s.mem = true → step s = .next t →
    t.memWord a ≠ s.memWord a →
    ∃ f u, s.fetch = .ok f ∧ exec f.insn.instr (s.beginInsn f) = .next u ∧
      ((∃ rd rs rt, f.insn.instr = .sw rd rs rt ∧ a = effectiveAddress (s.beginInsn f) rs rt) ∨
        (u.ioReg Io.diskstatus = 1 ∧ u.ioReg Io.diskcmd = 1 ∧
          s.diskLatency ≤ s.diskAcc + t.cost ∧
          ∃ i, i < 128 ∧ a = ((u.ioReg Io.diskbuffer).toNat + i) % 4096))

/-- R38, R39: a step changes a pixel only by an `out` of 1 to `monitorcmd`, at the pixel `monitoraddr` names, and a disk word only by a write
transfer that completes in it, inside the sector `disksector` names: after the instruction the disk is BUSY with command 2, and the step's cost
brings the accumulator to the latency. The reductions are D19 and D15, BUSY as 1 is D14 (assumptions 15, 16 and 20). -/
def Obligations.DeviceStorageChangedOnlyByCommand : Prop :=
  (∀ (s t : State) (p : Nat), Framebuffer.wf s.fb = true → step s = .next t →
    t.pixel p ≠ s.pixel p →
    ∃ f rd rs rt, s.fetch = .ok f ∧ f.insn.instr = .ioOut rd rs rt ∧
      ioIndex (s.beginInsn f) rs rt = Io.monitorcmd ∧ (s.beginInsn f).reg rd = 1 ∧
      p = (s.ioReg Io.monitoraddr).toNat % 65536) ∧
  (∀ (s t : State) (d : Nat), Disk.wf s.disk = true → step s = .next t →
    t.diskWord d ≠ s.diskWord d →
    ∃ f u, s.fetch = .ok f ∧ exec f.insn.instr (s.beginInsn f) = .next u ∧
      u.ioReg Io.diskstatus = 1 ∧ u.ioReg Io.diskcmd = 2 ∧
      s.diskLatency ≤ s.diskAcc + t.cost ∧
      ∃ i, i < 128 ∧ d = 128 * ((u.ioReg Io.disksector).toNat % 128) + i)

/-! ### Reset, the invariant, and what is never observed -/

/-- R47: the value of every element after reset, with empty images. The registers, `pc`, `clks`, memory, the disk, `halted` and `disk_acc`
have a basis in the source, `fault` is D9, the rest (and `pc` beside its example) is the spec's decision D12 (assumptions 9 and 13); the
empty images are assumption 25, the streams 28, the latency 14. -/
def Obligations.ResetStateValues : Prop :=
  (∀ r, State.reset.reg r = 0) ∧ State.reset.pc = 0 ∧ (∀ k, State.reset.ioReg k = 0) ∧
  (∀ a, State.reset.memWord a = 0) ∧ (∀ d, State.reset.diskWord d = 0) ∧
  (∀ p, State.reset.pixel p = 0) ∧ State.reset.inIsr = false ∧ State.reset.halted = false ∧
  State.reset.diskAcc = 0 ∧ State.reset.schedCursor = 0 ∧ State.reset.fault = none ∧
  State.reset.trace = [] ∧ State.reset.hwreg = [] ∧ State.reset.ledsLog = [] ∧
  State.reset.display7segLog = [] ∧ 1 ≤ State.reset.diskLatency

/-- R11, R37 to R39, R43, R44: the invariant holds at reset. That the framebuffer is empty and the cursor 0 there is D12, the empty images and
schedule are assumption 25, the positive latency assumption 14 (D12 is assumption 13). -/
def Obligations.InvariantAtReset : Prop := State.reset.Inv

/-- R11, R37 to R39, R43, R44: from every state with the invariant, every step leads to a state with it: register 0 reads 0, the three stores
stay canonical and within their depth, `disk_acc` stays below the latency, the cursor within the schedule, and the two stops stay
apart. -/
def Obligations.StepKeepsInvariant : Prop :=
  ∀ s t : State, s.Inv → step s = .next t → t.Inv

/-- R47, R58: a run with well-formed inputs loads, each line of an image stands at its own address with 0 beyond the last line, and the
invariant holds. That the framebuffer and the I/O registers other than `clks` start at 0 is the spec's decision D12 (assumption 13); that
ill-formed inputs are refused is assumption 30. -/
def Obligations.LoadedRunStartsFromImages : Prop :=
  ∀ inp : RunInputs, inp.wf = true → ∃ s, State.load inp = some s ∧ s.Inv ∧
    (∀ a, s.memWord a = inp.memImage.getD a 0) ∧ (∀ d, s.diskWord d = inp.diskImage.getD d 0) ∧
    s.irq2Schedule = inp.irq2Schedule ∧ s.diskLatency = inp.diskLatency ∧
    s.x = State.reset.x ∧ s.pc = 0 ∧ s.io = State.reset.io ∧ s.fb = [] ∧ s.Running

/-- R12: what register 1 holds between two steps is never read: states that differ at most in it and in its column of the trace step to such
states. -/
def Obligations.ImmediateRegisterNeverObserved : Prop :=
  ∀ s s' t : State, s.AgreeButImm s' → step s = .next t →
    ∃ t', step s' = .next t' ∧ t.AgreeButImm t'

/-- The head of `10_state.md`, R233 to R236: the observation streams are written and never read, and only appended to. -/
def Obligations.StreamsAreNeverRead : Prop :=
  ∀ s s' t : State, s.withoutStreams = s'.withoutStreams → step s = .next t →
    ∃ t', step s' = .next t' ∧ t.withoutStreams = t'.withoutStreams ∧
      (∃ new, t.trace = new ++ s.trace ∧ t'.trace = new ++ s'.trace) ∧
      (∃ new, t.hwreg = new ++ s.hwreg ∧ t'.hwreg = new ++ s'.hwreg) ∧
      (∃ new, t.ledsLog = new ++ s.ledsLog ∧ t'.ledsLog = new ++ s'.ledsLog) ∧
      (∃ new, t.display7segLog = new ++ s.display7segLog ∧
        t'.display7segLog = new ++ s'.display7segLog)

/-- R179, R223, R224: the schedule is fixed for the run, and the latency is a constant of the machine. That both are fields of State, which
no step changes, is the model's choice (assumption 24). -/
def Obligations.RunInputsNeverChange : Prop :=
  ∀ s t : State, step s = .next t →
    t.irq2Schedule = s.irq2Schedule ∧ t.diskLatency = s.diskLatency

/-- R43: `disk_acc` is 0 whenever the disk is not BUSY, as long as no `out` to `diskstatus` is executed (R208). -/
def Obligations.DiskAccumulatorZeroWhenIdle : Prop :=
  (State.reset.ioReg Io.diskstatus ≠ 1 → State.reset.diskAcc = 0) ∧
  ∀ s t : State, (s.ioReg Io.diskstatus ≠ 1 → s.diskAcc = 0) → step s = .next t →
    (∀ f rd rs rt, s.fetch = .ok f → f.insn.instr = .ioOut rd rs rt →
      ioIndex (s.beginInsn f) rs rt ≠ Io.diskstatus) →
    (t.ioReg Io.diskstatus ≠ 1 → t.diskAcc = 0)
end

