-- ==== Sys2Proof/Laws/Decode.lean ====
section
/-! SUPPORT. Everything the decoder of word sequences can answer (`spec/30_encoding.md` rules R73, R77, R80, R81). -/

namespace Sys2Proof

/-- The fields of the word `op * 2^12 + rd * 2^8 + rs * 2^4 + rt` (R71). -/
theorem fields_of_sum (op : BitVec 8) (rd rs rt : RegIx) :
    let w : Word := BitVec.ofNat 20
      (op.toNat * 2 ^ 12 + rd.toNat * 2 ^ 8 + rs.toNat * 2 ^ 4 + rt.toNat)
    opcodeField w = op ∧ rdField w = rd ∧ rsField w = rs ∧ rtField w = rt := by
  have h0 := op.isLt
  have h1 := rd.isLt
  have h2 := rs.isLt
  have h3 := rt.isLt
  refine ⟨?_, ?_, ?_, ?_⟩ <;> apply BitVec.eq_of_toNat_eq <;>
    simp only [opcodeField, rdField, rsField, rtField, BitVec.extractLsb'_toNat, BitVec.toNat_ofNat,
      Nat.shiftRight_eq_div_pow] <;> omega

/-- The opcode field as a number: the word divided by 2^12 (R71). -/
theorem opcodeField_toNat (w : Word) : (opcodeField w).toNat = w.toNat / 4096 := by
  have := w.isLt
  simp only [opcodeField, BitVec.extractLsb'_toNat, Nat.shiftRight_eq_div_pow]
  omega

/-- Everything decoding a non-empty sequence can answer. -/
theorem decode_cons_cases (w : Word) (rest : List Word) :
    (decodeWord w = none ∧ decode (w :: rest) = .illegalOpcode w) ∨
    (∃ i, decodeWord w = some i ∧ i.immMode = false ∧
      decode (w :: rest) = .ok { instr := i, imm := none } rest) ∨
    (∃ i m rest', decodeWord w = some i ∧ i.immMode = true ∧ rest = m :: rest' ∧
      decode (w :: rest) = .ok { instr := i, imm := some m } rest') ∨
    (∃ i, decodeWord w = some i ∧ i.immMode = true ∧ rest = [] ∧
      decode (w :: rest) = .missingImmediate i) := by
  unfold decode
  cases hw : decodeWord w with
  | none => exact .inl ⟨rfl, by simp [hw]⟩
  | some i =>
    refine .inr ?_
    cases hi : i.immMode with
    | false => exact .inl ⟨i, rfl, hi, by simp [hw, hi]⟩
    | true =>
      cases rest with
      | nil => exact .inr (.inr ⟨i, rfl, hi, rfl, by simp [hw, hi]⟩)
      | cons m rest' => exact .inr (.inl ⟨i, m, rest', rfl, hi, rfl, by simp [hw, hi]⟩)

/-- A sequence with a first word is never reported empty. -/
theorem decode_cons_ne_noWord (w : Word) (rest : List Word) : decode (w :: rest) ≠ .noWord := by
  rcases decode_cons_cases w rest with h | ⟨i, h⟩ | ⟨i, m, r, h⟩ | ⟨i, h⟩
  · rw [h.2]; exact DecodeResult.noConfusion
  · rw [h.2.2]; exact DecodeResult.noConfusion
  · rw [h.2.2.2]; exact DecodeResult.noConfusion
  · rw [h.2.2.2]; exact DecodeResult.noConfusion

end Sys2Proof
end

