-- ==== Sys2Proof/Laws/State.lean ====
section
/-! SUPPORT. One lemma per field per update of the state, so that no proof unfolds a record update. The indexed
reads `reg`, `ioReg`, `memWord`, `diskWord` and `pixel` count as fields. -/

namespace Sys2Proof.Machine

variable (s : State)

@[simp] theorem State.setReg_pc (i₀ : RegIx) (v : RegVal) : (s.setReg i₀ v).pc = s.pc := rfl
@[simp] theorem State.setReg_io (i₀ : RegIx) (v : RegVal) : (s.setReg i₀ v).io = s.io := rfl
@[simp] theorem State.setReg_mem (i₀ : RegIx) (v : RegVal) : (s.setReg i₀ v).mem = s.mem := rfl
@[simp] theorem State.setReg_disk (i₀ : RegIx) (v : RegVal) : (s.setReg i₀ v).disk = s.disk := rfl
@[simp] theorem State.setReg_fb (i₀ : RegIx) (v : RegVal) : (s.setReg i₀ v).fb = s.fb := rfl
@[simp] theorem State.setReg_inIsr (i₀ : RegIx) (v : RegVal) : (s.setReg i₀ v).inIsr = s.inIsr := rfl
@[simp] theorem State.setReg_halted (i₀ : RegIx) (v : RegVal) : (s.setReg i₀ v).halted = s.halted := rfl
@[simp] theorem State.setReg_diskAcc (i₀ : RegIx) (v : RegVal) : (s.setReg i₀ v).diskAcc = s.diskAcc := rfl
@[simp] theorem State.setReg_schedCursor (i₀ : RegIx) (v : RegVal) : (s.setReg i₀ v).schedCursor = s.schedCursor := rfl
@[simp] theorem State.setReg_fault (i₀ : RegIx) (v : RegVal) : (s.setReg i₀ v).fault = s.fault := rfl
@[simp] theorem State.setReg_trace (i₀ : RegIx) (v : RegVal) : (s.setReg i₀ v).trace = s.trace := rfl
@[simp] theorem State.setReg_hwreg (i₀ : RegIx) (v : RegVal) : (s.setReg i₀ v).hwreg = s.hwreg := rfl
@[simp] theorem State.setReg_ledsLog (i₀ : RegIx) (v : RegVal) : (s.setReg i₀ v).ledsLog = s.ledsLog := rfl
@[simp] theorem State.setReg_display7segLog (i₀ : RegIx) (v : RegVal) : (s.setReg i₀ v).display7segLog = s.display7segLog := rfl
@[simp] theorem State.setReg_irq2Schedule (i₀ : RegIx) (v : RegVal) : (s.setReg i₀ v).irq2Schedule = s.irq2Schedule := rfl
@[simp] theorem State.setReg_diskLatency (i₀ : RegIx) (v : RegVal) : (s.setReg i₀ v).diskLatency = s.diskLatency := rfl
@[simp] theorem State.setReg_cost (i₀ : RegIx) (v : RegVal) : (s.setReg i₀ v).cost = s.cost := rfl
@[simp] theorem State.setReg_draws (i₀ : RegIx) (v : RegVal) : (s.setReg i₀ v).draws = s.draws := rfl
@[simp] theorem State.setReg_ioReg (i₀ : RegIx) (v : RegVal) (k' : IoIx) : (s.setReg i₀ v).ioReg k' = s.ioReg k' := rfl
@[simp] theorem State.setReg_memWord (i₀ : RegIx) (v : RegVal) (a' : Nat) : (s.setReg i₀ v).memWord a' = s.memWord a' := rfl
@[simp] theorem State.setReg_diskWord (i₀ : RegIx) (v : RegVal) (d' : Nat) : (s.setReg i₀ v).diskWord d' = s.diskWord d' := rfl
@[simp] theorem State.setReg_pixel (i₀ : RegIx) (v : RegVal) (p' : Nat) : (s.setReg i₀ v).pixel p' = s.pixel p' := rfl
@[simp] theorem State.setReg_clks (i₀ : RegIx) (v : RegVal) : (s.setReg i₀ v).clks = s.clks := rfl

@[simp] theorem State.setIo_x (k : IoIx) (v : RegVal) : (s.setIo k v).x = s.x := rfl
@[simp] theorem State.setIo_pc (k : IoIx) (v : RegVal) : (s.setIo k v).pc = s.pc := rfl
@[simp] theorem State.setIo_mem (k : IoIx) (v : RegVal) : (s.setIo k v).mem = s.mem := rfl
@[simp] theorem State.setIo_disk (k : IoIx) (v : RegVal) : (s.setIo k v).disk = s.disk := rfl
@[simp] theorem State.setIo_fb (k : IoIx) (v : RegVal) : (s.setIo k v).fb = s.fb := rfl
@[simp] theorem State.setIo_inIsr (k : IoIx) (v : RegVal) : (s.setIo k v).inIsr = s.inIsr := rfl
@[simp] theorem State.setIo_halted (k : IoIx) (v : RegVal) : (s.setIo k v).halted = s.halted := rfl
@[simp] theorem State.setIo_diskAcc (k : IoIx) (v : RegVal) : (s.setIo k v).diskAcc = s.diskAcc := rfl
@[simp] theorem State.setIo_schedCursor (k : IoIx) (v : RegVal) : (s.setIo k v).schedCursor = s.schedCursor := rfl
@[simp] theorem State.setIo_fault (k : IoIx) (v : RegVal) : (s.setIo k v).fault = s.fault := rfl
@[simp] theorem State.setIo_trace (k : IoIx) (v : RegVal) : (s.setIo k v).trace = s.trace := rfl
@[simp] theorem State.setIo_hwreg (k : IoIx) (v : RegVal) : (s.setIo k v).hwreg = s.hwreg := rfl
@[simp] theorem State.setIo_ledsLog (k : IoIx) (v : RegVal) : (s.setIo k v).ledsLog = s.ledsLog := rfl
@[simp] theorem State.setIo_display7segLog (k : IoIx) (v : RegVal) : (s.setIo k v).display7segLog = s.display7segLog := rfl
@[simp] theorem State.setIo_irq2Schedule (k : IoIx) (v : RegVal) : (s.setIo k v).irq2Schedule = s.irq2Schedule := rfl
@[simp] theorem State.setIo_diskLatency (k : IoIx) (v : RegVal) : (s.setIo k v).diskLatency = s.diskLatency := rfl
@[simp] theorem State.setIo_cost (k : IoIx) (v : RegVal) : (s.setIo k v).cost = s.cost := rfl
@[simp] theorem State.setIo_draws (k : IoIx) (v : RegVal) : (s.setIo k v).draws = s.draws := rfl
@[simp] theorem State.setIo_reg (k : IoIx) (v : RegVal) (i : RegIx) : (s.setIo k v).reg i = s.reg i := rfl
@[simp] theorem State.setIo_memWord (k : IoIx) (v : RegVal) (a' : Nat) : (s.setIo k v).memWord a' = s.memWord a' := rfl
@[simp] theorem State.setIo_diskWord (k : IoIx) (v : RegVal) (d' : Nat) : (s.setIo k v).diskWord d' = s.diskWord d' := rfl
@[simp] theorem State.setIo_pixel (k : IoIx) (v : RegVal) (p' : Nat) : (s.setIo k v).pixel p' = s.pixel p' := rfl

@[simp] theorem State.setPc_x (t : RegVal) : (s.setPc t).x = s.x := rfl
@[simp] theorem State.setPc_pc (t : RegVal) : (s.setPc t).pc = t := rfl
@[simp] theorem State.setPc_io (t : RegVal) : (s.setPc t).io = s.io := rfl
@[simp] theorem State.setPc_mem (t : RegVal) : (s.setPc t).mem = s.mem := rfl
@[simp] theorem State.setPc_disk (t : RegVal) : (s.setPc t).disk = s.disk := rfl
@[simp] theorem State.setPc_fb (t : RegVal) : (s.setPc t).fb = s.fb := rfl
@[simp] theorem State.setPc_inIsr (t : RegVal) : (s.setPc t).inIsr = s.inIsr := rfl
@[simp] theorem State.setPc_halted (t : RegVal) : (s.setPc t).halted = s.halted := rfl
@[simp] theorem State.setPc_diskAcc (t : RegVal) : (s.setPc t).diskAcc = s.diskAcc := rfl
@[simp] theorem State.setPc_schedCursor (t : RegVal) : (s.setPc t).schedCursor = s.schedCursor := rfl
@[simp] theorem State.setPc_fault (t : RegVal) : (s.setPc t).fault = s.fault := rfl
@[simp] theorem State.setPc_trace (t : RegVal) : (s.setPc t).trace = s.trace := rfl
@[simp] theorem State.setPc_hwreg (t : RegVal) : (s.setPc t).hwreg = s.hwreg := rfl
@[simp] theorem State.setPc_ledsLog (t : RegVal) : (s.setPc t).ledsLog = s.ledsLog := rfl
@[simp] theorem State.setPc_display7segLog (t : RegVal) : (s.setPc t).display7segLog = s.display7segLog := rfl
@[simp] theorem State.setPc_irq2Schedule (t : RegVal) : (s.setPc t).irq2Schedule = s.irq2Schedule := rfl
@[simp] theorem State.setPc_diskLatency (t : RegVal) : (s.setPc t).diskLatency = s.diskLatency := rfl
@[simp] theorem State.setPc_cost (t : RegVal) : (s.setPc t).cost = s.cost := rfl
@[simp] theorem State.setPc_draws (t : RegVal) : (s.setPc t).draws = s.draws := rfl
@[simp] theorem State.setPc_reg (t : RegVal) (i : RegIx) : (s.setPc t).reg i = s.reg i := rfl
@[simp] theorem State.setPc_ioReg (t : RegVal) (k' : IoIx) : (s.setPc t).ioReg k' = s.ioReg k' := rfl
@[simp] theorem State.setPc_memWord (t : RegVal) (a' : Nat) : (s.setPc t).memWord a' = s.memWord a' := rfl
@[simp] theorem State.setPc_diskWord (t : RegVal) (d' : Nat) : (s.setPc t).diskWord d' = s.diskWord d' := rfl
@[simp] theorem State.setPc_pixel (t : RegVal) (p' : Nat) : (s.setPc t).pixel p' = s.pixel p' := rfl
@[simp] theorem State.setPc_clks (t : RegVal) : (s.setPc t).clks = s.clks := rfl

@[simp] theorem State.setMemWord_x (a : Nat) (w : Word) : (s.setMemWord a w).x = s.x := rfl
@[simp] theorem State.setMemWord_pc (a : Nat) (w : Word) : (s.setMemWord a w).pc = s.pc := rfl
@[simp] theorem State.setMemWord_io (a : Nat) (w : Word) : (s.setMemWord a w).io = s.io := rfl
@[simp] theorem State.setMemWord_mem (a : Nat) (w : Word) : (s.setMemWord a w).mem = Cells.write s.mem a w := rfl
@[simp] theorem State.setMemWord_disk (a : Nat) (w : Word) : (s.setMemWord a w).disk = s.disk := rfl
@[simp] theorem State.setMemWord_fb (a : Nat) (w : Word) : (s.setMemWord a w).fb = s.fb := rfl
@[simp] theorem State.setMemWord_inIsr (a : Nat) (w : Word) : (s.setMemWord a w).inIsr = s.inIsr := rfl
@[simp] theorem State.setMemWord_halted (a : Nat) (w : Word) : (s.setMemWord a w).halted = s.halted := rfl
@[simp] theorem State.setMemWord_diskAcc (a : Nat) (w : Word) : (s.setMemWord a w).diskAcc = s.diskAcc := rfl
@[simp] theorem State.setMemWord_schedCursor (a : Nat) (w : Word) : (s.setMemWord a w).schedCursor = s.schedCursor := rfl
@[simp] theorem State.setMemWord_fault (a : Nat) (w : Word) : (s.setMemWord a w).fault = s.fault := rfl
@[simp] theorem State.setMemWord_trace (a : Nat) (w : Word) : (s.setMemWord a w).trace = s.trace := rfl
@[simp] theorem State.setMemWord_hwreg (a : Nat) (w : Word) : (s.setMemWord a w).hwreg = s.hwreg := rfl
@[simp] theorem State.setMemWord_ledsLog (a : Nat) (w : Word) : (s.setMemWord a w).ledsLog = s.ledsLog := rfl
@[simp] theorem State.setMemWord_display7segLog (a : Nat) (w : Word) : (s.setMemWord a w).display7segLog = s.display7segLog := rfl
@[simp] theorem State.setMemWord_irq2Schedule (a : Nat) (w : Word) : (s.setMemWord a w).irq2Schedule = s.irq2Schedule := rfl
@[simp] theorem State.setMemWord_diskLatency (a : Nat) (w : Word) : (s.setMemWord a w).diskLatency = s.diskLatency := rfl
@[simp] theorem State.setMemWord_cost (a : Nat) (w : Word) : (s.setMemWord a w).cost = s.cost := rfl
@[simp] theorem State.setMemWord_draws (a : Nat) (w : Word) : (s.setMemWord a w).draws = s.draws := rfl
@[simp] theorem State.setMemWord_reg (a : Nat) (w : Word) (i : RegIx) : (s.setMemWord a w).reg i = s.reg i := rfl
@[simp] theorem State.setMemWord_ioReg (a : Nat) (w : Word) (k' : IoIx) : (s.setMemWord a w).ioReg k' = s.ioReg k' := rfl
@[simp] theorem State.setMemWord_diskWord (a : Nat) (w : Word) (d' : Nat) : (s.setMemWord a w).diskWord d' = s.diskWord d' := rfl
@[simp] theorem State.setMemWord_pixel (a : Nat) (w : Word) (p' : Nat) : (s.setMemWord a w).pixel p' = s.pixel p' := rfl
@[simp] theorem State.setMemWord_clks (a : Nat) (w : Word) : (s.setMemWord a w).clks = s.clks := rfl

@[simp] theorem State.setMem_x (m : Memory) : (s.setMem m).x = s.x := rfl
@[simp] theorem State.setMem_pc (m : Memory) : (s.setMem m).pc = s.pc := rfl
@[simp] theorem State.setMem_io (m : Memory) : (s.setMem m).io = s.io := rfl
@[simp] theorem State.setMem_mem (m : Memory) : (s.setMem m).mem = m := rfl
@[simp] theorem State.setMem_disk (m : Memory) : (s.setMem m).disk = s.disk := rfl
@[simp] theorem State.setMem_fb (m : Memory) : (s.setMem m).fb = s.fb := rfl
@[simp] theorem State.setMem_inIsr (m : Memory) : (s.setMem m).inIsr = s.inIsr := rfl
@[simp] theorem State.setMem_halted (m : Memory) : (s.setMem m).halted = s.halted := rfl
@[simp] theorem State.setMem_diskAcc (m : Memory) : (s.setMem m).diskAcc = s.diskAcc := rfl
@[simp] theorem State.setMem_schedCursor (m : Memory) : (s.setMem m).schedCursor = s.schedCursor := rfl
@[simp] theorem State.setMem_fault (m : Memory) : (s.setMem m).fault = s.fault := rfl
@[simp] theorem State.setMem_trace (m : Memory) : (s.setMem m).trace = s.trace := rfl
@[simp] theorem State.setMem_hwreg (m : Memory) : (s.setMem m).hwreg = s.hwreg := rfl
@[simp] theorem State.setMem_ledsLog (m : Memory) : (s.setMem m).ledsLog = s.ledsLog := rfl
@[simp] theorem State.setMem_display7segLog (m : Memory) : (s.setMem m).display7segLog = s.display7segLog := rfl
@[simp] theorem State.setMem_irq2Schedule (m : Memory) : (s.setMem m).irq2Schedule = s.irq2Schedule := rfl
@[simp] theorem State.setMem_diskLatency (m : Memory) : (s.setMem m).diskLatency = s.diskLatency := rfl
@[simp] theorem State.setMem_cost (m : Memory) : (s.setMem m).cost = s.cost := rfl
@[simp] theorem State.setMem_draws (m : Memory) : (s.setMem m).draws = s.draws := rfl
@[simp] theorem State.setMem_reg (m : Memory) (i : RegIx) : (s.setMem m).reg i = s.reg i := rfl
@[simp] theorem State.setMem_ioReg (m : Memory) (k' : IoIx) : (s.setMem m).ioReg k' = s.ioReg k' := rfl
@[simp] theorem State.setMem_diskWord (m : Memory) (d' : Nat) : (s.setMem m).diskWord d' = s.diskWord d' := rfl
@[simp] theorem State.setMem_pixel (m : Memory) (p' : Nat) : (s.setMem m).pixel p' = s.pixel p' := rfl
@[simp] theorem State.setMem_clks (m : Memory) : (s.setMem m).clks = s.clks := rfl

@[simp] theorem State.setDisk_x (d : Disk) : (s.setDisk d).x = s.x := rfl
@[simp] theorem State.setDisk_pc (d : Disk) : (s.setDisk d).pc = s.pc := rfl
@[simp] theorem State.setDisk_io (d : Disk) : (s.setDisk d).io = s.io := rfl
@[simp] theorem State.setDisk_mem (d : Disk) : (s.setDisk d).mem = s.mem := rfl
@[simp] theorem State.setDisk_disk (d : Disk) : (s.setDisk d).disk = d := rfl
@[simp] theorem State.setDisk_fb (d : Disk) : (s.setDisk d).fb = s.fb := rfl
@[simp] theorem State.setDisk_inIsr (d : Disk) : (s.setDisk d).inIsr = s.inIsr := rfl
@[simp] theorem State.setDisk_halted (d : Disk) : (s.setDisk d).halted = s.halted := rfl
@[simp] theorem State.setDisk_diskAcc (d : Disk) : (s.setDisk d).diskAcc = s.diskAcc := rfl
@[simp] theorem State.setDisk_schedCursor (d : Disk) : (s.setDisk d).schedCursor = s.schedCursor := rfl
@[simp] theorem State.setDisk_fault (d : Disk) : (s.setDisk d).fault = s.fault := rfl
@[simp] theorem State.setDisk_trace (d : Disk) : (s.setDisk d).trace = s.trace := rfl
@[simp] theorem State.setDisk_hwreg (d : Disk) : (s.setDisk d).hwreg = s.hwreg := rfl
@[simp] theorem State.setDisk_ledsLog (d : Disk) : (s.setDisk d).ledsLog = s.ledsLog := rfl
@[simp] theorem State.setDisk_display7segLog (d : Disk) : (s.setDisk d).display7segLog = s.display7segLog := rfl
@[simp] theorem State.setDisk_irq2Schedule (d : Disk) : (s.setDisk d).irq2Schedule = s.irq2Schedule := rfl
@[simp] theorem State.setDisk_diskLatency (d : Disk) : (s.setDisk d).diskLatency = s.diskLatency := rfl
@[simp] theorem State.setDisk_cost (d : Disk) : (s.setDisk d).cost = s.cost := rfl
@[simp] theorem State.setDisk_draws (d : Disk) : (s.setDisk d).draws = s.draws := rfl
@[simp] theorem State.setDisk_reg (d : Disk) (i : RegIx) : (s.setDisk d).reg i = s.reg i := rfl
@[simp] theorem State.setDisk_ioReg (d : Disk) (k' : IoIx) : (s.setDisk d).ioReg k' = s.ioReg k' := rfl
@[simp] theorem State.setDisk_memWord (d : Disk) (a' : Nat) : (s.setDisk d).memWord a' = s.memWord a' := rfl
@[simp] theorem State.setDisk_pixel (d : Disk) (p' : Nat) : (s.setDisk d).pixel p' = s.pixel p' := rfl
@[simp] theorem State.setDisk_clks (d : Disk) : (s.setDisk d).clks = s.clks := rfl

@[simp] theorem State.setPixel_x (p : Nat) (v : Pixel) : (s.setPixel p v).x = s.x := rfl
@[simp] theorem State.setPixel_pc (p : Nat) (v : Pixel) : (s.setPixel p v).pc = s.pc := rfl
@[simp] theorem State.setPixel_io (p : Nat) (v : Pixel) : (s.setPixel p v).io = s.io := rfl
@[simp] theorem State.setPixel_mem (p : Nat) (v : Pixel) : (s.setPixel p v).mem = s.mem := rfl
@[simp] theorem State.setPixel_disk (p : Nat) (v : Pixel) : (s.setPixel p v).disk = s.disk := rfl
@[simp] theorem State.setPixel_fb (p : Nat) (v : Pixel) : (s.setPixel p v).fb = Cells.write s.fb p v := rfl
@[simp] theorem State.setPixel_inIsr (p : Nat) (v : Pixel) : (s.setPixel p v).inIsr = s.inIsr := rfl
@[simp] theorem State.setPixel_halted (p : Nat) (v : Pixel) : (s.setPixel p v).halted = s.halted := rfl
@[simp] theorem State.setPixel_diskAcc (p : Nat) (v : Pixel) : (s.setPixel p v).diskAcc = s.diskAcc := rfl
@[simp] theorem State.setPixel_schedCursor (p : Nat) (v : Pixel) : (s.setPixel p v).schedCursor = s.schedCursor := rfl
@[simp] theorem State.setPixel_fault (p : Nat) (v : Pixel) : (s.setPixel p v).fault = s.fault := rfl
@[simp] theorem State.setPixel_trace (p : Nat) (v : Pixel) : (s.setPixel p v).trace = s.trace := rfl
@[simp] theorem State.setPixel_hwreg (p : Nat) (v : Pixel) : (s.setPixel p v).hwreg = s.hwreg := rfl
@[simp] theorem State.setPixel_ledsLog (p : Nat) (v : Pixel) : (s.setPixel p v).ledsLog = s.ledsLog := rfl
@[simp] theorem State.setPixel_display7segLog (p : Nat) (v : Pixel) : (s.setPixel p v).display7segLog = s.display7segLog := rfl
@[simp] theorem State.setPixel_irq2Schedule (p : Nat) (v : Pixel) : (s.setPixel p v).irq2Schedule = s.irq2Schedule := rfl
@[simp] theorem State.setPixel_diskLatency (p : Nat) (v : Pixel) : (s.setPixel p v).diskLatency = s.diskLatency := rfl
@[simp] theorem State.setPixel_cost (p : Nat) (v : Pixel) : (s.setPixel p v).cost = s.cost := rfl
@[simp] theorem State.setPixel_draws (p : Nat) (v : Pixel) : (s.setPixel p v).draws = s.draws := rfl
@[simp] theorem State.setPixel_reg (p : Nat) (v : Pixel) (i : RegIx) : (s.setPixel p v).reg i = s.reg i := rfl
@[simp] theorem State.setPixel_ioReg (p : Nat) (v : Pixel) (k' : IoIx) : (s.setPixel p v).ioReg k' = s.ioReg k' := rfl
@[simp] theorem State.setPixel_memWord (p : Nat) (v : Pixel) (a' : Nat) : (s.setPixel p v).memWord a' = s.memWord a' := rfl
@[simp] theorem State.setPixel_diskWord (p : Nat) (v : Pixel) (d' : Nat) : (s.setPixel p v).diskWord d' = s.diskWord d' := rfl
@[simp] theorem State.setPixel_clks (p : Nat) (v : Pixel) : (s.setPixel p v).clks = s.clks := rfl

@[simp] theorem State.setInIsr_x (b : Bool) : (s.setInIsr b).x = s.x := rfl
@[simp] theorem State.setInIsr_pc (b : Bool) : (s.setInIsr b).pc = s.pc := rfl
@[simp] theorem State.setInIsr_io (b : Bool) : (s.setInIsr b).io = s.io := rfl
@[simp] theorem State.setInIsr_mem (b : Bool) : (s.setInIsr b).mem = s.mem := rfl
@[simp] theorem State.setInIsr_disk (b : Bool) : (s.setInIsr b).disk = s.disk := rfl
@[simp] theorem State.setInIsr_fb (b : Bool) : (s.setInIsr b).fb = s.fb := rfl
@[simp] theorem State.setInIsr_inIsr (b : Bool) : (s.setInIsr b).inIsr = b := rfl
@[simp] theorem State.setInIsr_halted (b : Bool) : (s.setInIsr b).halted = s.halted := rfl
@[simp] theorem State.setInIsr_diskAcc (b : Bool) : (s.setInIsr b).diskAcc = s.diskAcc := rfl
@[simp] theorem State.setInIsr_schedCursor (b : Bool) : (s.setInIsr b).schedCursor = s.schedCursor := rfl
@[simp] theorem State.setInIsr_fault (b : Bool) : (s.setInIsr b).fault = s.fault := rfl
@[simp] theorem State.setInIsr_trace (b : Bool) : (s.setInIsr b).trace = s.trace := rfl
@[simp] theorem State.setInIsr_hwreg (b : Bool) : (s.setInIsr b).hwreg = s.hwreg := rfl
@[simp] theorem State.setInIsr_ledsLog (b : Bool) : (s.setInIsr b).ledsLog = s.ledsLog := rfl
@[simp] theorem State.setInIsr_display7segLog (b : Bool) : (s.setInIsr b).display7segLog = s.display7segLog := rfl
@[simp] theorem State.setInIsr_irq2Schedule (b : Bool) : (s.setInIsr b).irq2Schedule = s.irq2Schedule := rfl
@[simp] theorem State.setInIsr_diskLatency (b : Bool) : (s.setInIsr b).diskLatency = s.diskLatency := rfl
@[simp] theorem State.setInIsr_cost (b : Bool) : (s.setInIsr b).cost = s.cost := rfl
@[simp] theorem State.setInIsr_draws (b : Bool) : (s.setInIsr b).draws = s.draws := rfl
@[simp] theorem State.setInIsr_reg (b : Bool) (i : RegIx) : (s.setInIsr b).reg i = s.reg i := rfl
@[simp] theorem State.setInIsr_ioReg (b : Bool) (k' : IoIx) : (s.setInIsr b).ioReg k' = s.ioReg k' := rfl
@[simp] theorem State.setInIsr_memWord (b : Bool) (a' : Nat) : (s.setInIsr b).memWord a' = s.memWord a' := rfl
@[simp] theorem State.setInIsr_diskWord (b : Bool) (d' : Nat) : (s.setInIsr b).diskWord d' = s.diskWord d' := rfl
@[simp] theorem State.setInIsr_pixel (b : Bool) (p' : Nat) : (s.setInIsr b).pixel p' = s.pixel p' := rfl
@[simp] theorem State.setInIsr_clks (b : Bool) : (s.setInIsr b).clks = s.clks := rfl

@[simp] theorem State.setHalted_x : (s.setHalted).x = s.x := rfl
@[simp] theorem State.setHalted_pc : (s.setHalted).pc = s.pc := rfl
@[simp] theorem State.setHalted_io : (s.setHalted).io = s.io := rfl
@[simp] theorem State.setHalted_mem : (s.setHalted).mem = s.mem := rfl
@[simp] theorem State.setHalted_disk : (s.setHalted).disk = s.disk := rfl
@[simp] theorem State.setHalted_fb : (s.setHalted).fb = s.fb := rfl
@[simp] theorem State.setHalted_inIsr : (s.setHalted).inIsr = s.inIsr := rfl
@[simp] theorem State.setHalted_halted : (s.setHalted).halted = true := rfl
@[simp] theorem State.setHalted_diskAcc : (s.setHalted).diskAcc = s.diskAcc := rfl
@[simp] theorem State.setHalted_schedCursor : (s.setHalted).schedCursor = s.schedCursor := rfl
@[simp] theorem State.setHalted_fault : (s.setHalted).fault = s.fault := rfl
@[simp] theorem State.setHalted_trace : (s.setHalted).trace = s.trace := rfl
@[simp] theorem State.setHalted_hwreg : (s.setHalted).hwreg = s.hwreg := rfl
@[simp] theorem State.setHalted_ledsLog : (s.setHalted).ledsLog = s.ledsLog := rfl
@[simp] theorem State.setHalted_display7segLog : (s.setHalted).display7segLog = s.display7segLog := rfl
@[simp] theorem State.setHalted_irq2Schedule : (s.setHalted).irq2Schedule = s.irq2Schedule := rfl
@[simp] theorem State.setHalted_diskLatency : (s.setHalted).diskLatency = s.diskLatency := rfl
@[simp] theorem State.setHalted_cost : (s.setHalted).cost = s.cost := rfl
@[simp] theorem State.setHalted_draws : (s.setHalted).draws = s.draws := rfl
@[simp] theorem State.setHalted_reg (i : RegIx) : (s.setHalted).reg i = s.reg i := rfl
@[simp] theorem State.setHalted_ioReg (k' : IoIx) : (s.setHalted).ioReg k' = s.ioReg k' := rfl
@[simp] theorem State.setHalted_memWord (a' : Nat) : (s.setHalted).memWord a' = s.memWord a' := rfl
@[simp] theorem State.setHalted_diskWord (d' : Nat) : (s.setHalted).diskWord d' = s.diskWord d' := rfl
@[simp] theorem State.setHalted_pixel (p' : Nat) : (s.setHalted).pixel p' = s.pixel p' := rfl
@[simp] theorem State.setHalted_clks : (s.setHalted).clks = s.clks := rfl

@[simp] theorem State.setDiskAcc_x (n : Nat) : (s.setDiskAcc n).x = s.x := rfl
@[simp] theorem State.setDiskAcc_pc (n : Nat) : (s.setDiskAcc n).pc = s.pc := rfl
@[simp] theorem State.setDiskAcc_io (n : Nat) : (s.setDiskAcc n).io = s.io := rfl
@[simp] theorem State.setDiskAcc_mem (n : Nat) : (s.setDiskAcc n).mem = s.mem := rfl
@[simp] theorem State.setDiskAcc_disk (n : Nat) : (s.setDiskAcc n).disk = s.disk := rfl
@[simp] theorem State.setDiskAcc_fb (n : Nat) : (s.setDiskAcc n).fb = s.fb := rfl
@[simp] theorem State.setDiskAcc_inIsr (n : Nat) : (s.setDiskAcc n).inIsr = s.inIsr := rfl
@[simp] theorem State.setDiskAcc_halted (n : Nat) : (s.setDiskAcc n).halted = s.halted := rfl
@[simp] theorem State.setDiskAcc_diskAcc (n : Nat) : (s.setDiskAcc n).diskAcc = n := rfl
@[simp] theorem State.setDiskAcc_schedCursor (n : Nat) : (s.setDiskAcc n).schedCursor = s.schedCursor := rfl
@[simp] theorem State.setDiskAcc_fault (n : Nat) : (s.setDiskAcc n).fault = s.fault := rfl
@[simp] theorem State.setDiskAcc_trace (n : Nat) : (s.setDiskAcc n).trace = s.trace := rfl
@[simp] theorem State.setDiskAcc_hwreg (n : Nat) : (s.setDiskAcc n).hwreg = s.hwreg := rfl
@[simp] theorem State.setDiskAcc_ledsLog (n : Nat) : (s.setDiskAcc n).ledsLog = s.ledsLog := rfl
@[simp] theorem State.setDiskAcc_display7segLog (n : Nat) : (s.setDiskAcc n).display7segLog = s.display7segLog := rfl
@[simp] theorem State.setDiskAcc_irq2Schedule (n : Nat) : (s.setDiskAcc n).irq2Schedule = s.irq2Schedule := rfl
@[simp] theorem State.setDiskAcc_diskLatency (n : Nat) : (s.setDiskAcc n).diskLatency = s.diskLatency := rfl
@[simp] theorem State.setDiskAcc_cost (n : Nat) : (s.setDiskAcc n).cost = s.cost := rfl
@[simp] theorem State.setDiskAcc_draws (n : Nat) : (s.setDiskAcc n).draws = s.draws := rfl
@[simp] theorem State.setDiskAcc_reg (n : Nat) (i : RegIx) : (s.setDiskAcc n).reg i = s.reg i := rfl
@[simp] theorem State.setDiskAcc_ioReg (n : Nat) (k' : IoIx) : (s.setDiskAcc n).ioReg k' = s.ioReg k' := rfl
@[simp] theorem State.setDiskAcc_memWord (n : Nat) (a' : Nat) : (s.setDiskAcc n).memWord a' = s.memWord a' := rfl
@[simp] theorem State.setDiskAcc_diskWord (n : Nat) (d' : Nat) : (s.setDiskAcc n).diskWord d' = s.diskWord d' := rfl
@[simp] theorem State.setDiskAcc_pixel (n : Nat) (p' : Nat) : (s.setDiskAcc n).pixel p' = s.pixel p' := rfl
@[simp] theorem State.setDiskAcc_clks (n : Nat) : (s.setDiskAcc n).clks = s.clks := rfl

@[simp] theorem State.setSchedCursor_x (n : Nat) : (s.setSchedCursor n).x = s.x := rfl
@[simp] theorem State.setSchedCursor_pc (n : Nat) : (s.setSchedCursor n).pc = s.pc := rfl
@[simp] theorem State.setSchedCursor_io (n : Nat) : (s.setSchedCursor n).io = s.io := rfl
@[simp] theorem State.setSchedCursor_mem (n : Nat) : (s.setSchedCursor n).mem = s.mem := rfl
@[simp] theorem State.setSchedCursor_disk (n : Nat) : (s.setSchedCursor n).disk = s.disk := rfl
@[simp] theorem State.setSchedCursor_fb (n : Nat) : (s.setSchedCursor n).fb = s.fb := rfl
@[simp] theorem State.setSchedCursor_inIsr (n : Nat) : (s.setSchedCursor n).inIsr = s.inIsr := rfl
@[simp] theorem State.setSchedCursor_halted (n : Nat) : (s.setSchedCursor n).halted = s.halted := rfl
@[simp] theorem State.setSchedCursor_diskAcc (n : Nat) : (s.setSchedCursor n).diskAcc = s.diskAcc := rfl
@[simp] theorem State.setSchedCursor_schedCursor (n : Nat) : (s.setSchedCursor n).schedCursor = n := rfl
@[simp] theorem State.setSchedCursor_fault (n : Nat) : (s.setSchedCursor n).fault = s.fault := rfl
@[simp] theorem State.setSchedCursor_trace (n : Nat) : (s.setSchedCursor n).trace = s.trace := rfl
@[simp] theorem State.setSchedCursor_hwreg (n : Nat) : (s.setSchedCursor n).hwreg = s.hwreg := rfl
@[simp] theorem State.setSchedCursor_ledsLog (n : Nat) : (s.setSchedCursor n).ledsLog = s.ledsLog := rfl
@[simp] theorem State.setSchedCursor_display7segLog (n : Nat) : (s.setSchedCursor n).display7segLog = s.display7segLog := rfl
@[simp] theorem State.setSchedCursor_irq2Schedule (n : Nat) : (s.setSchedCursor n).irq2Schedule = s.irq2Schedule := rfl
@[simp] theorem State.setSchedCursor_diskLatency (n : Nat) : (s.setSchedCursor n).diskLatency = s.diskLatency := rfl
@[simp] theorem State.setSchedCursor_cost (n : Nat) : (s.setSchedCursor n).cost = s.cost := rfl
@[simp] theorem State.setSchedCursor_draws (n : Nat) : (s.setSchedCursor n).draws = s.draws := rfl
@[simp] theorem State.setSchedCursor_reg (n : Nat) (i : RegIx) : (s.setSchedCursor n).reg i = s.reg i := rfl
@[simp] theorem State.setSchedCursor_ioReg (n : Nat) (k' : IoIx) : (s.setSchedCursor n).ioReg k' = s.ioReg k' := rfl
@[simp] theorem State.setSchedCursor_memWord (n : Nat) (a' : Nat) : (s.setSchedCursor n).memWord a' = s.memWord a' := rfl
@[simp] theorem State.setSchedCursor_diskWord (n : Nat) (d' : Nat) : (s.setSchedCursor n).diskWord d' = s.diskWord d' := rfl
@[simp] theorem State.setSchedCursor_pixel (n : Nat) (p' : Nat) : (s.setSchedCursor n).pixel p' = s.pixel p' := rfl
@[simp] theorem State.setSchedCursor_clks (n : Nat) : (s.setSchedCursor n).clks = s.clks := rfl

@[simp] theorem State.setFault_x (f : MachineFault) : (s.setFault f).x = s.x := rfl
@[simp] theorem State.setFault_pc (f : MachineFault) : (s.setFault f).pc = s.pc := rfl
@[simp] theorem State.setFault_io (f : MachineFault) : (s.setFault f).io = s.io := rfl
@[simp] theorem State.setFault_mem (f : MachineFault) : (s.setFault f).mem = s.mem := rfl
@[simp] theorem State.setFault_disk (f : MachineFault) : (s.setFault f).disk = s.disk := rfl
@[simp] theorem State.setFault_fb (f : MachineFault) : (s.setFault f).fb = s.fb := rfl
@[simp] theorem State.setFault_inIsr (f : MachineFault) : (s.setFault f).inIsr = s.inIsr := rfl
@[simp] theorem State.setFault_halted (f : MachineFault) : (s.setFault f).halted = s.halted := rfl
@[simp] theorem State.setFault_diskAcc (f : MachineFault) : (s.setFault f).diskAcc = s.diskAcc := rfl
@[simp] theorem State.setFault_schedCursor (f : MachineFault) : (s.setFault f).schedCursor = s.schedCursor := rfl
@[simp] theorem State.setFault_fault (f : MachineFault) : (s.setFault f).fault = some f := rfl
@[simp] theorem State.setFault_trace (f : MachineFault) : (s.setFault f).trace = s.trace := rfl
@[simp] theorem State.setFault_hwreg (f : MachineFault) : (s.setFault f).hwreg = s.hwreg := rfl
@[simp] theorem State.setFault_ledsLog (f : MachineFault) : (s.setFault f).ledsLog = s.ledsLog := rfl
@[simp] theorem State.setFault_display7segLog (f : MachineFault) : (s.setFault f).display7segLog = s.display7segLog := rfl
@[simp] theorem State.setFault_irq2Schedule (f : MachineFault) : (s.setFault f).irq2Schedule = s.irq2Schedule := rfl
@[simp] theorem State.setFault_diskLatency (f : MachineFault) : (s.setFault f).diskLatency = s.diskLatency := rfl
@[simp] theorem State.setFault_cost (f : MachineFault) : (s.setFault f).cost = s.cost := rfl
@[simp] theorem State.setFault_draws (f : MachineFault) : (s.setFault f).draws = s.draws := rfl
@[simp] theorem State.setFault_reg (f : MachineFault) (i : RegIx) : (s.setFault f).reg i = s.reg i := rfl
@[simp] theorem State.setFault_ioReg (f : MachineFault) (k' : IoIx) : (s.setFault f).ioReg k' = s.ioReg k' := rfl
@[simp] theorem State.setFault_memWord (f : MachineFault) (a' : Nat) : (s.setFault f).memWord a' = s.memWord a' := rfl
@[simp] theorem State.setFault_diskWord (f : MachineFault) (d' : Nat) : (s.setFault f).diskWord d' = s.diskWord d' := rfl
@[simp] theorem State.setFault_pixel (f : MachineFault) (p' : Nat) : (s.setFault f).pixel p' = s.pixel p' := rfl
@[simp] theorem State.setFault_clks (f : MachineFault) : (s.setFault f).clks = s.clks := rfl

@[simp] theorem State.setCost_x (n : Nat) : (s.setCost n).x = s.x := rfl
@[simp] theorem State.setCost_pc (n : Nat) : (s.setCost n).pc = s.pc := rfl
@[simp] theorem State.setCost_io (n : Nat) : (s.setCost n).io = s.io := rfl
@[simp] theorem State.setCost_mem (n : Nat) : (s.setCost n).mem = s.mem := rfl
@[simp] theorem State.setCost_disk (n : Nat) : (s.setCost n).disk = s.disk := rfl
@[simp] theorem State.setCost_fb (n : Nat) : (s.setCost n).fb = s.fb := rfl
@[simp] theorem State.setCost_inIsr (n : Nat) : (s.setCost n).inIsr = s.inIsr := rfl
@[simp] theorem State.setCost_halted (n : Nat) : (s.setCost n).halted = s.halted := rfl
@[simp] theorem State.setCost_diskAcc (n : Nat) : (s.setCost n).diskAcc = s.diskAcc := rfl
@[simp] theorem State.setCost_schedCursor (n : Nat) : (s.setCost n).schedCursor = s.schedCursor := rfl
@[simp] theorem State.setCost_fault (n : Nat) : (s.setCost n).fault = s.fault := rfl
@[simp] theorem State.setCost_trace (n : Nat) : (s.setCost n).trace = s.trace := rfl
@[simp] theorem State.setCost_hwreg (n : Nat) : (s.setCost n).hwreg = s.hwreg := rfl
@[simp] theorem State.setCost_ledsLog (n : Nat) : (s.setCost n).ledsLog = s.ledsLog := rfl
@[simp] theorem State.setCost_display7segLog (n : Nat) : (s.setCost n).display7segLog = s.display7segLog := rfl
@[simp] theorem State.setCost_irq2Schedule (n : Nat) : (s.setCost n).irq2Schedule = s.irq2Schedule := rfl
@[simp] theorem State.setCost_diskLatency (n : Nat) : (s.setCost n).diskLatency = s.diskLatency := rfl
@[simp] theorem State.setCost_cost (n : Nat) : (s.setCost n).cost = n := rfl
@[simp] theorem State.setCost_draws (n : Nat) : (s.setCost n).draws = s.draws := rfl
@[simp] theorem State.setCost_reg (n : Nat) (i : RegIx) : (s.setCost n).reg i = s.reg i := rfl
@[simp] theorem State.setCost_ioReg (n : Nat) (k' : IoIx) : (s.setCost n).ioReg k' = s.ioReg k' := rfl
@[simp] theorem State.setCost_memWord (n : Nat) (a' : Nat) : (s.setCost n).memWord a' = s.memWord a' := rfl
@[simp] theorem State.setCost_diskWord (n : Nat) (d' : Nat) : (s.setCost n).diskWord d' = s.diskWord d' := rfl
@[simp] theorem State.setCost_pixel (n : Nat) (p' : Nat) : (s.setCost n).pixel p' = s.pixel p' := rfl
@[simp] theorem State.setCost_clks (n : Nat) : (s.setCost n).clks = s.clks := rfl

@[simp] theorem State.emitTrace_x (r : TraceRec) : (s.emitTrace r).x = s.x := rfl
@[simp] theorem State.emitTrace_pc (r : TraceRec) : (s.emitTrace r).pc = s.pc := rfl
@[simp] theorem State.emitTrace_io (r : TraceRec) : (s.emitTrace r).io = s.io := rfl
@[simp] theorem State.emitTrace_mem (r : TraceRec) : (s.emitTrace r).mem = s.mem := rfl
@[simp] theorem State.emitTrace_disk (r : TraceRec) : (s.emitTrace r).disk = s.disk := rfl
@[simp] theorem State.emitTrace_fb (r : TraceRec) : (s.emitTrace r).fb = s.fb := rfl
@[simp] theorem State.emitTrace_inIsr (r : TraceRec) : (s.emitTrace r).inIsr = s.inIsr := rfl
@[simp] theorem State.emitTrace_halted (r : TraceRec) : (s.emitTrace r).halted = s.halted := rfl
@[simp] theorem State.emitTrace_diskAcc (r : TraceRec) : (s.emitTrace r).diskAcc = s.diskAcc := rfl
@[simp] theorem State.emitTrace_schedCursor (r : TraceRec) : (s.emitTrace r).schedCursor = s.schedCursor := rfl
@[simp] theorem State.emitTrace_fault (r : TraceRec) : (s.emitTrace r).fault = s.fault := rfl
@[simp] theorem State.emitTrace_trace (r : TraceRec) : (s.emitTrace r).trace = r :: s.trace := rfl
@[simp] theorem State.emitTrace_hwreg (r : TraceRec) : (s.emitTrace r).hwreg = s.hwreg := rfl
@[simp] theorem State.emitTrace_ledsLog (r : TraceRec) : (s.emitTrace r).ledsLog = s.ledsLog := rfl
@[simp] theorem State.emitTrace_display7segLog (r : TraceRec) : (s.emitTrace r).display7segLog = s.display7segLog := rfl
@[simp] theorem State.emitTrace_irq2Schedule (r : TraceRec) : (s.emitTrace r).irq2Schedule = s.irq2Schedule := rfl
@[simp] theorem State.emitTrace_diskLatency (r : TraceRec) : (s.emitTrace r).diskLatency = s.diskLatency := rfl
@[simp] theorem State.emitTrace_cost (r : TraceRec) : (s.emitTrace r).cost = s.cost := rfl
@[simp] theorem State.emitTrace_draws (r : TraceRec) : (s.emitTrace r).draws = s.draws := rfl
@[simp] theorem State.emitTrace_reg (r : TraceRec) (i : RegIx) : (s.emitTrace r).reg i = s.reg i := rfl
@[simp] theorem State.emitTrace_ioReg (r : TraceRec) (k' : IoIx) : (s.emitTrace r).ioReg k' = s.ioReg k' := rfl
@[simp] theorem State.emitTrace_memWord (r : TraceRec) (a' : Nat) : (s.emitTrace r).memWord a' = s.memWord a' := rfl
@[simp] theorem State.emitTrace_diskWord (r : TraceRec) (d' : Nat) : (s.emitTrace r).diskWord d' = s.diskWord d' := rfl
@[simp] theorem State.emitTrace_pixel (r : TraceRec) (p' : Nat) : (s.emitTrace r).pixel p' = s.pixel p' := rfl
@[simp] theorem State.emitTrace_clks (r : TraceRec) : (s.emitTrace r).clks = s.clks := rfl

@[simp] theorem State.emitHwreg_x (r : HwregRec) : (s.emitHwreg r).x = s.x := rfl
@[simp] theorem State.emitHwreg_pc (r : HwregRec) : (s.emitHwreg r).pc = s.pc := rfl
@[simp] theorem State.emitHwreg_io (r : HwregRec) : (s.emitHwreg r).io = s.io := rfl
@[simp] theorem State.emitHwreg_mem (r : HwregRec) : (s.emitHwreg r).mem = s.mem := rfl
@[simp] theorem State.emitHwreg_disk (r : HwregRec) : (s.emitHwreg r).disk = s.disk := rfl
@[simp] theorem State.emitHwreg_fb (r : HwregRec) : (s.emitHwreg r).fb = s.fb := rfl
@[simp] theorem State.emitHwreg_inIsr (r : HwregRec) : (s.emitHwreg r).inIsr = s.inIsr := rfl
@[simp] theorem State.emitHwreg_halted (r : HwregRec) : (s.emitHwreg r).halted = s.halted := rfl
@[simp] theorem State.emitHwreg_diskAcc (r : HwregRec) : (s.emitHwreg r).diskAcc = s.diskAcc := rfl
@[simp] theorem State.emitHwreg_schedCursor (r : HwregRec) : (s.emitHwreg r).schedCursor = s.schedCursor := rfl
@[simp] theorem State.emitHwreg_fault (r : HwregRec) : (s.emitHwreg r).fault = s.fault := rfl
@[simp] theorem State.emitHwreg_trace (r : HwregRec) : (s.emitHwreg r).trace = s.trace := rfl
@[simp] theorem State.emitHwreg_hwreg (r : HwregRec) : (s.emitHwreg r).hwreg = r :: s.hwreg := rfl
@[simp] theorem State.emitHwreg_ledsLog (r : HwregRec) : (s.emitHwreg r).ledsLog = s.ledsLog := rfl
@[simp] theorem State.emitHwreg_display7segLog (r : HwregRec) : (s.emitHwreg r).display7segLog = s.display7segLog := rfl
@[simp] theorem State.emitHwreg_irq2Schedule (r : HwregRec) : (s.emitHwreg r).irq2Schedule = s.irq2Schedule := rfl
@[simp] theorem State.emitHwreg_diskLatency (r : HwregRec) : (s.emitHwreg r).diskLatency = s.diskLatency := rfl
@[simp] theorem State.emitHwreg_cost (r : HwregRec) : (s.emitHwreg r).cost = s.cost := rfl
@[simp] theorem State.emitHwreg_draws (r : HwregRec) : (s.emitHwreg r).draws = s.draws := rfl
@[simp] theorem State.emitHwreg_reg (r : HwregRec) (i : RegIx) : (s.emitHwreg r).reg i = s.reg i := rfl
@[simp] theorem State.emitHwreg_ioReg (r : HwregRec) (k' : IoIx) : (s.emitHwreg r).ioReg k' = s.ioReg k' := rfl
@[simp] theorem State.emitHwreg_memWord (r : HwregRec) (a' : Nat) : (s.emitHwreg r).memWord a' = s.memWord a' := rfl
@[simp] theorem State.emitHwreg_diskWord (r : HwregRec) (d' : Nat) : (s.emitHwreg r).diskWord d' = s.diskWord d' := rfl
@[simp] theorem State.emitHwreg_pixel (r : HwregRec) (p' : Nat) : (s.emitHwreg r).pixel p' = s.pixel p' := rfl
@[simp] theorem State.emitHwreg_clks (r : HwregRec) : (s.emitHwreg r).clks = s.clks := rfl

@[simp] theorem State.emitLeds_x (r : OutputRec) : (s.emitLeds r).x = s.x := rfl
@[simp] theorem State.emitLeds_pc (r : OutputRec) : (s.emitLeds r).pc = s.pc := rfl
@[simp] theorem State.emitLeds_io (r : OutputRec) : (s.emitLeds r).io = s.io := rfl
@[simp] theorem State.emitLeds_mem (r : OutputRec) : (s.emitLeds r).mem = s.mem := rfl
@[simp] theorem State.emitLeds_disk (r : OutputRec) : (s.emitLeds r).disk = s.disk := rfl
@[simp] theorem State.emitLeds_fb (r : OutputRec) : (s.emitLeds r).fb = s.fb := rfl
@[simp] theorem State.emitLeds_inIsr (r : OutputRec) : (s.emitLeds r).inIsr = s.inIsr := rfl
@[simp] theorem State.emitLeds_halted (r : OutputRec) : (s.emitLeds r).halted = s.halted := rfl
@[simp] theorem State.emitLeds_diskAcc (r : OutputRec) : (s.emitLeds r).diskAcc = s.diskAcc := rfl
@[simp] theorem State.emitLeds_schedCursor (r : OutputRec) : (s.emitLeds r).schedCursor = s.schedCursor := rfl
@[simp] theorem State.emitLeds_fault (r : OutputRec) : (s.emitLeds r).fault = s.fault := rfl
@[simp] theorem State.emitLeds_trace (r : OutputRec) : (s.emitLeds r).trace = s.trace := rfl
@[simp] theorem State.emitLeds_hwreg (r : OutputRec) : (s.emitLeds r).hwreg = s.hwreg := rfl
@[simp] theorem State.emitLeds_ledsLog (r : OutputRec) : (s.emitLeds r).ledsLog = r :: s.ledsLog := rfl
@[simp] theorem State.emitLeds_display7segLog (r : OutputRec) : (s.emitLeds r).display7segLog = s.display7segLog := rfl
@[simp] theorem State.emitLeds_irq2Schedule (r : OutputRec) : (s.emitLeds r).irq2Schedule = s.irq2Schedule := rfl
@[simp] theorem State.emitLeds_diskLatency (r : OutputRec) : (s.emitLeds r).diskLatency = s.diskLatency := rfl
@[simp] theorem State.emitLeds_cost (r : OutputRec) : (s.emitLeds r).cost = s.cost := rfl
@[simp] theorem State.emitLeds_draws (r : OutputRec) : (s.emitLeds r).draws = s.draws := rfl
@[simp] theorem State.emitLeds_reg (r : OutputRec) (i : RegIx) : (s.emitLeds r).reg i = s.reg i := rfl
@[simp] theorem State.emitLeds_ioReg (r : OutputRec) (k' : IoIx) : (s.emitLeds r).ioReg k' = s.ioReg k' := rfl
@[simp] theorem State.emitLeds_memWord (r : OutputRec) (a' : Nat) : (s.emitLeds r).memWord a' = s.memWord a' := rfl
@[simp] theorem State.emitLeds_diskWord (r : OutputRec) (d' : Nat) : (s.emitLeds r).diskWord d' = s.diskWord d' := rfl
@[simp] theorem State.emitLeds_pixel (r : OutputRec) (p' : Nat) : (s.emitLeds r).pixel p' = s.pixel p' := rfl
@[simp] theorem State.emitLeds_clks (r : OutputRec) : (s.emitLeds r).clks = s.clks := rfl

@[simp] theorem State.emitDisplay7seg_x (r : OutputRec) : (s.emitDisplay7seg r).x = s.x := rfl
@[simp] theorem State.emitDisplay7seg_pc (r : OutputRec) : (s.emitDisplay7seg r).pc = s.pc := rfl
@[simp] theorem State.emitDisplay7seg_io (r : OutputRec) : (s.emitDisplay7seg r).io = s.io := rfl
@[simp] theorem State.emitDisplay7seg_mem (r : OutputRec) : (s.emitDisplay7seg r).mem = s.mem := rfl
@[simp] theorem State.emitDisplay7seg_disk (r : OutputRec) : (s.emitDisplay7seg r).disk = s.disk := rfl
@[simp] theorem State.emitDisplay7seg_fb (r : OutputRec) : (s.emitDisplay7seg r).fb = s.fb := rfl
@[simp] theorem State.emitDisplay7seg_inIsr (r : OutputRec) : (s.emitDisplay7seg r).inIsr = s.inIsr := rfl
@[simp] theorem State.emitDisplay7seg_halted (r : OutputRec) : (s.emitDisplay7seg r).halted = s.halted := rfl
@[simp] theorem State.emitDisplay7seg_diskAcc (r : OutputRec) : (s.emitDisplay7seg r).diskAcc = s.diskAcc := rfl
@[simp] theorem State.emitDisplay7seg_schedCursor (r : OutputRec) : (s.emitDisplay7seg r).schedCursor = s.schedCursor := rfl
@[simp] theorem State.emitDisplay7seg_fault (r : OutputRec) : (s.emitDisplay7seg r).fault = s.fault := rfl
@[simp] theorem State.emitDisplay7seg_trace (r : OutputRec) : (s.emitDisplay7seg r).trace = s.trace := rfl
@[simp] theorem State.emitDisplay7seg_hwreg (r : OutputRec) : (s.emitDisplay7seg r).hwreg = s.hwreg := rfl
@[simp] theorem State.emitDisplay7seg_ledsLog (r : OutputRec) : (s.emitDisplay7seg r).ledsLog = s.ledsLog := rfl
@[simp] theorem State.emitDisplay7seg_display7segLog (r : OutputRec) : (s.emitDisplay7seg r).display7segLog = r :: s.display7segLog := rfl
@[simp] theorem State.emitDisplay7seg_irq2Schedule (r : OutputRec) : (s.emitDisplay7seg r).irq2Schedule = s.irq2Schedule := rfl
@[simp] theorem State.emitDisplay7seg_diskLatency (r : OutputRec) : (s.emitDisplay7seg r).diskLatency = s.diskLatency := rfl
@[simp] theorem State.emitDisplay7seg_cost (r : OutputRec) : (s.emitDisplay7seg r).cost = s.cost := rfl
@[simp] theorem State.emitDisplay7seg_draws (r : OutputRec) : (s.emitDisplay7seg r).draws = s.draws := rfl
@[simp] theorem State.emitDisplay7seg_reg (r : OutputRec) (i : RegIx) : (s.emitDisplay7seg r).reg i = s.reg i := rfl
@[simp] theorem State.emitDisplay7seg_ioReg (r : OutputRec) (k' : IoIx) : (s.emitDisplay7seg r).ioReg k' = s.ioReg k' := rfl
@[simp] theorem State.emitDisplay7seg_memWord (r : OutputRec) (a' : Nat) : (s.emitDisplay7seg r).memWord a' = s.memWord a' := rfl
@[simp] theorem State.emitDisplay7seg_diskWord (r : OutputRec) (d' : Nat) : (s.emitDisplay7seg r).diskWord d' = s.diskWord d' := rfl
@[simp] theorem State.emitDisplay7seg_pixel (r : OutputRec) (p' : Nat) : (s.emitDisplay7seg r).pixel p' = s.pixel p' := rfl
@[simp] theorem State.emitDisplay7seg_clks (r : OutputRec) : (s.emitDisplay7seg r).clks = s.clks := rfl

@[simp] theorem State.countDraw_x : (s.countDraw).x = s.x := rfl
@[simp] theorem State.countDraw_pc : (s.countDraw).pc = s.pc := rfl
@[simp] theorem State.countDraw_io : (s.countDraw).io = s.io := rfl
@[simp] theorem State.countDraw_mem : (s.countDraw).mem = s.mem := rfl
@[simp] theorem State.countDraw_disk : (s.countDraw).disk = s.disk := rfl
@[simp] theorem State.countDraw_fb : (s.countDraw).fb = s.fb := rfl
@[simp] theorem State.countDraw_inIsr : (s.countDraw).inIsr = s.inIsr := rfl
@[simp] theorem State.countDraw_halted : (s.countDraw).halted = s.halted := rfl
@[simp] theorem State.countDraw_diskAcc : (s.countDraw).diskAcc = s.diskAcc := rfl
@[simp] theorem State.countDraw_schedCursor : (s.countDraw).schedCursor = s.schedCursor := rfl
@[simp] theorem State.countDraw_fault : (s.countDraw).fault = s.fault := rfl
@[simp] theorem State.countDraw_trace : (s.countDraw).trace = s.trace := rfl
@[simp] theorem State.countDraw_hwreg : (s.countDraw).hwreg = s.hwreg := rfl
@[simp] theorem State.countDraw_ledsLog : (s.countDraw).ledsLog = s.ledsLog := rfl
@[simp] theorem State.countDraw_display7segLog : (s.countDraw).display7segLog = s.display7segLog := rfl
@[simp] theorem State.countDraw_irq2Schedule : (s.countDraw).irq2Schedule = s.irq2Schedule := rfl
@[simp] theorem State.countDraw_diskLatency : (s.countDraw).diskLatency = s.diskLatency := rfl
@[simp] theorem State.countDraw_cost : (s.countDraw).cost = s.cost := rfl
@[simp] theorem State.countDraw_draws : (s.countDraw).draws = s.draws + 1 := rfl
@[simp] theorem State.countDraw_reg (i : RegIx) : (s.countDraw).reg i = s.reg i := rfl
@[simp] theorem State.countDraw_ioReg (k' : IoIx) : (s.countDraw).ioReg k' = s.ioReg k' := rfl
@[simp] theorem State.countDraw_memWord (a' : Nat) : (s.countDraw).memWord a' = s.memWord a' := rfl
@[simp] theorem State.countDraw_diskWord (d' : Nat) : (s.countDraw).diskWord d' = s.diskWord d' := rfl
@[simp] theorem State.countDraw_pixel (p' : Nat) : (s.countDraw).pixel p' = s.pixel p' := rfl
@[simp] theorem State.countDraw_clks : (s.countDraw).clks = s.clks := rfl

@[simp] theorem State.advanceClks_x (n : Nat) : (s.advanceClks n).x = s.x := rfl
@[simp] theorem State.advanceClks_pc (n : Nat) : (s.advanceClks n).pc = s.pc := rfl
@[simp] theorem State.advanceClks_mem (n : Nat) : (s.advanceClks n).mem = s.mem := rfl
@[simp] theorem State.advanceClks_disk (n : Nat) : (s.advanceClks n).disk = s.disk := rfl
@[simp] theorem State.advanceClks_fb (n : Nat) : (s.advanceClks n).fb = s.fb := rfl
@[simp] theorem State.advanceClks_inIsr (n : Nat) : (s.advanceClks n).inIsr = s.inIsr := rfl
@[simp] theorem State.advanceClks_halted (n : Nat) : (s.advanceClks n).halted = s.halted := rfl
@[simp] theorem State.advanceClks_diskAcc (n : Nat) : (s.advanceClks n).diskAcc = s.diskAcc := rfl
@[simp] theorem State.advanceClks_schedCursor (n : Nat) : (s.advanceClks n).schedCursor = s.schedCursor := rfl
@[simp] theorem State.advanceClks_fault (n : Nat) : (s.advanceClks n).fault = s.fault := rfl
@[simp] theorem State.advanceClks_trace (n : Nat) : (s.advanceClks n).trace = s.trace := rfl
@[simp] theorem State.advanceClks_hwreg (n : Nat) : (s.advanceClks n).hwreg = s.hwreg := rfl
@[simp] theorem State.advanceClks_ledsLog (n : Nat) : (s.advanceClks n).ledsLog = s.ledsLog := rfl
@[simp] theorem State.advanceClks_display7segLog (n : Nat) : (s.advanceClks n).display7segLog = s.display7segLog := rfl
@[simp] theorem State.advanceClks_irq2Schedule (n : Nat) : (s.advanceClks n).irq2Schedule = s.irq2Schedule := rfl
@[simp] theorem State.advanceClks_diskLatency (n : Nat) : (s.advanceClks n).diskLatency = s.diskLatency := rfl
@[simp] theorem State.advanceClks_cost (n : Nat) : (s.advanceClks n).cost = s.cost := rfl
@[simp] theorem State.advanceClks_draws (n : Nat) : (s.advanceClks n).draws = s.draws := rfl
@[simp] theorem State.advanceClks_reg (n : Nat) (i : RegIx) : (s.advanceClks n).reg i = s.reg i := rfl
@[simp] theorem State.advanceClks_memWord (n : Nat) (a' : Nat) : (s.advanceClks n).memWord a' = s.memWord a' := rfl
@[simp] theorem State.advanceClks_diskWord (n : Nat) (d' : Nat) : (s.advanceClks n).diskWord d' = s.diskWord d' := rfl
@[simp] theorem State.advanceClks_pixel (n : Nat) (p' : Nat) : (s.advanceClks n).pixel p' = s.pixel p' := rfl

@[simp] theorem State.extraCycle_x : (s.extraCycle).x = s.x := rfl
@[simp] theorem State.extraCycle_pc : (s.extraCycle).pc = s.pc := rfl
@[simp] theorem State.extraCycle_mem : (s.extraCycle).mem = s.mem := rfl
@[simp] theorem State.extraCycle_disk : (s.extraCycle).disk = s.disk := rfl
@[simp] theorem State.extraCycle_fb : (s.extraCycle).fb = s.fb := rfl
@[simp] theorem State.extraCycle_inIsr : (s.extraCycle).inIsr = s.inIsr := rfl
@[simp] theorem State.extraCycle_halted : (s.extraCycle).halted = s.halted := rfl
@[simp] theorem State.extraCycle_diskAcc : (s.extraCycle).diskAcc = s.diskAcc := rfl
@[simp] theorem State.extraCycle_schedCursor : (s.extraCycle).schedCursor = s.schedCursor := rfl
@[simp] theorem State.extraCycle_fault : (s.extraCycle).fault = s.fault := rfl
@[simp] theorem State.extraCycle_trace : (s.extraCycle).trace = s.trace := rfl
@[simp] theorem State.extraCycle_hwreg : (s.extraCycle).hwreg = s.hwreg := rfl
@[simp] theorem State.extraCycle_ledsLog : (s.extraCycle).ledsLog = s.ledsLog := rfl
@[simp] theorem State.extraCycle_display7segLog : (s.extraCycle).display7segLog = s.display7segLog := rfl
@[simp] theorem State.extraCycle_irq2Schedule : (s.extraCycle).irq2Schedule = s.irq2Schedule := rfl
@[simp] theorem State.extraCycle_diskLatency : (s.extraCycle).diskLatency = s.diskLatency := rfl
@[simp] theorem State.extraCycle_cost : (s.extraCycle).cost = s.cost + 1 := rfl
@[simp] theorem State.extraCycle_draws : (s.extraCycle).draws = s.draws := rfl
@[simp] theorem State.extraCycle_reg (i : RegIx) : (s.extraCycle).reg i = s.reg i := rfl
@[simp] theorem State.extraCycle_memWord (a' : Nat) : (s.extraCycle).memWord a' = s.memWord a' := rfl
@[simp] theorem State.extraCycle_diskWord (d' : Nat) : (s.extraCycle).diskWord d' = s.diskWord d' := rfl
@[simp] theorem State.extraCycle_pixel (p' : Nat) : (s.extraCycle).pixel p' = s.pixel p' := rfl

@[simp] theorem State.takeInterrupt_x : (s.takeInterrupt).x = s.x := rfl
@[simp] theorem State.takeInterrupt_pc : (s.takeInterrupt).pc = s.ioReg Io.irqhandler := rfl
@[simp] theorem State.takeInterrupt_mem : (s.takeInterrupt).mem = s.mem := rfl
@[simp] theorem State.takeInterrupt_disk : (s.takeInterrupt).disk = s.disk := rfl
@[simp] theorem State.takeInterrupt_fb : (s.takeInterrupt).fb = s.fb := rfl
@[simp] theorem State.takeInterrupt_inIsr : (s.takeInterrupt).inIsr = true := rfl
@[simp] theorem State.takeInterrupt_halted : (s.takeInterrupt).halted = s.halted := rfl
@[simp] theorem State.takeInterrupt_diskAcc : (s.takeInterrupt).diskAcc = s.diskAcc := rfl
@[simp] theorem State.takeInterrupt_schedCursor : (s.takeInterrupt).schedCursor = s.schedCursor := rfl
@[simp] theorem State.takeInterrupt_fault : (s.takeInterrupt).fault = s.fault := rfl
@[simp] theorem State.takeInterrupt_trace : (s.takeInterrupt).trace = s.trace := rfl
@[simp] theorem State.takeInterrupt_hwreg : (s.takeInterrupt).hwreg = s.hwreg := rfl
@[simp] theorem State.takeInterrupt_ledsLog : (s.takeInterrupt).ledsLog = s.ledsLog := rfl
@[simp] theorem State.takeInterrupt_display7segLog : (s.takeInterrupt).display7segLog = s.display7segLog := rfl
@[simp] theorem State.takeInterrupt_irq2Schedule : (s.takeInterrupt).irq2Schedule = s.irq2Schedule := rfl
@[simp] theorem State.takeInterrupt_diskLatency : (s.takeInterrupt).diskLatency = s.diskLatency := rfl
@[simp] theorem State.takeInterrupt_cost : (s.takeInterrupt).cost = s.cost := rfl
@[simp] theorem State.takeInterrupt_draws : (s.takeInterrupt).draws = s.draws := rfl
@[simp] theorem State.takeInterrupt_reg (i : RegIx) : (s.takeInterrupt).reg i = s.reg i := rfl
@[simp] theorem State.takeInterrupt_memWord (a' : Nat) : (s.takeInterrupt).memWord a' = s.memWord a' := rfl
@[simp] theorem State.takeInterrupt_diskWord (d' : Nat) : (s.takeInterrupt).diskWord d' = s.diskWord d' := rfl
@[simp] theorem State.takeInterrupt_pixel (p' : Nat) : (s.takeInterrupt).pixel p' = s.pixel p' := rfl

@[simp] theorem State.returnFromInterrupt_x : (s.returnFromInterrupt).x = s.x := rfl
@[simp] theorem State.returnFromInterrupt_pc : (s.returnFromInterrupt).pc = s.ioReg Io.irqreturn := rfl
@[simp] theorem State.returnFromInterrupt_io : (s.returnFromInterrupt).io = s.io := rfl
@[simp] theorem State.returnFromInterrupt_mem : (s.returnFromInterrupt).mem = s.mem := rfl
@[simp] theorem State.returnFromInterrupt_disk : (s.returnFromInterrupt).disk = s.disk := rfl
@[simp] theorem State.returnFromInterrupt_fb : (s.returnFromInterrupt).fb = s.fb := rfl
@[simp] theorem State.returnFromInterrupt_inIsr : (s.returnFromInterrupt).inIsr = false := rfl
@[simp] theorem State.returnFromInterrupt_halted : (s.returnFromInterrupt).halted = s.halted := rfl
@[simp] theorem State.returnFromInterrupt_diskAcc : (s.returnFromInterrupt).diskAcc = s.diskAcc := rfl
@[simp] theorem State.returnFromInterrupt_schedCursor : (s.returnFromInterrupt).schedCursor = s.schedCursor := rfl
@[simp] theorem State.returnFromInterrupt_fault : (s.returnFromInterrupt).fault = s.fault := rfl
@[simp] theorem State.returnFromInterrupt_trace : (s.returnFromInterrupt).trace = s.trace := rfl
@[simp] theorem State.returnFromInterrupt_hwreg : (s.returnFromInterrupt).hwreg = s.hwreg := rfl
@[simp] theorem State.returnFromInterrupt_ledsLog : (s.returnFromInterrupt).ledsLog = s.ledsLog := rfl
@[simp] theorem State.returnFromInterrupt_display7segLog : (s.returnFromInterrupt).display7segLog = s.display7segLog := rfl
@[simp] theorem State.returnFromInterrupt_irq2Schedule : (s.returnFromInterrupt).irq2Schedule = s.irq2Schedule := rfl
@[simp] theorem State.returnFromInterrupt_diskLatency : (s.returnFromInterrupt).diskLatency = s.diskLatency := rfl
@[simp] theorem State.returnFromInterrupt_cost : (s.returnFromInterrupt).cost = s.cost := rfl
@[simp] theorem State.returnFromInterrupt_draws : (s.returnFromInterrupt).draws = s.draws := rfl
@[simp] theorem State.returnFromInterrupt_reg (i : RegIx) : (s.returnFromInterrupt).reg i = s.reg i := rfl
@[simp] theorem State.returnFromInterrupt_ioReg (k' : IoIx) : (s.returnFromInterrupt).ioReg k' = s.ioReg k' := rfl
@[simp] theorem State.returnFromInterrupt_memWord (a' : Nat) : (s.returnFromInterrupt).memWord a' = s.memWord a' := rfl
@[simp] theorem State.returnFromInterrupt_diskWord (d' : Nat) : (s.returnFromInterrupt).diskWord d' = s.diskWord d' := rfl
@[simp] theorem State.returnFromInterrupt_pixel (p' : Nat) : (s.returnFromInterrupt).pixel p' = s.pixel p' := rfl
@[simp] theorem State.returnFromInterrupt_clks : (s.returnFromInterrupt).clks = s.clks := rfl

@[simp] theorem State.writeReg_pc (rd : RegIx) (v : RegVal) (b : Bool) : (s.writeReg rd v b).pc = s.pc := by
  unfold State.writeReg; split <;> [rfl; (split <;> rfl)]
@[simp] theorem State.writeReg_io (rd : RegIx) (v : RegVal) (b : Bool) : (s.writeReg rd v b).io = s.io := by
  unfold State.writeReg; split <;> [rfl; (split <;> rfl)]
@[simp] theorem State.writeReg_mem (rd : RegIx) (v : RegVal) (b : Bool) : (s.writeReg rd v b).mem = s.mem := by
  unfold State.writeReg; split <;> [rfl; (split <;> rfl)]
@[simp] theorem State.writeReg_disk (rd : RegIx) (v : RegVal) (b : Bool) : (s.writeReg rd v b).disk = s.disk := by
  unfold State.writeReg; split <;> [rfl; (split <;> rfl)]
@[simp] theorem State.writeReg_fb (rd : RegIx) (v : RegVal) (b : Bool) : (s.writeReg rd v b).fb = s.fb := by
  unfold State.writeReg; split <;> [rfl; (split <;> rfl)]
@[simp] theorem State.writeReg_inIsr (rd : RegIx) (v : RegVal) (b : Bool) : (s.writeReg rd v b).inIsr = s.inIsr := by
  unfold State.writeReg; split <;> [rfl; (split <;> rfl)]
@[simp] theorem State.writeReg_halted (rd : RegIx) (v : RegVal) (b : Bool) : (s.writeReg rd v b).halted = s.halted := by
  unfold State.writeReg; split <;> [rfl; (split <;> rfl)]
@[simp] theorem State.writeReg_diskAcc (rd : RegIx) (v : RegVal) (b : Bool) : (s.writeReg rd v b).diskAcc = s.diskAcc := by
  unfold State.writeReg; split <;> [rfl; (split <;> rfl)]
@[simp] theorem State.writeReg_schedCursor (rd : RegIx) (v : RegVal) (b : Bool) : (s.writeReg rd v b).schedCursor = s.schedCursor := by
  unfold State.writeReg; split <;> [rfl; (split <;> rfl)]
@[simp] theorem State.writeReg_fault (rd : RegIx) (v : RegVal) (b : Bool) : (s.writeReg rd v b).fault = s.fault := by
  unfold State.writeReg; split <;> [rfl; (split <;> rfl)]
@[simp] theorem State.writeReg_trace (rd : RegIx) (v : RegVal) (b : Bool) : (s.writeReg rd v b).trace = s.trace := by
  unfold State.writeReg; split <;> [rfl; (split <;> rfl)]
@[simp] theorem State.writeReg_hwreg (rd : RegIx) (v : RegVal) (b : Bool) : (s.writeReg rd v b).hwreg = s.hwreg := by
  unfold State.writeReg; split <;> [rfl; (split <;> rfl)]
@[simp] theorem State.writeReg_ledsLog (rd : RegIx) (v : RegVal) (b : Bool) : (s.writeReg rd v b).ledsLog = s.ledsLog := by
  unfold State.writeReg; split <;> [rfl; (split <;> rfl)]
@[simp] theorem State.writeReg_display7segLog (rd : RegIx) (v : RegVal) (b : Bool) : (s.writeReg rd v b).display7segLog = s.display7segLog := by
  unfold State.writeReg; split <;> [rfl; (split <;> rfl)]
@[simp] theorem State.writeReg_irq2Schedule (rd : RegIx) (v : RegVal) (b : Bool) : (s.writeReg rd v b).irq2Schedule = s.irq2Schedule := by
  unfold State.writeReg; split <;> [rfl; (split <;> rfl)]
@[simp] theorem State.writeReg_diskLatency (rd : RegIx) (v : RegVal) (b : Bool) : (s.writeReg rd v b).diskLatency = s.diskLatency := by
  unfold State.writeReg; split <;> [rfl; (split <;> rfl)]
@[simp] theorem State.writeReg_cost (rd : RegIx) (v : RegVal) (b : Bool) : (s.writeReg rd v b).cost = s.cost := by
  unfold State.writeReg; split <;> [rfl; (split <;> rfl)]
@[simp] theorem State.writeReg_draws (rd : RegIx) (v : RegVal) (b : Bool) : (s.writeReg rd v b).draws = s.draws := by
  unfold State.writeReg; split <;> [rfl; (split <;> rfl)]
@[simp] theorem State.writeReg_ioReg (rd : RegIx) (v : RegVal) (b : Bool) (k' : IoIx) : (s.writeReg rd v b).ioReg k' = s.ioReg k' := by
  unfold State.writeReg; split <;> [rfl; (split <;> rfl)]
@[simp] theorem State.writeReg_memWord (rd : RegIx) (v : RegVal) (b : Bool) (a' : Nat) : (s.writeReg rd v b).memWord a' = s.memWord a' := by
  unfold State.writeReg; split <;> [rfl; (split <;> rfl)]
@[simp] theorem State.writeReg_diskWord (rd : RegIx) (v : RegVal) (b : Bool) (d' : Nat) : (s.writeReg rd v b).diskWord d' = s.diskWord d' := by
  unfold State.writeReg; split <;> [rfl; (split <;> rfl)]
@[simp] theorem State.writeReg_pixel (rd : RegIx) (v : RegVal) (b : Bool) (p' : Nat) : (s.writeReg rd v b).pixel p' = s.pixel p' := by
  unfold State.writeReg; split <;> [rfl; (split <;> rfl)]
@[simp] theorem State.writeReg_clks (rd : RegIx) (v : RegVal) (b : Bool) : (s.writeReg rd v b).clks = s.clks := by
  unfold State.writeReg; split <;> [rfl; (split <;> rfl)]

end Sys2Proof.Machine
end

