-- ==== Sys2Proof/Laws/Registers.lean ====
section
/-! SUPPORT. The laws of the register files, of the guarded write (R98) and of the indices formed modulo a size. -/

namespace Sys2Proof.Machine

theorem State.reg_setReg (s : State) (i j : RegIx) (v : RegVal) :
    (s.setReg i v).reg j = if j = i then v else s.reg j := by
  have h : i.toNat = j.toNat ↔ j = i :=
    ⟨fun h => (BitVec.eq_of_toNat_eq h).symm, fun h => by rw [h]⟩
  simp [State.reg, State.setReg, Vector.getElem_set, h]

@[simp] theorem State.reg_setReg_self (s : State) (i : RegIx) (v : RegVal) :
    (s.setReg i v).reg i = v := by
  simp [State.reg_setReg]

theorem State.ioReg_setIo (s : State) (k l : IoIx) (v : RegVal) :
    (s.setIo k v).ioReg l = if l = k then v else s.ioReg l := by
  have h : k.val = l.val ↔ l = k := ⟨fun h => (Fin.ext h).symm, fun h => by rw [h]⟩
  simp [State.ioReg, State.setIo, Vector.getElem_set, h]

@[simp] theorem State.ioReg_setIo_self (s : State) (k : IoIx) (v : RegVal) :
    (s.setIo k v).ioReg k = v := by
  simp [State.ioReg_setIo]

/-- Everything the guarded write can do (R98). -/
theorem State.reg_writeReg (s : State) (rd r : RegIx) (v : RegVal) (b : Bool) :
    (s.writeReg rd v b).reg r =
      if r = rd ∧ rd ≠ 0 ∧ (rd = 1 → b = true) then v else s.reg r := by
  unfold State.writeReg
  by_cases h0 : rd = 0
  · simp [h0]
  · by_cases h1 : rd = 1 ∧ b = false
    · simp [h1.1, h1.2]
    · rw [if_neg h0, if_neg h1, State.reg_setReg]
      have : (rd = 1 → b = true) := by
        intro h; cases b <;> simp_all
      by_cases hr : r = rd
      · rw [if_pos hr, if_pos ⟨hr, h0, this⟩]
      · rw [if_neg hr, if_neg fun h => hr h.1]

/-- Register 0 is never written (R98). -/
@[simp] theorem State.reg_zero_writeReg (s : State) (rd : RegIx) (v : RegVal) (b : Bool) :
    (s.writeReg rd v b).reg 0#4 = s.reg 0#4 := by
  rw [State.reg_writeReg, if_neg]
  rintro ⟨h, h0, -⟩; exact h0 h.symm

/-- Register 1 is not written without permission (R98). -/
@[simp] theorem State.reg_one_writeReg (s : State) (rd : RegIx) (v : RegVal) :
    (s.writeReg rd v false).reg 1#4 = s.reg 1#4 := by
  rw [State.reg_writeReg, if_neg]
  rintro ⟨h, -, h1⟩; exact absurd (h1 h.symm) (by decide)

theorem State.ioReg_advanceClks (s : State) (n : Nat) (k : IoIx) :
    (s.advanceClks n).ioReg k = if k = Io.clks then wrap32 (s32 s.clks + n) else s.ioReg k :=
  State.ioReg_setIo ..

theorem State.ioReg_extraCycle (s : State) (k : IoIx) :
    s.extraCycle.ioReg k = if k = Io.clks then wrap32 (s32 s.clks + 1) else s.ioReg k := by
  simp [State.extraCycle, State.ioReg_advanceClks]

theorem State.ioReg_takeInterrupt (s : State) (k : IoIx) :
    s.takeInterrupt.ioReg k = if k = Io.irqreturn then s.pc else s.ioReg k := by
  simp [State.takeInterrupt, State.ioReg_setIo]

theorem wrapIndex_lt (a : Int) {m : Nat} (hm : 0 < m) : wrapIndex a m < m := by
  have h0 := Int.emod_nonneg a (show (m : Int) ≠ 0 by omega)
  have h1 := Int.emod_lt_of_pos a (show (0 : Int) < m by omega)
  unfold wrapIndex
  omega

theorem effectiveAddress_lt (s : State) (rs rt : RegIx) :
    effectiveAddress s rs rt < Config.memDepth := wrapIndex_lt _ (by decide)

/-- Adding integers and wrapping is addition of 32-bit vectors. -/
theorem wrap32_add (a b : RegVal) : wrap32 (s32 a + s32 b) = a + b := by
  simp [wrap32, s32, BitVec.ofInt_add]

theorem wrap32_sub (a b : RegVal) : wrap32 (s32 a - s32 b) = a - b := by
  simp [wrap32, s32, Int.sub_eq_add_neg, BitVec.ofInt_add, BitVec.ofInt_neg, BitVec.sub_eq_add_neg]

theorem wrap32_mul (a b : RegVal) : wrap32 (s32 a * s32 b) = a * b := by
  simp [wrap32, s32, BitVec.ofInt_mul]

theorem s32_inj {a b : RegVal} : s32 a = s32 b ↔ a = b := BitVec.toInt_inj

end Sys2Proof.Machine
end

