-- ==== Sys2Proof/Laws/Exec.lean ====
section
/-! SUPPORT. What the shared operations behind the instructions can do, and what `exec` as a whole can do: each said
once. -/

namespace Sys2Proof.Machine

/-- Everything a conditional branch can do (R130). -/
theorem branchIf_eq (c : Bool) (rd : RegIx) (s : State) :
    branchIf c rd s = s.setPc (if c = true then s.reg rd else s.pc) := by
  cases c <;> rfl

/-- A shift inside 0..31 draws nothing (R117 to R119). -/
theorem writeShift_inRange (s : State) (rd : RegIx) (n : Int) (op : Nat → RegVal)
    (h : 0 ≤ n ∧ n ≤ 31) : writeShift s rd n op = s.writeReg rd (op n.toNat) false := by
  simp [writeShift, shiftValue, h]

/-- A shift outside 0..31 writes a free value (U1). -/
theorem writeShift_outOfRange (s : State) (rd : RegIx) (n : Int) (op : Nat → RegVal)
    (h : ¬ (0 ≤ n ∧ n ≤ 31)) :
    writeShift s rd n op = s.countDraw.writeReg rd (Config.shiftFree s.draws) false := by
  simp only [writeShift, shiftValue, if_neg h]

/-- Everything a shift can do: one guarded write, after which at most the count of draws differs. -/
theorem writeShift_cases (s : State) (rd : RegIx) (n : Int) (op : Nat → RegVal) :
    ∃ v, writeShift s rd n op = s.writeReg rd v false ∨
      writeShift s rd n op = s.countDraw.writeReg rd v false := by
  by_cases h : 0 ≤ n ∧ n ≤ 31
  · exact ⟨_, .inl (writeShift_inRange s rd n op h)⟩
  · exact ⟨_, .inr (writeShift_outOfRange s rd n op h)⟩

/-- Everything the side effect of `out` can do (R154 to R157). -/
theorem outSideEffect_cases (s : State) (c : RegVal) (k : IoIx) (v : RegVal) :
    (k = Io.leds ∧ s.outSideEffect c k v = s.emitLeds { cycle := c, value := v }) ∨
    (k = Io.display7seg ∧ s.outSideEffect c k v = s.emitDisplay7seg { cycle := c, value := v }) ∨
    (k = Io.monitorcmd ∧ v = monitorCmdWrite ∧ s.outSideEffect c k v = s.pixelWrite) ∨
    (k = Io.diskcmd ∧ (v = diskCmdRead ∨ v = diskCmdWrite) ∧
      s.outSideEffect c k v = s.setIo Io.diskstatus diskBusy) ∨
    (k ≠ Io.leds ∧ k ≠ Io.display7seg ∧ (k = Io.monitorcmd → v ≠ monitorCmdWrite) ∧
      (k = Io.diskcmd → v ≠ diskCmdRead ∧ v ≠ diskCmdWrite) ∧ s.outSideEffect c k v = s) := by
  unfold State.outSideEffect
  by_cases h1 : k = Io.leds
  · exact .inl ⟨h1, if_pos h1⟩
  by_cases h2 : k = Io.display7seg
  · exact .inr (.inl ⟨h2, by rw [if_neg h1, if_pos h2]⟩)
  rw [if_neg h1, if_neg h2]
  by_cases h3 : k = Io.monitorcmd
  · rw [if_pos h3]
    by_cases hv : v = monitorCmdWrite
    · exact .inr (.inr (.inl ⟨h3, hv, if_pos hv⟩))
    · refine .inr (.inr (.inr (.inr ⟨h1, h2, fun _ => hv, ?_, if_neg hv⟩)))
      intro h; rw [h3] at h; exact absurd h (by decide)
  rw [if_neg h3]
  by_cases h4 : k = Io.diskcmd
  · rw [if_pos h4]
    by_cases hv : v = diskCmdRead ∨ v = diskCmdWrite
    · exact .inr (.inr (.inr (.inl ⟨h4, hv, if_pos hv⟩)))
    · exact .inr (.inr (.inr (.inr
        ⟨h1, h2, fun h => absurd h h3, fun _ => not_or.1 hv, if_neg hv⟩)))
  · rw [if_neg h4]
    exact .inr (.inr (.inr (.inr ⟨h1, h2, fun h => absurd h h3, fun h => absurd h h4, rfl⟩)))

@[simp] theorem writeShift_pc (s : State) (rd : RegIx) (n : Int) (op : Nat → RegVal) :
    (writeShift s rd n op).pc = s.pc := by
  obtain ⟨v, h | h⟩ := writeShift_cases s rd n op <;> simp [h]
@[simp] theorem writeShift_io (s : State) (rd : RegIx) (n : Int) (op : Nat → RegVal) :
    (writeShift s rd n op).io = s.io := by
  obtain ⟨v, h | h⟩ := writeShift_cases s rd n op <;> simp [h]
@[simp] theorem writeShift_mem (s : State) (rd : RegIx) (n : Int) (op : Nat → RegVal) :
    (writeShift s rd n op).mem = s.mem := by
  obtain ⟨v, h | h⟩ := writeShift_cases s rd n op <;> simp [h]
@[simp] theorem writeShift_disk (s : State) (rd : RegIx) (n : Int) (op : Nat → RegVal) :
    (writeShift s rd n op).disk = s.disk := by
  obtain ⟨v, h | h⟩ := writeShift_cases s rd n op <;> simp [h]
@[simp] theorem writeShift_fb (s : State) (rd : RegIx) (n : Int) (op : Nat → RegVal) :
    (writeShift s rd n op).fb = s.fb := by
  obtain ⟨v, h | h⟩ := writeShift_cases s rd n op <;> simp [h]
@[simp] theorem writeShift_inIsr (s : State) (rd : RegIx) (n : Int) (op : Nat → RegVal) :
    (writeShift s rd n op).inIsr = s.inIsr := by
  obtain ⟨v, h | h⟩ := writeShift_cases s rd n op <;> simp [h]
@[simp] theorem writeShift_halted (s : State) (rd : RegIx) (n : Int) (op : Nat → RegVal) :
    (writeShift s rd n op).halted = s.halted := by
  obtain ⟨v, h | h⟩ := writeShift_cases s rd n op <;> simp [h]
@[simp] theorem writeShift_diskAcc (s : State) (rd : RegIx) (n : Int) (op : Nat → RegVal) :
    (writeShift s rd n op).diskAcc = s.diskAcc := by
  obtain ⟨v, h | h⟩ := writeShift_cases s rd n op <;> simp [h]
@[simp] theorem writeShift_schedCursor (s : State) (rd : RegIx) (n : Int) (op : Nat → RegVal) :
    (writeShift s rd n op).schedCursor = s.schedCursor := by
  obtain ⟨v, h | h⟩ := writeShift_cases s rd n op <;> simp [h]
@[simp] theorem writeShift_fault (s : State) (rd : RegIx) (n : Int) (op : Nat → RegVal) :
    (writeShift s rd n op).fault = s.fault := by
  obtain ⟨v, h | h⟩ := writeShift_cases s rd n op <;> simp [h]
@[simp] theorem writeShift_trace (s : State) (rd : RegIx) (n : Int) (op : Nat → RegVal) :
    (writeShift s rd n op).trace = s.trace := by
  obtain ⟨v, h | h⟩ := writeShift_cases s rd n op <;> simp [h]
@[simp] theorem writeShift_hwreg (s : State) (rd : RegIx) (n : Int) (op : Nat → RegVal) :
    (writeShift s rd n op).hwreg = s.hwreg := by
  obtain ⟨v, h | h⟩ := writeShift_cases s rd n op <;> simp [h]
@[simp] theorem writeShift_ledsLog (s : State) (rd : RegIx) (n : Int) (op : Nat → RegVal) :
    (writeShift s rd n op).ledsLog = s.ledsLog := by
  obtain ⟨v, h | h⟩ := writeShift_cases s rd n op <;> simp [h]
@[simp] theorem writeShift_display7segLog (s : State) (rd : RegIx) (n : Int) (op : Nat → RegVal) :
    (writeShift s rd n op).display7segLog = s.display7segLog := by
  obtain ⟨v, h | h⟩ := writeShift_cases s rd n op <;> simp [h]
@[simp] theorem writeShift_irq2Schedule (s : State) (rd : RegIx) (n : Int) (op : Nat → RegVal) :
    (writeShift s rd n op).irq2Schedule = s.irq2Schedule := by
  obtain ⟨v, h | h⟩ := writeShift_cases s rd n op <;> simp [h]
@[simp] theorem writeShift_diskLatency (s : State) (rd : RegIx) (n : Int) (op : Nat → RegVal) :
    (writeShift s rd n op).diskLatency = s.diskLatency := by
  obtain ⟨v, h | h⟩ := writeShift_cases s rd n op <;> simp [h]
@[simp] theorem writeShift_cost (s : State) (rd : RegIx) (n : Int) (op : Nat → RegVal) :
    (writeShift s rd n op).cost = s.cost := by
  obtain ⟨v, h | h⟩ := writeShift_cases s rd n op <;> simp [h]

@[simp] theorem branchIf_x (c : Bool) (rd : RegIx) (s : State) : (branchIf c rd s).x = s.x := by
  rw [branchIf_eq]; rfl
@[simp] theorem branchIf_io (c : Bool) (rd : RegIx) (s : State) : (branchIf c rd s).io = s.io := by
  rw [branchIf_eq]; rfl
@[simp] theorem branchIf_mem (c : Bool) (rd : RegIx) (s : State) : (branchIf c rd s).mem = s.mem := by
  rw [branchIf_eq]; rfl
@[simp] theorem branchIf_disk (c : Bool) (rd : RegIx) (s : State) : (branchIf c rd s).disk = s.disk := by
  rw [branchIf_eq]; rfl
@[simp] theorem branchIf_fb (c : Bool) (rd : RegIx) (s : State) : (branchIf c rd s).fb = s.fb := by
  rw [branchIf_eq]; rfl
@[simp] theorem branchIf_inIsr (c : Bool) (rd : RegIx) (s : State) : (branchIf c rd s).inIsr = s.inIsr := by
  rw [branchIf_eq]; rfl
@[simp] theorem branchIf_halted (c : Bool) (rd : RegIx) (s : State) : (branchIf c rd s).halted = s.halted := by
  rw [branchIf_eq]; rfl
@[simp] theorem branchIf_diskAcc (c : Bool) (rd : RegIx) (s : State) : (branchIf c rd s).diskAcc = s.diskAcc := by
  rw [branchIf_eq]; rfl
@[simp] theorem branchIf_schedCursor (c : Bool) (rd : RegIx) (s : State) : (branchIf c rd s).schedCursor = s.schedCursor := by
  rw [branchIf_eq]; rfl
@[simp] theorem branchIf_fault (c : Bool) (rd : RegIx) (s : State) : (branchIf c rd s).fault = s.fault := by
  rw [branchIf_eq]; rfl
@[simp] theorem branchIf_trace (c : Bool) (rd : RegIx) (s : State) : (branchIf c rd s).trace = s.trace := by
  rw [branchIf_eq]; rfl
@[simp] theorem branchIf_hwreg (c : Bool) (rd : RegIx) (s : State) : (branchIf c rd s).hwreg = s.hwreg := by
  rw [branchIf_eq]; rfl
@[simp] theorem branchIf_ledsLog (c : Bool) (rd : RegIx) (s : State) : (branchIf c rd s).ledsLog = s.ledsLog := by
  rw [branchIf_eq]; rfl
@[simp] theorem branchIf_display7segLog (c : Bool) (rd : RegIx) (s : State) : (branchIf c rd s).display7segLog = s.display7segLog := by
  rw [branchIf_eq]; rfl
@[simp] theorem branchIf_irq2Schedule (c : Bool) (rd : RegIx) (s : State) : (branchIf c rd s).irq2Schedule = s.irq2Schedule := by
  rw [branchIf_eq]; rfl
@[simp] theorem branchIf_diskLatency (c : Bool) (rd : RegIx) (s : State) : (branchIf c rd s).diskLatency = s.diskLatency := by
  rw [branchIf_eq]; rfl
@[simp] theorem branchIf_cost (c : Bool) (rd : RegIx) (s : State) : (branchIf c rd s).cost = s.cost := by
  rw [branchIf_eq]; rfl
@[simp] theorem branchIf_draws (c : Bool) (rd : RegIx) (s : State) : (branchIf c rd s).draws = s.draws := by
  rw [branchIf_eq]; rfl

@[simp] theorem outSideEffect_x (s : State) (c : RegVal) (k : IoIx) (v : RegVal) :
    (s.outSideEffect c k v).x = s.x := by
  unfold State.outSideEffect; split_ifs <;> rfl
@[simp] theorem outSideEffect_pc (s : State) (c : RegVal) (k : IoIx) (v : RegVal) :
    (s.outSideEffect c k v).pc = s.pc := by
  unfold State.outSideEffect; split_ifs <;> rfl
@[simp] theorem outSideEffect_mem (s : State) (c : RegVal) (k : IoIx) (v : RegVal) :
    (s.outSideEffect c k v).mem = s.mem := by
  unfold State.outSideEffect; split_ifs <;> rfl
@[simp] theorem outSideEffect_disk (s : State) (c : RegVal) (k : IoIx) (v : RegVal) :
    (s.outSideEffect c k v).disk = s.disk := by
  unfold State.outSideEffect; split_ifs <;> rfl
@[simp] theorem outSideEffect_inIsr (s : State) (c : RegVal) (k : IoIx) (v : RegVal) :
    (s.outSideEffect c k v).inIsr = s.inIsr := by
  unfold State.outSideEffect; split_ifs <;> rfl
@[simp] theorem outSideEffect_halted (s : State) (c : RegVal) (k : IoIx) (v : RegVal) :
    (s.outSideEffect c k v).halted = s.halted := by
  unfold State.outSideEffect; split_ifs <;> rfl
@[simp] theorem outSideEffect_diskAcc (s : State) (c : RegVal) (k : IoIx) (v : RegVal) :
    (s.outSideEffect c k v).diskAcc = s.diskAcc := by
  unfold State.outSideEffect; split_ifs <;> rfl
@[simp] theorem outSideEffect_schedCursor (s : State) (c : RegVal) (k : IoIx) (v : RegVal) :
    (s.outSideEffect c k v).schedCursor = s.schedCursor := by
  unfold State.outSideEffect; split_ifs <;> rfl
@[simp] theorem outSideEffect_fault (s : State) (c : RegVal) (k : IoIx) (v : RegVal) :
    (s.outSideEffect c k v).fault = s.fault := by
  unfold State.outSideEffect; split_ifs <;> rfl
@[simp] theorem outSideEffect_trace (s : State) (c : RegVal) (k : IoIx) (v : RegVal) :
    (s.outSideEffect c k v).trace = s.trace := by
  unfold State.outSideEffect; split_ifs <;> rfl
@[simp] theorem outSideEffect_hwreg (s : State) (c : RegVal) (k : IoIx) (v : RegVal) :
    (s.outSideEffect c k v).hwreg = s.hwreg := by
  unfold State.outSideEffect; split_ifs <;> rfl
@[simp] theorem outSideEffect_irq2Schedule (s : State) (c : RegVal) (k : IoIx) (v : RegVal) :
    (s.outSideEffect c k v).irq2Schedule = s.irq2Schedule := by
  unfold State.outSideEffect; split_ifs <;> rfl
@[simp] theorem outSideEffect_diskLatency (s : State) (c : RegVal) (k : IoIx) (v : RegVal) :
    (s.outSideEffect c k v).diskLatency = s.diskLatency := by
  unfold State.outSideEffect; split_ifs <;> rfl
@[simp] theorem outSideEffect_cost (s : State) (c : RegVal) (k : IoIx) (v : RegVal) :
    (s.outSideEffect c k v).cost = s.cost := by
  unfold State.outSideEffect; split_ifs <;> rfl
@[simp] theorem outSideEffect_draws (s : State) (c : RegVal) (k : IoIx) (v : RegVal) :
    (s.outSideEffect c k v).draws = s.draws := by
  unfold State.outSideEffect; split_ifs <;> rfl

/-- Every instruction completes: no arm of `exec` stops (R101). -/
theorem exec_completes (i : Instr) (s : State) : ∃ t, exec i s = .next t := by
  cases i <;> exact ⟨_, rfl⟩

/-- What no instruction writes: the disk, the controllers' own state, `fault`, the trace, the run inputs. -/
structure State.SameHidden (s t : State) : Prop where
  disk : t.disk = s.disk
  diskAcc : t.diskAcc = s.diskAcc
  schedCursor : t.schedCursor = s.schedCursor
  fault : t.fault = s.fault
  trace : t.trace = s.trace
  irq2Schedule : t.irq2Schedule = s.irq2Schedule
  diskLatency : t.diskLatency = s.diskLatency

/-- No instruction writes the hidden state. -/
theorem exec_sameHidden {i : Instr} {s t : State} (h : exec i s = .next t) : s.SameHidden t := by
  cases i <;> cases h <;> constructor <;> simp

/-- Only `sw` writes main memory (R37). -/
theorem exec_mem {i : Instr} {s t : State} (h : exec i s = .next t) :
    t.mem = s.mem ∨ ∃ rd rs rt, i = .sw rd rs rt ∧
      t.mem = Cells.write s.mem (effectiveAddress s rs rt) (low20 (s.reg rd)) := by
  cases i <;> cases h
  case sw rd rs rt => exact .inr ⟨rd, rs, rt, rfl, rfl⟩
  all_goals (left; simp)

/-- Only an `out` of 1 to `monitorcmd` writes the framebuffer (R39, R156). -/
theorem exec_fb {i : Instr} {s t : State} (h : exec i s = .next t) :
    t.fb = s.fb ∨ ∃ rd rs rt, i = .ioOut rd rs rt ∧ ioIndex s rs rt = Io.monitorcmd ∧
      s.reg rd = monitorCmdWrite ∧
      t.fb = Cells.write s.fb (wrapIndex (s32 (s.ioReg Io.monitoraddr)) Config.pixelCount)
        (low8 (s.ioReg Io.monitordata)) := by
  cases i <;> cases h
  case ioOut rd rs rt =>
    rcases outSideEffect_cases ((s.setIo (ioIndex s rs rt) (s.reg rd)).emitHwreg
        { cycle := s.clks, dir := .write, index := ioIndex s rs rt, value := s.reg rd })
        s.clks (ioIndex s rs rt) (s.reg rd) with h | h | h | h | h
    · rw [h.2]; exact .inl rfl
    · rw [h.2]; exact .inl rfl
    · rw [h.2.2]
      refine .inr ⟨rd, rs, rt, rfl, h.1, h.2.1, ?_⟩
      simp +decide [State.pixelWrite, State.ioReg_setIo, h.1]
    · rw [h.2.2]; exact .inl rfl
    · rw [h.2.2.2.2]; exact .inl rfl
  all_goals (left; simp)

/-- Only `reti` writes `in_isr` in `Execute` (R41). -/
theorem exec_inIsr {i : Instr} {s t : State} (h : exec i s = .next t) :
    t.inIsr = s.inIsr ∨ ∃ rd rs rt, i = .reti rd rs rt ∧ t = s.returnFromInterrupt := by
  cases i <;> cases h
  case reti rd rs rt => exact .inr ⟨rd, rs, rt, rfl, rfl⟩
  all_goals (left; simp)

/-- Only `halt` writes `halted` (R42). -/
theorem exec_halted {i : Instr} {s t : State} (h : exec i s = .next t) :
    t.halted = s.halted ∨ ∃ rd rs rt, i = .halt rd rs rt ∧ t = s.setHalted := by
  cases i <;> cases h
  case halt rd rs rt => exact .inr ⟨rd, rs, rt, rfl, rfl⟩
  all_goals (left; simp)

/-- `Execute` writes an I/O register only by `out`, and `clks` also by the extra cycle of `lw` and `sw` (R18,
R23). -/
theorem exec_ioReg {i : Instr} {s t : State} (h : exec i s = .next t)
    (hout : ∀ rd rs rt, i ≠ .ioOut rd rs rt) (k : IoIx) (hk : k ≠ Io.clks) :
    t.ioReg k = s.ioReg k := by
  cases i <;> cases h
  case ioOut rd rs rt => exact absurd rfl (hout rd rs rt)
  case lw => simp [State.ioReg_extraCycle, hk]
  case sw => simp [State.ioReg_extraCycle, hk]
  all_goals simp [State.ioReg]

@[simp] theorem writeShift_reg_zero (s : State) (rd : RegIx) (n : Int) (op : Nat → RegVal) :
    (writeShift s rd n op).reg 0#4 = s.reg 0#4 := by
  obtain ⟨v, h | h⟩ := writeShift_cases s rd n op <;> simp [h]

@[simp] theorem writeShift_reg_one (s : State) (rd : RegIx) (n : Int) (op : Nat → RegVal) :
    (writeShift s rd n op).reg 1#4 = s.reg 1#4 := by
  obtain ⟨v, h | h⟩ := writeShift_cases s rd n op <;> simp [h]

@[simp] theorem branchIf_reg (c : Bool) (rd : RegIx) (s : State) (r : RegIx) :
    (branchIf c rd s).reg r = s.reg r := by
  simp [State.reg]

@[simp] theorem outSideEffect_reg (s : State) (c : RegVal) (k : IoIx) (v : RegVal) (r : RegIx) :
    (s.outSideEffect c k v).reg r = s.reg r := by
  simp [State.reg]

/-- `Execute` never writes register 0 (R11, R98). -/
theorem exec_reg_zero {i : Instr} {s t : State} (h : exec i s = .next t) : t.reg 0 = s.reg 0 := by
  cases i <;> cases h <;> simp

end Sys2Proof.Machine
end

