-- ==== Sys2Proof/Laws/Storage.lean ====
section
/-! SUPPORT. The laws of storage: a read after a write, the canonical form and what keeps it, and the load of an
image. -/

namespace Sys2Proof.Machine

variable {w : Nat} {depth : Nat}

theorem Cells.wfFrom_cons_iff {lo k : Nat} {v : BitVec w} {c : Cells w} :
    Cells.wfFrom depth lo ((k, v) :: c) = true ↔
      lo ≤ k ∧ k < depth ∧ v ≠ 0#w ∧ Cells.wfFrom depth (k + 1) c = true := by
  simp [Cells.wfFrom, and_assoc]

theorem Cells.wfFrom_mono {lo lo' : Nat} {c : Cells w} (h : Cells.wfFrom depth lo c = true)
    (hle : lo' ≤ lo) : Cells.wfFrom depth lo' c = true := by
  cases c with
  | nil => rfl
  | cons e c =>
    obtain ⟨k, v⟩ := e
    rw [Cells.wfFrom_cons_iff] at h ⊢
    exact ⟨by omega, h.2⟩

/-- Below the first admitted index everything reads 0. -/
theorem Cells.read_below {lo a : Nat} {c : Cells w} (h : Cells.wfFrom depth lo c = true)
    (ha : a < lo) : Cells.read c a = 0#w := by
  cases c with
  | nil => rfl
  | cons e c =>
    obtain ⟨k, v⟩ := e
    have := (Cells.wfFrom_cons_iff.1 h).1
    rw [Cells.read, if_pos (by omega)]

/-- From the depth on everything reads 0. -/
theorem Cells.read_beyond {a : Nat} (ha : depth ≤ a) :
    ∀ {lo : Nat} {c : Cells w}, Cells.wfFrom depth lo c = true → Cells.read c a = 0#w
  | _, [], _ => rfl
  | _, (k, v) :: c, h => by
    have h' := Cells.wfFrom_cons_iff.1 h
    rw [Cells.read, if_neg (by omega), if_neg (by omega)]
    exact Cells.read_beyond ha h'.2.2.2

/-- A read after a write: the written index gives the written element, every other index what it gave. -/
theorem Cells.read_write (a : Nat) (v : BitVec w) (b : Nat) :
    ∀ {lo : Nat} {c : Cells w}, Cells.wfFrom depth lo c = true →
      Cells.read (Cells.write c a v) b = if b = a then v else Cells.read c b
  | _, [], _ => by
    unfold Cells.write
    by_cases hv : v = 0#w <;> by_cases hb : b = a <;> simp [Cells.read, hv, hb]
  | lo, (k, u) :: c, h => by
    obtain ⟨-, -, -, hc⟩ := Cells.wfFrom_cons_iff.1 h
    have ih := Cells.read_write a v b hc
    have hlow : ∀ x, x ≤ k → Cells.read c x = 0#w := fun x hx => Cells.read_below hc (by omega)
    unfold Cells.write
    by_cases h1 : a < k
    · rw [if_pos h1]
      by_cases hv : v = 0#w
      · subst hv; by_cases hb : b = a
        · subst hb; simp [Cells.read, h1]
        · simp [hb]
      · rw [if_neg hv, Cells.read]
        by_cases hb : b = a
        · simp [hb]
        · by_cases hlt : b < a
          · simp [Cells.read, hb, hlt, show b < k by omega]
          · simp [hb, hlt]
    · rw [if_neg h1]
      by_cases h2 : a = k
      · subst h2
        rw [if_pos rfl]
        by_cases hv : v = 0#w
        · subst hv
          by_cases hb : b = a
          · simp [hb, hlow]
          · by_cases hlt : b < a
            · simp [Cells.read, hb, hlt, hlow b (by omega)]
            · simp [Cells.read, hb, hlt]
        · by_cases hb : b = a <;> simp [Cells.read, hv, hb]
      · rw [if_neg h2]
        unfold Cells.read
        rw [ih]
        by_cases hb : b = a
        · subst hb; simp [h1, h2]
        · simp [hb]

/-- A write inside the depth keeps the canonical form. -/
theorem Cells.wfFrom_write (a : Nat) (v : BitVec w) (hd : a < depth) :
    ∀ {lo : Nat} {c : Cells w}, Cells.wfFrom depth lo c = true → lo ≤ a →
      Cells.wfFrom depth lo (Cells.write c a v) = true
  | lo, [], _, hlo => by
    unfold Cells.write
    by_cases hv : v = 0#w <;> simp [hv, Cells.wfFrom, hlo, hd]
  | lo, (k, u) :: c, h, hlo => by
    obtain ⟨h1, h2, h3, hc⟩ := Cells.wfFrom_cons_iff.1 h
    unfold Cells.write
    by_cases hak : a < k
    · rw [if_pos hak]
      by_cases hv : v = 0#w
      · rw [if_pos hv]; exact h
      · rw [if_neg hv, Cells.wfFrom_cons_iff, Cells.wfFrom_cons_iff]
        exact ⟨hlo, hd, hv, by omega, h2, h3, hc⟩
    · rw [if_neg hak]
      by_cases hk : a = k
      · rw [if_pos hk]
        by_cases hv : v = 0#w
        · rw [if_pos hv]; exact Cells.wfFrom_mono hc (by omega)
        · rw [if_neg hv, Cells.wfFrom_cons_iff]
          exact ⟨hlo, hd, hv, hk ▸ hc⟩
      · rw [if_neg hk, Cells.wfFrom_cons_iff]
        exact ⟨h1, h2, h3, Cells.wfFrom_write a v hd hc (by omega)⟩

/-- Canonical stores that read alike are equal. -/
theorem Cells.ext_of_read : ∀ {lo : Nat} {c d : Cells w}, Cells.wfFrom depth lo c = true →
    Cells.wfFrom depth lo d = true → (∀ a, Cells.read c a = Cells.read d a) → c = d
  | _, [], [], _, _, _ => rfl
  | _, [], (k, v) :: d, _, hd, h => by
    exact absurd (by simpa [Cells.read] using (h k).symm) (Cells.wfFrom_cons_iff.1 hd).2.2.1
  | _, (k, v) :: c, [], hc, _, h => by
    exact absurd (by simpa [Cells.read] using h k) (Cells.wfFrom_cons_iff.1 hc).2.2.1
  | _, (k, v) :: c, (l, u) :: d, hc, hd, h => by
    obtain ⟨-, -, hv, hc'⟩ := Cells.wfFrom_cons_iff.1 hc
    obtain ⟨-, -, hu, hd'⟩ := Cells.wfFrom_cons_iff.1 hd
    have hkl : k = l := by
      rcases Nat.lt_trichotomy k l with hlt | heq | hgt
      · exact absurd (by simpa [Cells.read, hlt] using h k) hv
      · exact heq
      · exact absurd (by simpa [Cells.read, hgt] using (h l).symm) hu
    subst hkl
    have hvu : v = u := by simpa [Cells.read] using h k
    subst hvu
    refine congrArg _ (Cells.ext_of_read hc' hd' fun a => ?_)
    by_cases ha : a ≤ k
    · rw [Cells.read_below hc' (by omega), Cells.read_below hd' (by omega)]
    · simpa [Cells.read, show ¬ a < k by omega, show a ≠ k by omega] using h a

/-- A loaded image lists its elements that are not 0, from index `start` on. -/
theorem loadCells_wf : ∀ (start : Nat) (l : List (BitVec w)), start + l.length ≤ depth →
    Cells.wfFrom depth start (loadCells start l) = true
  | _, [], _ => rfl
  | start, v :: l, h => by
    have h' : start + 1 + l.length ≤ depth := by simp at h; omega
    have ih := loadCells_wf (start + 1) l h'
    unfold loadCells
    by_cases hv : v = 0#w
    · rw [if_pos hv]; exact Cells.wfFrom_mono ih (by omega)
    · rw [if_neg hv, Cells.wfFrom_cons_iff]
      exact ⟨le_refl _, by omega, hv, ih⟩

/-- Below its first index a loaded image reads 0. -/
theorem read_loadCells_below : ∀ (start : Nat) (l : List (BitVec w)) (a : Nat), a < start →
    Cells.read (loadCells start l) a = 0#w
  | _, [], _, _ => rfl
  | start, v :: l, a, h => by
    unfold loadCells
    by_cases hv : v = 0#w
    · rw [if_pos hv]; exact read_loadCells_below (start + 1) l a (by omega)
    · rw [if_neg hv, Cells.read, if_pos h]

/-- What an image reads after its load: line `i` at index `start + i`, 0 beyond the last line (R58). -/
theorem read_loadCells : ∀ (start : Nat) (l : List (BitVec w)) (i : Nat),
    Cells.read (loadCells start l) (start + i) = l.getD i 0#w
  | _, [], _ => by simp [loadCells, Cells.read]
  | start, v :: l, i => by
    unfold loadCells
    cases i with
    | zero =>
      by_cases hv : v = 0#w
      · rw [if_pos hv, read_loadCells_below _ _ _ (by omega)]; simp [hv]
      · simp [hv, Cells.read]
    | succ i =>
      have ih := read_loadCells (start + 1) l i
      rw [show start + 1 + i = start + (i + 1) by omega] at ih
      by_cases hv : v = 0#w
      · rw [if_pos hv, ih]; simp
      · rw [if_neg hv, Cells.read, if_neg (by omega), if_neg (by omega), ih]; simp

/-- A word written to memory is read back, and every other address reads as before. -/
theorem State.memWord_setMemWord (s : State) (a b : Nat) (v : Word) (h : Memory.wf s.mem = true) :
    (s.setMemWord a v).memWord b = if b = a then v else s.memWord b := by
  simp [State.memWord, Cells.read_write a v b h]

/-- A pixel written is read back, and every other pixel reads as before. -/
theorem State.pixel_setPixel (s : State) (p q : Nat) (v : Pixel) (h : Framebuffer.wf s.fb = true) :
    (s.setPixel p v).pixel q = if q = p then v else s.pixel q := by
  simp [State.pixel, Cells.read_write p v q h]

theorem Memory.wf_write (m : Memory) (a : Nat) (v : Word) (ha : a < Config.memDepth)
    (h : Memory.wf m = true) : Memory.wf (Cells.write m a v) = true :=
  Cells.wfFrom_write a v ha h (Nat.zero_le a)

theorem Disk.wf_write (d : Disk) (a : Nat) (v : Word) (ha : a < Config.diskDepth)
    (h : Disk.wf d = true) : Disk.wf (Cells.write d a v) = true :=
  Cells.wfFrom_write a v ha h (Nat.zero_le a)

theorem Framebuffer.wf_write (f : Framebuffer) (a : Nat) (v : Pixel) (ha : a < Config.pixelCount)
    (h : Framebuffer.wf f = true) : Framebuffer.wf (Cells.write f a v) = true :=
  Cells.wfFrom_write a v ha h (Nat.zero_le a)

end Sys2Proof.Machine
end

