-- ==== Sys2Proof/Laws/Peripherals.lean ====
section
/-! SUPPORT. What each part of the peripheral phase can do, said once (`spec/60_exceptions.md` rules R181, R187, R189, R195, R196,
R202 to R204), and what the whole phase leaves alone. -/

namespace Sys2Proof.Machine

/-- Everything the injector can do (R181). -/
theorem injectScheduled_cases (s : State) :
    (∃ t, s.irq2Schedule[s.schedCursor]? = some t ∧ t ≤ s32 s.clks ∧
      s.injectScheduled =
        (s.setIo Io.irq2status statusSet).setSchedCursor (s.schedCursor + 1)) ∨
    ((∀ t, s.irq2Schedule[s.schedCursor]? = some t → s32 s.clks < t) ∧ s.injectScheduled = s) := by
  unfold State.injectScheduled
  cases h : s.irq2Schedule[s.schedCursor]? with
  | none => exact .inr ⟨fun t ht => (nomatch ht), rfl⟩
  | some t =>
    by_cases ht : t ≤ s32 s.clks
    · exact .inl ⟨t, rfl, ht, by simp only [if_pos ht]⟩
    · refine .inr ⟨fun u hu => ?_, by simp only [if_neg ht]⟩
      cases hu; omega

/-- Everything the disk sequencer can do (R202). -/
theorem diskProgress_cases (s : State) :
    (s.ioReg Io.diskstatus ≠ diskBusy ∧ s.diskProgress = s) ∨
    (s.ioReg Io.diskstatus = diskBusy ∧ s.diskAcc + s.cost < s.diskLatency ∧
      s.diskProgress = s.setDiskAcc (s.diskAcc + s.cost)) ∨
    (s.ioReg Io.diskstatus = diskBusy ∧ s.diskLatency ≤ s.diskAcc + s.cost ∧
      s.diskProgress = (s.setDiskAcc (s.diskAcc + s.cost)).completeTransfer) := by
  unfold State.diskProgress
  by_cases h : s.ioReg Io.diskstatus = diskBusy
  · rw [if_pos h]
    by_cases hl : s.diskLatency ≤ s.diskAcc + s.cost
    · exact .inr (.inr ⟨h, hl, if_pos hl⟩)
    · exact .inr (.inl ⟨h, by omega, if_neg hl⟩)
  · exact .inl ⟨h, if_neg h⟩

/-- Everything a transfer can do (R203). -/
theorem transfer_cases (s : State) :
    (s.ioReg Io.diskcmd = diskCmdRead ∧ s.transfer = s.transferRead) ∨
    (s.ioReg Io.diskcmd = diskCmdWrite ∧ s.transfer = s.transferWrite) ∨
    (s.ioReg Io.diskcmd ≠ diskCmdRead ∧ s.ioReg Io.diskcmd ≠ diskCmdWrite ∧ s.transfer = s) := by
  unfold State.transfer
  by_cases h1 : s.ioReg Io.diskcmd = diskCmdRead
  · exact .inl ⟨h1, if_pos h1⟩
  · rw [if_neg h1]
    by_cases h2 : s.ioReg Io.diskcmd = diskCmdWrite
    · exact .inr (.inl ⟨h2, if_pos h2⟩)
    · exact .inr (.inr ⟨h1, h2, if_neg h2⟩)

/-- Everything the timer can do (R195, R196), with the count it reaches. -/
theorem timerProgress_cases (s : State) :
    (s.ioReg Io.timerenable = 0 ∧ s.timerProgress = s) ∨
    (s.ioReg Io.timerenable ≠ 0 ∧
      s32 (wrap32 (s32 (s.ioReg Io.timercurrent) + s.cost)) < s32 (s.ioReg Io.timermax) ∧
      s.timerProgress =
        s.setIo Io.timercurrent (wrap32 (s32 (s.ioReg Io.timercurrent) + s.cost))) ∨
    (s.ioReg Io.timerenable ≠ 0 ∧
      s32 (s.ioReg Io.timermax) ≤ s32 (wrap32 (s32 (s.ioReg Io.timercurrent) + s.cost)) ∧
      s.timerProgress =
        (s.setIo Io.timercurrent (wrap32 (s32 (s.ioReg Io.timercurrent) + s.cost))).timerExpire) := by
  unfold State.timerProgress
  by_cases h : s.ioReg Io.timerenable = 0
  · exact .inl ⟨h, if_neg (fun h' => h' h)⟩
  · rw [if_pos h]
    have hm : (s.setIo Io.timercurrent
        (wrap32 (s32 (s.ioReg Io.timercurrent) + s.cost))).ioReg Io.timermax = s.ioReg Io.timermax := by
      rw [State.ioReg_setIo, if_neg (by decide)]
    simp only [hm, State.ioReg_setIo_self]
    by_cases hl : s32 (s.ioReg Io.timermax) ≤ s32 (wrap32 (s32 (s.ioReg Io.timercurrent) + s.cost))
    · exact .inr (.inr ⟨h, hl, if_pos hl⟩)
    · exact .inr (.inl ⟨h, by omega, if_neg hl⟩)

/-- Everything the interrupt test can do (R187, R189). -/
theorem interruptAssert_cases (s : State) :
    (irqRequest s = true ∧ s.inIsr = false ∧ s.interruptAssert = s.takeInterrupt) ∨
    ((irqRequest s = false ∨ s.inIsr = true) ∧ s.interruptAssert = s) := by
  unfold State.interruptAssert takeCondition
  cases hr : irqRequest s <;> cases hi : s.inIsr <;> simp

/-- A run of writes to distinct indices: each written index reads its element, every other what it read before. -/
theorem Cells.read_foldl_write {w depth : Nat} (f : Nat → Nat) (g : Nat → BitVec w) (c : Cells w)
    (hc : Cells.wfFrom depth 0 c = true) (n : Nat) (hd : ∀ i, i < n → f i < depth)
    (hinj : ∀ i j, i < n → j < n → f i = f j → i = j) :
    Cells.wfFrom depth 0 ((List.range n).foldl (fun m i => Cells.write m (f i) (g i)) c) = true ∧
    (∀ i, i < n →
      Cells.read ((List.range n).foldl (fun m i => Cells.write m (f i) (g i)) c) (f i) = g i) ∧
    (∀ b, (∀ i, i < n → b ≠ f i) →
      Cells.read ((List.range n).foldl (fun m i => Cells.write m (f i) (g i)) c) b =
        Cells.read c b) := by
  induction n with
  | zero => exact ⟨hc, fun i hi => absurd hi (by omega), fun _ _ => rfl⟩
  | succ n ih =>
    obtain ⟨ih1, ih2, ih3⟩ := ih (fun i hi => hd i (by omega)) fun i j hi hj => hinj i j (by omega) (by omega)
    simp only [List.range_succ, List.foldl_append, List.foldl_cons, List.foldl_nil]
    refine ⟨Cells.wfFrom_write _ _ (hd n (by omega)) ih1 (Nat.zero_le _), fun i hi => ?_, fun b hb => ?_⟩
    · rw [Cells.read_write _ _ _ ih1]
      by_cases hin : i = n
      · rw [hin, if_pos rfl]
      · rw [if_neg fun h => hin (hinj i n hi (by omega) h)]
        exact ih2 i (by omega)
    · rw [Cells.read_write _ _ _ ih1, if_neg (hb n (by omega))]
      exact ih3 b fun i hi => hb i (by omega)

theorem transferAddress_lt (s : State) (i : Nat) : s.transferAddress i < Config.memDepth :=
  wrapIndex_lt _ (by decide)

theorem transferSector_lt (s : State) : s.transferSector < Config.diskSectors :=
  wrapIndex_lt _ (by decide)

/-- The 128 buffer addresses are distinct (R203). -/
theorem transferAddress_inj (s : State) (i j : Nat) (hi : i < Config.sectorWords)
    (hj : j < Config.sectorWords) (h : s.transferAddress i = s.transferAddress j) : i = j := by
  unfold State.transferAddress wrapIndex Config.memDepth at h
  unfold Config.sectorWords at hi hj
  omega

theorem transferDiskIndex_lt (s : State) (i : Nat) (hi : i < Config.sectorWords) :
    s.transferDiskIndex i < Config.diskDepth := by
  have := transferSector_lt s
  unfold State.transferDiskIndex Config.diskDepth
  unfold Config.diskSectors at this
  unfold Config.sectorWords at *
  omega

theorem transferDiskIndex_inj (s : State) (i j : Nat)
    (h : s.transferDiskIndex i = s.transferDiskIndex j) : i = j := by
  unfold State.transferDiskIndex at h
  omega

/-- A read transfer writes main memory alone (R203). -/
theorem transferRead_eq (s : State) : s.transferRead = s.setMem s.transferRead.mem := by
  rw [State.transferRead, State.setMem_mem]

/-- A write transfer writes the disk alone (R203). -/
theorem transferWrite_eq (s : State) : s.transferWrite = s.setDisk s.transferWrite.disk := by
  rw [State.transferWrite, State.setDisk_disk]

@[simp] theorem transferRead_disk (s : State) : s.transferRead.disk = s.disk := by
  rw [transferRead_eq, State.setMem_disk]

@[simp] theorem transferWrite_mem (s : State) : s.transferWrite.mem = s.mem := by
  rw [transferWrite_eq, State.setDisk_mem]

/-- Everything a read transfer does to main memory (R203). -/
theorem memWord_transferRead (s : State) (h : Memory.wf s.mem = true) :
    Memory.wf s.transferRead.mem = true ∧
    (∀ i, i < Config.sectorWords →
      s.transferRead.memWord (s.transferAddress i) = s.diskWord (s.transferDiskIndex i)) ∧
    (∀ a, (∀ i, i < Config.sectorWords → a ≠ s.transferAddress i) →
      s.transferRead.memWord a = s.memWord a) := by
  have key := Cells.read_foldl_write s.transferAddress (fun i => s.diskWord (s.transferDiskIndex i))
    s.mem h Config.sectorWords (fun i _ => transferAddress_lt s i) (transferAddress_inj s)
  rw [State.transferRead]
  simp only [State.memWord, State.setMem_mem]
  exact key

/-- Everything a write transfer does to the disk (R203). -/
theorem diskWord_transferWrite (s : State) (h : Disk.wf s.disk = true) :
    Disk.wf s.transferWrite.disk = true ∧
    (∀ i, i < Config.sectorWords →
      s.transferWrite.diskWord (s.transferDiskIndex i) = s.memWord (s.transferAddress i)) ∧
    (∀ d, (∀ i, i < Config.sectorWords → d ≠ s.transferDiskIndex i) →
      s.transferWrite.diskWord d = s.diskWord d) := by
  have key := Cells.read_foldl_write s.transferDiskIndex (fun i => s.memWord (s.transferAddress i))
    s.disk h Config.sectorWords (transferDiskIndex_lt s) (fun i j _ _ => transferDiskIndex_inj s i j)
  rw [State.transferWrite]
  simp only [State.diskWord, State.setDisk_disk]
  exact key

@[simp] theorem injectScheduled_x (s : State) : s.injectScheduled.x = s.x := by
  obtain ⟨t, -, -, h⟩ | ⟨-, h⟩ := injectScheduled_cases s <;> rw [h]
  rfl
@[simp] theorem injectScheduled_pc (s : State) : s.injectScheduled.pc = s.pc := by
  obtain ⟨t, -, -, h⟩ | ⟨-, h⟩ := injectScheduled_cases s <;> rw [h]
  rfl
@[simp] theorem injectScheduled_mem (s : State) : s.injectScheduled.mem = s.mem := by
  obtain ⟨t, -, -, h⟩ | ⟨-, h⟩ := injectScheduled_cases s <;> rw [h]
  rfl
@[simp] theorem injectScheduled_disk (s : State) : s.injectScheduled.disk = s.disk := by
  obtain ⟨t, -, -, h⟩ | ⟨-, h⟩ := injectScheduled_cases s <;> rw [h]
  rfl
@[simp] theorem injectScheduled_fb (s : State) : s.injectScheduled.fb = s.fb := by
  obtain ⟨t, -, -, h⟩ | ⟨-, h⟩ := injectScheduled_cases s <;> rw [h]
  rfl
@[simp] theorem injectScheduled_inIsr (s : State) : s.injectScheduled.inIsr = s.inIsr := by
  obtain ⟨t, -, -, h⟩ | ⟨-, h⟩ := injectScheduled_cases s <;> rw [h]
  rfl
@[simp] theorem injectScheduled_halted (s : State) : s.injectScheduled.halted = s.halted := by
  obtain ⟨t, -, -, h⟩ | ⟨-, h⟩ := injectScheduled_cases s <;> rw [h]
  rfl
@[simp] theorem injectScheduled_diskAcc (s : State) : s.injectScheduled.diskAcc = s.diskAcc := by
  obtain ⟨t, -, -, h⟩ | ⟨-, h⟩ := injectScheduled_cases s <;> rw [h]
  rfl
@[simp] theorem injectScheduled_fault (s : State) : s.injectScheduled.fault = s.fault := by
  obtain ⟨t, -, -, h⟩ | ⟨-, h⟩ := injectScheduled_cases s <;> rw [h]
  rfl
@[simp] theorem injectScheduled_trace (s : State) : s.injectScheduled.trace = s.trace := by
  obtain ⟨t, -, -, h⟩ | ⟨-, h⟩ := injectScheduled_cases s <;> rw [h]
  rfl
@[simp] theorem injectScheduled_hwreg (s : State) : s.injectScheduled.hwreg = s.hwreg := by
  obtain ⟨t, -, -, h⟩ | ⟨-, h⟩ := injectScheduled_cases s <;> rw [h]
  rfl
@[simp] theorem injectScheduled_ledsLog (s : State) : s.injectScheduled.ledsLog = s.ledsLog := by
  obtain ⟨t, -, -, h⟩ | ⟨-, h⟩ := injectScheduled_cases s <;> rw [h]
  rfl
@[simp] theorem injectScheduled_display7segLog (s : State) : s.injectScheduled.display7segLog = s.display7segLog := by
  obtain ⟨t, -, -, h⟩ | ⟨-, h⟩ := injectScheduled_cases s <;> rw [h]
  rfl
@[simp] theorem injectScheduled_irq2Schedule (s : State) : s.injectScheduled.irq2Schedule = s.irq2Schedule := by
  obtain ⟨t, -, -, h⟩ | ⟨-, h⟩ := injectScheduled_cases s <;> rw [h]
  rfl
@[simp] theorem injectScheduled_diskLatency (s : State) : s.injectScheduled.diskLatency = s.diskLatency := by
  obtain ⟨t, -, -, h⟩ | ⟨-, h⟩ := injectScheduled_cases s <;> rw [h]
  rfl
@[simp] theorem injectScheduled_cost (s : State) : s.injectScheduled.cost = s.cost := by
  obtain ⟨t, -, -, h⟩ | ⟨-, h⟩ := injectScheduled_cases s <;> rw [h]
  rfl
@[simp] theorem injectScheduled_draws (s : State) : s.injectScheduled.draws = s.draws := by
  obtain ⟨t, -, -, h⟩ | ⟨-, h⟩ := injectScheduled_cases s <;> rw [h]
  rfl

@[simp] theorem transfer_x (s : State) : s.transfer.x = s.x := by
  rcases transfer_cases s with ⟨-, h⟩ | ⟨-, h⟩ | ⟨-, -, h⟩
  · exact (congrArg State.x h).trans (State.setMem_x ..)
  · exact (congrArg State.x h).trans (State.setDisk_x ..)
  · exact congrArg State.x h
@[simp] theorem transfer_pc (s : State) : s.transfer.pc = s.pc := by
  rcases transfer_cases s with ⟨-, h⟩ | ⟨-, h⟩ | ⟨-, -, h⟩
  · exact (congrArg State.pc h).trans (State.setMem_pc ..)
  · exact (congrArg State.pc h).trans (State.setDisk_pc ..)
  · exact congrArg State.pc h
@[simp] theorem transfer_io (s : State) : s.transfer.io = s.io := by
  rcases transfer_cases s with ⟨-, h⟩ | ⟨-, h⟩ | ⟨-, -, h⟩
  · exact (congrArg State.io h).trans (State.setMem_io ..)
  · exact (congrArg State.io h).trans (State.setDisk_io ..)
  · exact congrArg State.io h
@[simp] theorem transfer_fb (s : State) : s.transfer.fb = s.fb := by
  rcases transfer_cases s with ⟨-, h⟩ | ⟨-, h⟩ | ⟨-, -, h⟩
  · exact (congrArg State.fb h).trans (State.setMem_fb ..)
  · exact (congrArg State.fb h).trans (State.setDisk_fb ..)
  · exact congrArg State.fb h
@[simp] theorem transfer_inIsr (s : State) : s.transfer.inIsr = s.inIsr := by
  rcases transfer_cases s with ⟨-, h⟩ | ⟨-, h⟩ | ⟨-, -, h⟩
  · exact (congrArg State.inIsr h).trans (State.setMem_inIsr ..)
  · exact (congrArg State.inIsr h).trans (State.setDisk_inIsr ..)
  · exact congrArg State.inIsr h
@[simp] theorem transfer_halted (s : State) : s.transfer.halted = s.halted := by
  rcases transfer_cases s with ⟨-, h⟩ | ⟨-, h⟩ | ⟨-, -, h⟩
  · exact (congrArg State.halted h).trans (State.setMem_halted ..)
  · exact (congrArg State.halted h).trans (State.setDisk_halted ..)
  · exact congrArg State.halted h
@[simp] theorem transfer_diskAcc (s : State) : s.transfer.diskAcc = s.diskAcc := by
  rcases transfer_cases s with ⟨-, h⟩ | ⟨-, h⟩ | ⟨-, -, h⟩
  · exact (congrArg State.diskAcc h).trans (State.setMem_diskAcc ..)
  · exact (congrArg State.diskAcc h).trans (State.setDisk_diskAcc ..)
  · exact congrArg State.diskAcc h
@[simp] theorem transfer_schedCursor (s : State) : s.transfer.schedCursor = s.schedCursor := by
  rcases transfer_cases s with ⟨-, h⟩ | ⟨-, h⟩ | ⟨-, -, h⟩
  · exact (congrArg State.schedCursor h).trans (State.setMem_schedCursor ..)
  · exact (congrArg State.schedCursor h).trans (State.setDisk_schedCursor ..)
  · exact congrArg State.schedCursor h
@[simp] theorem transfer_fault (s : State) : s.transfer.fault = s.fault := by
  rcases transfer_cases s with ⟨-, h⟩ | ⟨-, h⟩ | ⟨-, -, h⟩
  · exact (congrArg State.fault h).trans (State.setMem_fault ..)
  · exact (congrArg State.fault h).trans (State.setDisk_fault ..)
  · exact congrArg State.fault h
@[simp] theorem transfer_trace (s : State) : s.transfer.trace = s.trace := by
  rcases transfer_cases s with ⟨-, h⟩ | ⟨-, h⟩ | ⟨-, -, h⟩
  · exact (congrArg State.trace h).trans (State.setMem_trace ..)
  · exact (congrArg State.trace h).trans (State.setDisk_trace ..)
  · exact congrArg State.trace h
@[simp] theorem transfer_hwreg (s : State) : s.transfer.hwreg = s.hwreg := by
  rcases transfer_cases s with ⟨-, h⟩ | ⟨-, h⟩ | ⟨-, -, h⟩
  · exact (congrArg State.hwreg h).trans (State.setMem_hwreg ..)
  · exact (congrArg State.hwreg h).trans (State.setDisk_hwreg ..)
  · exact congrArg State.hwreg h
@[simp] theorem transfer_ledsLog (s : State) : s.transfer.ledsLog = s.ledsLog := by
  rcases transfer_cases s with ⟨-, h⟩ | ⟨-, h⟩ | ⟨-, -, h⟩
  · exact (congrArg State.ledsLog h).trans (State.setMem_ledsLog ..)
  · exact (congrArg State.ledsLog h).trans (State.setDisk_ledsLog ..)
  · exact congrArg State.ledsLog h
@[simp] theorem transfer_display7segLog (s : State) : s.transfer.display7segLog = s.display7segLog := by
  rcases transfer_cases s with ⟨-, h⟩ | ⟨-, h⟩ | ⟨-, -, h⟩
  · exact (congrArg State.display7segLog h).trans (State.setMem_display7segLog ..)
  · exact (congrArg State.display7segLog h).trans (State.setDisk_display7segLog ..)
  · exact congrArg State.display7segLog h
@[simp] theorem transfer_irq2Schedule (s : State) : s.transfer.irq2Schedule = s.irq2Schedule := by
  rcases transfer_cases s with ⟨-, h⟩ | ⟨-, h⟩ | ⟨-, -, h⟩
  · exact (congrArg State.irq2Schedule h).trans (State.setMem_irq2Schedule ..)
  · exact (congrArg State.irq2Schedule h).trans (State.setDisk_irq2Schedule ..)
  · exact congrArg State.irq2Schedule h
@[simp] theorem transfer_diskLatency (s : State) : s.transfer.diskLatency = s.diskLatency := by
  rcases transfer_cases s with ⟨-, h⟩ | ⟨-, h⟩ | ⟨-, -, h⟩
  · exact (congrArg State.diskLatency h).trans (State.setMem_diskLatency ..)
  · exact (congrArg State.diskLatency h).trans (State.setDisk_diskLatency ..)
  · exact congrArg State.diskLatency h
@[simp] theorem transfer_cost (s : State) : s.transfer.cost = s.cost := by
  rcases transfer_cases s with ⟨-, h⟩ | ⟨-, h⟩ | ⟨-, -, h⟩
  · exact (congrArg State.cost h).trans (State.setMem_cost ..)
  · exact (congrArg State.cost h).trans (State.setDisk_cost ..)
  · exact congrArg State.cost h
@[simp] theorem transfer_draws (s : State) : s.transfer.draws = s.draws := by
  rcases transfer_cases s with ⟨-, h⟩ | ⟨-, h⟩ | ⟨-, -, h⟩
  · exact (congrArg State.draws h).trans (State.setMem_draws ..)
  · exact (congrArg State.draws h).trans (State.setDisk_draws ..)
  · exact congrArg State.draws h

@[simp] theorem completeTransfer_x (s : State) : s.completeTransfer.x = s.x := by
  simp [State.completeTransfer]
@[simp] theorem completeTransfer_pc (s : State) : s.completeTransfer.pc = s.pc := by
  simp [State.completeTransfer]
@[simp] theorem completeTransfer_fb (s : State) : s.completeTransfer.fb = s.fb := by
  simp [State.completeTransfer]
@[simp] theorem completeTransfer_inIsr (s : State) : s.completeTransfer.inIsr = s.inIsr := by
  simp [State.completeTransfer]
@[simp] theorem completeTransfer_halted (s : State) : s.completeTransfer.halted = s.halted := by
  simp [State.completeTransfer]
@[simp] theorem completeTransfer_schedCursor (s : State) : s.completeTransfer.schedCursor = s.schedCursor := by
  simp [State.completeTransfer]
@[simp] theorem completeTransfer_fault (s : State) : s.completeTransfer.fault = s.fault := by
  simp [State.completeTransfer]
@[simp] theorem completeTransfer_trace (s : State) : s.completeTransfer.trace = s.trace := by
  simp [State.completeTransfer]
@[simp] theorem completeTransfer_hwreg (s : State) : s.completeTransfer.hwreg = s.hwreg := by
  simp [State.completeTransfer]
@[simp] theorem completeTransfer_ledsLog (s : State) : s.completeTransfer.ledsLog = s.ledsLog := by
  simp [State.completeTransfer]
@[simp] theorem completeTransfer_display7segLog (s : State) : s.completeTransfer.display7segLog = s.display7segLog := by
  simp [State.completeTransfer]
@[simp] theorem completeTransfer_irq2Schedule (s : State) : s.completeTransfer.irq2Schedule = s.irq2Schedule := by
  simp [State.completeTransfer]
@[simp] theorem completeTransfer_diskLatency (s : State) : s.completeTransfer.diskLatency = s.diskLatency := by
  simp [State.completeTransfer]
@[simp] theorem completeTransfer_cost (s : State) : s.completeTransfer.cost = s.cost := by
  simp [State.completeTransfer]
@[simp] theorem completeTransfer_draws (s : State) : s.completeTransfer.draws = s.draws := by
  simp [State.completeTransfer]

@[simp] theorem diskProgress_x (s : State) : s.diskProgress.x = s.x := by
  rcases diskProgress_cases s with ⟨-, h⟩ | ⟨-, -, h⟩ | ⟨-, -, h⟩ <;> simp [h]
@[simp] theorem diskProgress_pc (s : State) : s.diskProgress.pc = s.pc := by
  rcases diskProgress_cases s with ⟨-, h⟩ | ⟨-, -, h⟩ | ⟨-, -, h⟩ <;> simp [h]
@[simp] theorem diskProgress_fb (s : State) : s.diskProgress.fb = s.fb := by
  rcases diskProgress_cases s with ⟨-, h⟩ | ⟨-, -, h⟩ | ⟨-, -, h⟩ <;> simp [h]
@[simp] theorem diskProgress_inIsr (s : State) : s.diskProgress.inIsr = s.inIsr := by
  rcases diskProgress_cases s with ⟨-, h⟩ | ⟨-, -, h⟩ | ⟨-, -, h⟩ <;> simp [h]
@[simp] theorem diskProgress_halted (s : State) : s.diskProgress.halted = s.halted := by
  rcases diskProgress_cases s with ⟨-, h⟩ | ⟨-, -, h⟩ | ⟨-, -, h⟩ <;> simp [h]
@[simp] theorem diskProgress_schedCursor (s : State) : s.diskProgress.schedCursor = s.schedCursor := by
  rcases diskProgress_cases s with ⟨-, h⟩ | ⟨-, -, h⟩ | ⟨-, -, h⟩ <;> simp [h]
@[simp] theorem diskProgress_fault (s : State) : s.diskProgress.fault = s.fault := by
  rcases diskProgress_cases s with ⟨-, h⟩ | ⟨-, -, h⟩ | ⟨-, -, h⟩ <;> simp [h]
@[simp] theorem diskProgress_trace (s : State) : s.diskProgress.trace = s.trace := by
  rcases diskProgress_cases s with ⟨-, h⟩ | ⟨-, -, h⟩ | ⟨-, -, h⟩ <;> simp [h]
@[simp] theorem diskProgress_hwreg (s : State) : s.diskProgress.hwreg = s.hwreg := by
  rcases diskProgress_cases s with ⟨-, h⟩ | ⟨-, -, h⟩ | ⟨-, -, h⟩ <;> simp [h]
@[simp] theorem diskProgress_ledsLog (s : State) : s.diskProgress.ledsLog = s.ledsLog := by
  rcases diskProgress_cases s with ⟨-, h⟩ | ⟨-, -, h⟩ | ⟨-, -, h⟩ <;> simp [h]
@[simp] theorem diskProgress_display7segLog (s : State) : s.diskProgress.display7segLog = s.display7segLog := by
  rcases diskProgress_cases s with ⟨-, h⟩ | ⟨-, -, h⟩ | ⟨-, -, h⟩ <;> simp [h]
@[simp] theorem diskProgress_irq2Schedule (s : State) : s.diskProgress.irq2Schedule = s.irq2Schedule := by
  rcases diskProgress_cases s with ⟨-, h⟩ | ⟨-, -, h⟩ | ⟨-, -, h⟩ <;> simp [h]
@[simp] theorem diskProgress_diskLatency (s : State) : s.diskProgress.diskLatency = s.diskLatency := by
  rcases diskProgress_cases s with ⟨-, h⟩ | ⟨-, -, h⟩ | ⟨-, -, h⟩ <;> simp [h]
@[simp] theorem diskProgress_cost (s : State) : s.diskProgress.cost = s.cost := by
  rcases diskProgress_cases s with ⟨-, h⟩ | ⟨-, -, h⟩ | ⟨-, -, h⟩ <;> simp [h]
@[simp] theorem diskProgress_draws (s : State) : s.diskProgress.draws = s.draws := by
  rcases diskProgress_cases s with ⟨-, h⟩ | ⟨-, -, h⟩ | ⟨-, -, h⟩ <;> simp [h]

@[simp] theorem timerProgress_x (s : State) : s.timerProgress.x = s.x := by
  rcases timerProgress_cases s with ⟨-, h⟩ | ⟨-, -, h⟩ | ⟨-, -, h⟩ <;> rw [h] <;> rfl
@[simp] theorem timerProgress_pc (s : State) : s.timerProgress.pc = s.pc := by
  rcases timerProgress_cases s with ⟨-, h⟩ | ⟨-, -, h⟩ | ⟨-, -, h⟩ <;> rw [h] <;> rfl
@[simp] theorem timerProgress_mem (s : State) : s.timerProgress.mem = s.mem := by
  rcases timerProgress_cases s with ⟨-, h⟩ | ⟨-, -, h⟩ | ⟨-, -, h⟩ <;> rw [h] <;> rfl
@[simp] theorem timerProgress_disk (s : State) : s.timerProgress.disk = s.disk := by
  rcases timerProgress_cases s with ⟨-, h⟩ | ⟨-, -, h⟩ | ⟨-, -, h⟩ <;> rw [h] <;> rfl
@[simp] theorem timerProgress_fb (s : State) : s.timerProgress.fb = s.fb := by
  rcases timerProgress_cases s with ⟨-, h⟩ | ⟨-, -, h⟩ | ⟨-, -, h⟩ <;> rw [h] <;> rfl
@[simp] theorem timerProgress_inIsr (s : State) : s.timerProgress.inIsr = s.inIsr := by
  rcases timerProgress_cases s with ⟨-, h⟩ | ⟨-, -, h⟩ | ⟨-, -, h⟩ <;> rw [h] <;> rfl
@[simp] theorem timerProgress_halted (s : State) : s.timerProgress.halted = s.halted := by
  rcases timerProgress_cases s with ⟨-, h⟩ | ⟨-, -, h⟩ | ⟨-, -, h⟩ <;> rw [h] <;> rfl
@[simp] theorem timerProgress_diskAcc (s : State) : s.timerProgress.diskAcc = s.diskAcc := by
  rcases timerProgress_cases s with ⟨-, h⟩ | ⟨-, -, h⟩ | ⟨-, -, h⟩ <;> rw [h] <;> rfl
@[simp] theorem timerProgress_schedCursor (s : State) : s.timerProgress.schedCursor = s.schedCursor := by
  rcases timerProgress_cases s with ⟨-, h⟩ | ⟨-, -, h⟩ | ⟨-, -, h⟩ <;> rw [h] <;> rfl
@[simp] theorem timerProgress_fault (s : State) : s.timerProgress.fault = s.fault := by
  rcases timerProgress_cases s with ⟨-, h⟩ | ⟨-, -, h⟩ | ⟨-, -, h⟩ <;> rw [h] <;> rfl
@[simp] theorem timerProgress_trace (s : State) : s.timerProgress.trace = s.trace := by
  rcases timerProgress_cases s with ⟨-, h⟩ | ⟨-, -, h⟩ | ⟨-, -, h⟩ <;> rw [h] <;> rfl
@[simp] theorem timerProgress_hwreg (s : State) : s.timerProgress.hwreg = s.hwreg := by
  rcases timerProgress_cases s with ⟨-, h⟩ | ⟨-, -, h⟩ | ⟨-, -, h⟩ <;> rw [h] <;> rfl
@[simp] theorem timerProgress_ledsLog (s : State) : s.timerProgress.ledsLog = s.ledsLog := by
  rcases timerProgress_cases s with ⟨-, h⟩ | ⟨-, -, h⟩ | ⟨-, -, h⟩ <;> rw [h] <;> rfl
@[simp] theorem timerProgress_display7segLog (s : State) : s.timerProgress.display7segLog = s.display7segLog := by
  rcases timerProgress_cases s with ⟨-, h⟩ | ⟨-, -, h⟩ | ⟨-, -, h⟩ <;> rw [h] <;> rfl
@[simp] theorem timerProgress_irq2Schedule (s : State) : s.timerProgress.irq2Schedule = s.irq2Schedule := by
  rcases timerProgress_cases s with ⟨-, h⟩ | ⟨-, -, h⟩ | ⟨-, -, h⟩ <;> rw [h] <;> rfl
@[simp] theorem timerProgress_diskLatency (s : State) : s.timerProgress.diskLatency = s.diskLatency := by
  rcases timerProgress_cases s with ⟨-, h⟩ | ⟨-, -, h⟩ | ⟨-, -, h⟩ <;> rw [h] <;> rfl
@[simp] theorem timerProgress_cost (s : State) : s.timerProgress.cost = s.cost := by
  rcases timerProgress_cases s with ⟨-, h⟩ | ⟨-, -, h⟩ | ⟨-, -, h⟩ <;> rw [h] <;> rfl
@[simp] theorem timerProgress_draws (s : State) : s.timerProgress.draws = s.draws := by
  rcases timerProgress_cases s with ⟨-, h⟩ | ⟨-, -, h⟩ | ⟨-, -, h⟩ <;> rw [h] <;> rfl

@[simp] theorem interruptAssert_x (s : State) : s.interruptAssert.x = s.x := by
  obtain ⟨-, -, h⟩ | ⟨-, h⟩ := interruptAssert_cases s <;> rw [h]
  rfl
@[simp] theorem interruptAssert_mem (s : State) : s.interruptAssert.mem = s.mem := by
  obtain ⟨-, -, h⟩ | ⟨-, h⟩ := interruptAssert_cases s <;> rw [h]
  rfl
@[simp] theorem interruptAssert_disk (s : State) : s.interruptAssert.disk = s.disk := by
  obtain ⟨-, -, h⟩ | ⟨-, h⟩ := interruptAssert_cases s <;> rw [h]
  rfl
@[simp] theorem interruptAssert_fb (s : State) : s.interruptAssert.fb = s.fb := by
  obtain ⟨-, -, h⟩ | ⟨-, h⟩ := interruptAssert_cases s <;> rw [h]
  rfl
@[simp] theorem interruptAssert_halted (s : State) : s.interruptAssert.halted = s.halted := by
  obtain ⟨-, -, h⟩ | ⟨-, h⟩ := interruptAssert_cases s <;> rw [h]
  rfl
@[simp] theorem interruptAssert_diskAcc (s : State) : s.interruptAssert.diskAcc = s.diskAcc := by
  obtain ⟨-, -, h⟩ | ⟨-, h⟩ := interruptAssert_cases s <;> rw [h]
  rfl
@[simp] theorem interruptAssert_schedCursor (s : State) : s.interruptAssert.schedCursor = s.schedCursor := by
  obtain ⟨-, -, h⟩ | ⟨-, h⟩ := interruptAssert_cases s <;> rw [h]
  rfl
@[simp] theorem interruptAssert_fault (s : State) : s.interruptAssert.fault = s.fault := by
  obtain ⟨-, -, h⟩ | ⟨-, h⟩ := interruptAssert_cases s <;> rw [h]
  rfl
@[simp] theorem interruptAssert_trace (s : State) : s.interruptAssert.trace = s.trace := by
  obtain ⟨-, -, h⟩ | ⟨-, h⟩ := interruptAssert_cases s <;> rw [h]
  rfl
@[simp] theorem interruptAssert_hwreg (s : State) : s.interruptAssert.hwreg = s.hwreg := by
  obtain ⟨-, -, h⟩ | ⟨-, h⟩ := interruptAssert_cases s <;> rw [h]
  rfl
@[simp] theorem interruptAssert_ledsLog (s : State) : s.interruptAssert.ledsLog = s.ledsLog := by
  obtain ⟨-, -, h⟩ | ⟨-, h⟩ := interruptAssert_cases s <;> rw [h]
  rfl
@[simp] theorem interruptAssert_display7segLog (s : State) : s.interruptAssert.display7segLog = s.display7segLog := by
  obtain ⟨-, -, h⟩ | ⟨-, h⟩ := interruptAssert_cases s <;> rw [h]
  rfl
@[simp] theorem interruptAssert_irq2Schedule (s : State) : s.interruptAssert.irq2Schedule = s.irq2Schedule := by
  obtain ⟨-, -, h⟩ | ⟨-, h⟩ := interruptAssert_cases s <;> rw [h]
  rfl
@[simp] theorem interruptAssert_diskLatency (s : State) : s.interruptAssert.diskLatency = s.diskLatency := by
  obtain ⟨-, -, h⟩ | ⟨-, h⟩ := interruptAssert_cases s <;> rw [h]
  rfl
@[simp] theorem interruptAssert_cost (s : State) : s.interruptAssert.cost = s.cost := by
  obtain ⟨-, -, h⟩ | ⟨-, h⟩ := interruptAssert_cases s <;> rw [h]
  rfl
@[simp] theorem interruptAssert_draws (s : State) : s.interruptAssert.draws = s.draws := by
  obtain ⟨-, -, h⟩ | ⟨-, h⟩ := interruptAssert_cases s <;> rw [h]
  rfl

@[simp] theorem peripherals_x (s : State) : s.peripherals.x = s.x := by
  simp [State.peripherals]
@[simp] theorem peripherals_fb (s : State) : s.peripherals.fb = s.fb := by
  simp [State.peripherals]
@[simp] theorem peripherals_halted (s : State) : s.peripherals.halted = s.halted := by
  simp [State.peripherals]
@[simp] theorem peripherals_fault (s : State) : s.peripherals.fault = s.fault := by
  simp [State.peripherals]
@[simp] theorem peripherals_trace (s : State) : s.peripherals.trace = s.trace := by
  simp [State.peripherals]
@[simp] theorem peripherals_hwreg (s : State) : s.peripherals.hwreg = s.hwreg := by
  simp [State.peripherals]
@[simp] theorem peripherals_ledsLog (s : State) : s.peripherals.ledsLog = s.ledsLog := by
  simp [State.peripherals]
@[simp] theorem peripherals_display7segLog (s : State) : s.peripherals.display7segLog = s.display7segLog := by
  simp [State.peripherals]
@[simp] theorem peripherals_irq2Schedule (s : State) : s.peripherals.irq2Schedule = s.irq2Schedule := by
  simp [State.peripherals]
@[simp] theorem peripherals_diskLatency (s : State) : s.peripherals.diskLatency = s.diskLatency := by
  simp [State.peripherals]
@[simp] theorem peripherals_cost (s : State) : s.peripherals.cost = s.cost := by
  simp [State.peripherals]
@[simp] theorem peripherals_draws (s : State) : s.peripherals.draws = s.draws := by
  simp [State.peripherals]

/-- No part of the phase writes a general register (R246 rests on this). -/
@[simp] theorem peripherals_reg (s : State) (r : RegIx) : s.peripherals.reg r = s.reg r := by
  simp [State.reg]

/-- No part of the phase writes the framebuffer (R39). -/
@[simp] theorem peripherals_pixel (s : State) (p : Nat) : s.peripherals.pixel p = s.pixel p := by
  simp [State.pixel]

theorem ioReg_injectScheduled (s : State) (k : IoIx) (hk : k ≠ Io.irq2status) :
    s.injectScheduled.ioReg k = s.ioReg k := by
  obtain ⟨t, -, -, h⟩ | ⟨-, h⟩ := injectScheduled_cases s <;> rw [h]
  simp [State.ioReg_setIo, hk]

/-- What completion leaves in the I/O registers (R204). -/
theorem ioReg_completeTransfer (s : State) (k : IoIx) :
    s.completeTransfer.ioReg k =
      if k = Io.diskstatus then diskFree
      else if k = Io.diskcmd then diskCmdNone
      else if k = Io.irq1status then statusSet
      else s.ioReg k := by
  simp only [State.completeTransfer, State.ioReg_setIo, State.setDiskAcc_ioReg]
  simp only [State.ioReg, transfer_io]

theorem ioReg_diskProgress (s : State) (k : IoIx) (h1 : k ≠ Io.diskstatus) (h2 : k ≠ Io.diskcmd)
    (h3 : k ≠ Io.irq1status) : s.diskProgress.ioReg k = s.ioReg k := by
  rcases diskProgress_cases s with ⟨-, h⟩ | ⟨-, -, h⟩ | ⟨-, -, h⟩ <;>
    simp [h, ioReg_completeTransfer, h1, h2, h3]

theorem ioReg_timerProgress (s : State) (k : IoIx) (h1 : k ≠ Io.timercurrent)
    (h2 : k ≠ Io.irq0status) : s.timerProgress.ioReg k = s.ioReg k := by
  rcases timerProgress_cases s with ⟨-, h⟩ | ⟨-, -, h⟩ | ⟨-, -, h⟩ <;>
    simp [h, State.timerExpire, State.ioReg_setIo, h1, h2]

theorem ioReg_interruptAssert (s : State) (k : IoIx) (h1 : k ≠ Io.irqreturn) :
    s.interruptAssert.ioReg k = s.ioReg k := by
  obtain ⟨-, -, h⟩ | ⟨-, h⟩ := interruptAssert_cases s <;> rw [h]
  simp [State.ioReg_takeInterrupt, h1]

/-- The I/O registers no part of the phase writes (R18, R175). -/
theorem ioReg_peripherals (s : State) (k : IoIx)
    (hk : k ∉ [Io.irq0status, Io.irq1status, Io.irq2status, Io.irqreturn, Io.timercurrent,
      Io.diskcmd, Io.diskstatus]) : s.peripherals.ioReg k = s.ioReg k := by
  simp only [List.mem_cons, List.not_mem_nil, or_false, not_or] at hk
  obtain ⟨h3, h4, h5, h7, h12, h14, h17⟩ := hk
  unfold State.peripherals
  rw [ioReg_interruptAssert _ _ h7, ioReg_timerProgress _ _ h12 h3, ioReg_diskProgress _ _ h17 h14 h4,
    ioReg_injectScheduled _ _ h5]

/-- The registers of the disk as the phase leaves them: no part of it but the disk sequencer writes them (R18, R175). -/
theorem ioReg_peripherals_disk (s : State) (k : IoIx)
    (hk : k ∈ [Io.irq1status, Io.diskcmd, Io.diskstatus]) :
    s.peripherals.ioReg k = s.injectScheduled.diskProgress.ioReg k := by
  have h : k ≠ Io.irqreturn ∧ k ≠ Io.timercurrent ∧ k ≠ Io.irq0status := by
    simp only [List.mem_cons, List.not_mem_nil, or_false] at hk
    rcases hk with rfl | rfl | rfl <;> decide
  unfold State.peripherals
  rw [ioReg_interruptAssert _ _ h.1, ioReg_timerProgress _ _ h.2.1 h.2.2]

theorem completeTransfer_mem (s : State) : s.completeTransfer.mem = s.transfer.mem := rfl

theorem completeTransfer_disk (s : State) : s.completeTransfer.disk = s.transfer.disk := rfl

/-- A transfer writes main memory or the disk and nothing else (R203). -/
theorem transfer_eq (s : State) : s.transfer = (s.setMem s.transfer.mem).setDisk s.transfer.disk := by
  rcases transfer_cases s with ⟨-, h⟩ | ⟨-, h⟩ | ⟨-, -, h⟩ <;> rw [h]
  · rw [transferRead_eq]; generalize s.transferRead.mem = m; rfl
  · rw [transferWrite_eq]; generalize s.transferWrite.disk = d; rfl
  · rfl

/-- What a transfer moves depends on the three disk registers, memory and the disk alone (R203). -/
theorem completeTransfer_congr {s t : State} (hm : t.mem = s.mem) (hd : t.disk = s.disk)
    (hc : t.ioReg Io.diskcmd = s.ioReg Io.diskcmd) (hs : t.ioReg Io.disksector = s.ioReg Io.disksector)
    (hb : t.ioReg Io.diskbuffer = s.ioReg Io.diskbuffer) :
    t.completeTransfer.mem = s.completeTransfer.mem ∧
      t.completeTransfer.disk = s.completeTransfer.disk := by
  have ha : t.transferAddress = s.transferAddress := by
    funext i; simp only [State.transferAddress, hb]
  have hi : t.transferDiskIndex = s.transferDiskIndex := by
    funext i; simp only [State.transferDiskIndex, State.transferSector, hs]
  have hr : t.transferRead.mem = s.transferRead.mem ∧ t.transferRead.disk = s.transferRead.disk := by
    simp only [State.transferRead, State.setMem, State.diskWord, ha, hi, hm, hd, and_self]
  have hw : t.transferWrite.mem = s.transferWrite.mem ∧
      t.transferWrite.disk = s.transferWrite.disk := by
    simp only [State.transferWrite, State.setDisk, State.memWord, ha, hi, hm, hd, and_self]
  simp only [completeTransfer_mem, completeTransfer_disk, State.transfer, hc]
  split_ifs
  exacts [hr, hw, ⟨hm, hd⟩]

/-- Everything the phase can do to memory and the disk: a transfer completes in it, or both are as they were (R202 to R204). -/
theorem peripherals_storage_cases (s : State) :
    (s.ioReg Io.diskstatus = diskBusy ∧ s.diskLatency ≤ s.diskAcc + s.cost ∧
      s.peripherals.mem = s.completeTransfer.mem ∧ s.peripherals.disk = s.completeTransfer.disk) ∨
    (¬ (s.ioReg Io.diskstatus = diskBusy ∧ s.diskLatency ≤ s.diskAcc + s.cost) ∧
      s.peripherals.mem = s.mem ∧ s.peripherals.disk = s.disk) := by
  have hio : s.injectScheduled.ioReg Io.diskstatus = s.ioReg Io.diskstatus :=
    ioReg_injectScheduled _ _ (by decide)
  unfold State.peripherals
  simp only [interruptAssert_mem, interruptAssert_disk, timerProgress_mem, timerProgress_disk]
  have hd := diskProgress_cases s.injectScheduled
  simp only [injectScheduled_diskAcc, injectScheduled_cost, injectScheduled_diskLatency, hio] at hd
  rcases hd with ⟨h1, h⟩ | ⟨h1, h2, h⟩ | ⟨h1, h2, h⟩ <;> rw [h]
  · exact .inr ⟨fun hb => h1 hb.1, by simp, by simp⟩
  · exact .inr ⟨fun hb => by omega, by simp, by simp⟩
  · refine .inl ⟨h1, h2, ?_⟩
    exact completeTransfer_congr (t := s.injectScheduled.setDiskAcc (s.diskAcc + s.cost))
      (injectScheduled_mem s) (injectScheduled_disk s) (ioReg_injectScheduled _ _ (by decide))
      (ioReg_injectScheduled _ _ (by decide)) (ioReg_injectScheduled _ _ (by decide))

/-- The interrupt test that ends the phase sees the enables and statuses the phase leaves, and `in_isr` as the instruction left it
(R187, R189). -/
theorem peripherals_interrupt_cases (s : State) :
    (irqRequest s.peripherals = true ∧ s.inIsr = false ∧ s.peripherals.inIsr = true ∧
      s.peripherals.pc = s.ioReg Io.irqhandler ∧ s.peripherals.ioReg Io.irqreturn = s.pc) ∨
    ((irqRequest s.peripherals = false ∨ s.inIsr = true) ∧ s.peripherals.inIsr = s.inIsr ∧
      s.peripherals.pc = s.pc ∧ s.peripherals.ioReg Io.irqreturn = s.ioReg Io.irqreturn) := by
  have hk (k : IoIx) (h : k = Io.irqhandler ∨ k = Io.irqreturn) :
      s.injectScheduled.diskProgress.timerProgress.ioReg k = s.ioReg k := by
    rcases h with rfl | rfl <;>
      rw [ioReg_timerProgress _ _ (by decide) (by decide),
        ioReg_diskProgress _ _ (by decide) (by decide) (by decide),
        ioReg_injectScheduled _ _ (by decide)]
  have hirq (t : State) : irqRequest t.interruptAssert = irqRequest t := by
    unfold irqRequest
    rw [ioReg_interruptAssert, ioReg_interruptAssert, ioReg_interruptAssert, ioReg_interruptAssert,
      ioReg_interruptAssert, ioReg_interruptAssert] <;> decide
  unfold State.peripherals
  rw [hirq]
  obtain ⟨h1, h2, h⟩ | ⟨h1, h⟩ := interruptAssert_cases s.injectScheduled.diskProgress.timerProgress <;>
    rw [h]
  · refine .inl ⟨h1, by simpa using h2, rfl, hk _ (.inl rfl), ?_⟩
    rw [State.ioReg_takeInterrupt, if_pos rfl]
    simp
  · exact .inr ⟨by simpa using h1, by simp, by simp, hk _ (.inr rfl)⟩

end Sys2Proof.Machine
end

