-- ==== Sys2Proof/Laws/Step.lean ====
section
/-! SUPPORT. The step: what fetching can answer, what precedes the opcode, and everything a step can do
(`spec/40_step.md` rules R90 to R100). -/

namespace Sys2Proof.Machine

theorem loadImmediate_cases (s : State) (imm : Option Word) :
    s.loadImmediate imm = s ∨ ∃ m, imm = some m ∧ s.loadImmediate imm = s.setReg 1 (sext20 m) := by
  cases imm with
  | none => exact .inl rfl
  | some m => exact .inr ⟨m, rfl, rfl⟩

@[simp] theorem loadImmediate_pc (s : State) (imm : Option Word) :
    (s.loadImmediate imm).pc = s.pc := by
  cases imm <;> rfl
@[simp] theorem loadImmediate_io (s : State) (imm : Option Word) :
    (s.loadImmediate imm).io = s.io := by
  cases imm <;> rfl
@[simp] theorem loadImmediate_mem (s : State) (imm : Option Word) :
    (s.loadImmediate imm).mem = s.mem := by
  cases imm <;> rfl
@[simp] theorem loadImmediate_disk (s : State) (imm : Option Word) :
    (s.loadImmediate imm).disk = s.disk := by
  cases imm <;> rfl
@[simp] theorem loadImmediate_fb (s : State) (imm : Option Word) :
    (s.loadImmediate imm).fb = s.fb := by
  cases imm <;> rfl
@[simp] theorem loadImmediate_inIsr (s : State) (imm : Option Word) :
    (s.loadImmediate imm).inIsr = s.inIsr := by
  cases imm <;> rfl
@[simp] theorem loadImmediate_halted (s : State) (imm : Option Word) :
    (s.loadImmediate imm).halted = s.halted := by
  cases imm <;> rfl
@[simp] theorem loadImmediate_diskAcc (s : State) (imm : Option Word) :
    (s.loadImmediate imm).diskAcc = s.diskAcc := by
  cases imm <;> rfl
@[simp] theorem loadImmediate_schedCursor (s : State) (imm : Option Word) :
    (s.loadImmediate imm).schedCursor = s.schedCursor := by
  cases imm <;> rfl
@[simp] theorem loadImmediate_fault (s : State) (imm : Option Word) :
    (s.loadImmediate imm).fault = s.fault := by
  cases imm <;> rfl
@[simp] theorem loadImmediate_trace (s : State) (imm : Option Word) :
    (s.loadImmediate imm).trace = s.trace := by
  cases imm <;> rfl
@[simp] theorem loadImmediate_hwreg (s : State) (imm : Option Word) :
    (s.loadImmediate imm).hwreg = s.hwreg := by
  cases imm <;> rfl
@[simp] theorem loadImmediate_ledsLog (s : State) (imm : Option Word) :
    (s.loadImmediate imm).ledsLog = s.ledsLog := by
  cases imm <;> rfl
@[simp] theorem loadImmediate_display7segLog (s : State) (imm : Option Word) :
    (s.loadImmediate imm).display7segLog = s.display7segLog := by
  cases imm <;> rfl
@[simp] theorem loadImmediate_irq2Schedule (s : State) (imm : Option Word) :
    (s.loadImmediate imm).irq2Schedule = s.irq2Schedule := by
  cases imm <;> rfl
@[simp] theorem loadImmediate_diskLatency (s : State) (imm : Option Word) :
    (s.loadImmediate imm).diskLatency = s.diskLatency := by
  cases imm <;> rfl
@[simp] theorem loadImmediate_cost (s : State) (imm : Option Word) :
    (s.loadImmediate imm).cost = s.cost := by
  cases imm <;> rfl
@[simp] theorem loadImmediate_draws (s : State) (imm : Option Word) :
    (s.loadImmediate imm).draws = s.draws := by
  cases imm <;> rfl

/-- The registers at the trace point (R93). -/
theorem reg_loadImmediate (s : State) (imm : Option Word) (r : RegIx) :
    (s.loadImmediate imm).reg r =
      match imm with
      | some m => if r = 1 then sext20 m else s.reg r
      | none => s.reg r := by
  cases imm with
  | none => rfl
  | some m => exact State.reg_setReg ..

@[simp] theorem beginInsn_mem (s : State) (f : Fetched) : (s.beginInsn f).mem = s.mem := by
  simp [State.beginInsn]
@[simp] theorem beginInsn_disk (s : State) (f : Fetched) : (s.beginInsn f).disk = s.disk := by
  simp [State.beginInsn]
@[simp] theorem beginInsn_fb (s : State) (f : Fetched) : (s.beginInsn f).fb = s.fb := by
  simp [State.beginInsn]
@[simp] theorem beginInsn_inIsr (s : State) (f : Fetched) : (s.beginInsn f).inIsr = s.inIsr := by
  simp [State.beginInsn]
@[simp] theorem beginInsn_halted (s : State) (f : Fetched) : (s.beginInsn f).halted = s.halted := by
  simp [State.beginInsn]
@[simp] theorem beginInsn_diskAcc (s : State) (f : Fetched) : (s.beginInsn f).diskAcc = s.diskAcc := by
  simp [State.beginInsn]
@[simp] theorem beginInsn_schedCursor (s : State) (f : Fetched) : (s.beginInsn f).schedCursor = s.schedCursor := by
  simp [State.beginInsn]
@[simp] theorem beginInsn_fault (s : State) (f : Fetched) : (s.beginInsn f).fault = s.fault := by
  simp [State.beginInsn]
@[simp] theorem beginInsn_hwreg (s : State) (f : Fetched) : (s.beginInsn f).hwreg = s.hwreg := by
  simp [State.beginInsn]
@[simp] theorem beginInsn_ledsLog (s : State) (f : Fetched) : (s.beginInsn f).ledsLog = s.ledsLog := by
  simp [State.beginInsn]
@[simp] theorem beginInsn_display7segLog (s : State) (f : Fetched) : (s.beginInsn f).display7segLog = s.display7segLog := by
  simp [State.beginInsn]
@[simp] theorem beginInsn_irq2Schedule (s : State) (f : Fetched) : (s.beginInsn f).irq2Schedule = s.irq2Schedule := by
  simp [State.beginInsn]
@[simp] theorem beginInsn_diskLatency (s : State) (f : Fetched) : (s.beginInsn f).diskLatency = s.diskLatency := by
  simp [State.beginInsn]
@[simp] theorem beginInsn_draws (s : State) (f : Fetched) : (s.beginInsn f).draws = s.draws := by
  simp [State.beginInsn]

@[simp] theorem beginInsn_x (s : State) (f : Fetched) :
    (s.beginInsn f).x = (s.loadImmediate f.insn.imm).x := by
  simp [State.beginInsn]

@[simp] theorem beginInsn_reg (s : State) (f : Fetched) (r : RegIx) :
    (s.beginInsn f).reg r = (s.loadImmediate f.insn.imm).reg r := by
  simp [State.reg]

@[simp] theorem beginInsn_pc (s : State) (f : Fetched) :
    (s.beginInsn f).pc = wrap32 (f.addr + f.insn.instr.length) := by
  simp [State.beginInsn]

@[simp] theorem beginInsn_cost (s : State) (f : Fetched) :
    (s.beginInsn f).cost = f.insn.instr.length := by
  simp [State.beginInsn]

@[simp] theorem beginInsn_trace (s : State) (f : Fetched) :
    (s.beginInsn f).trace =
      { addr := f.addr, word := f.word, regs := (s.loadImmediate f.insn.imm).x } :: s.trace := by
  simp [State.beginInsn]

@[simp] theorem beginInsn_memWord (s : State) (f : Fetched) (a : Nat) :
    (s.beginInsn f).memWord a = s.memWord a := by
  simp [State.memWord]

/-- Only `clks` moves before the opcode (R95). -/
theorem beginInsn_ioReg (s : State) (f : Fetched) (k : IoIx) :
    (s.beginInsn f).ioReg k =
      if k = Io.clks then wrap32 (s32 s.clks + f.insn.instr.length) else s.ioReg k := by
  simp [State.beginInsn, State.ioReg_advanceClks]
  simp [State.ioReg, State.clks]

/-- Everything a fetch can answer (R92, R93, R173). -/
theorem fetch_cases (s : State) :
    (¬ (0 ≤ s32 s.pc ∧ s32 s.pc ≤ 4095) ∧ s.fetch = .error (.pcOutOfRange s.pc)) ∨
    ((0 ≤ s32 s.pc ∧ s32 s.pc ≤ 4095) ∧
      ((∃ i rest, decode (s.streamWords (s32 s.pc).toNat) = .ok i rest ∧
          s.fetch = .ok { addr := (s32 s.pc).toNat, word := s.memWord (s32 s.pc).toNat, insn := i }) ∨
        (∃ w, decode (s.streamWords (s32 s.pc).toNat) = .illegalOpcode w ∧
          s.fetch = .error (.illegalOpcode (s32 s.pc).toNat w)) ∨
        (∃ i, decode (s.streamWords (s32 s.pc).toNat) = .missingImmediate i ∧
          s.fetch = .error (.pcOutOfRange s.pc)))) := by
  unfold State.fetch
  by_cases h : 0 ≤ s32 s.pc ∧ s32 s.pc ≤ 4095
  · refine .inr ⟨h, ?_⟩
    rw [if_pos h]
    cases hd : decode (s.streamWords (s32 s.pc).toNat) with
    | ok i rest => exact .inl ⟨i, rest, rfl, by simp only [hd]⟩
    | illegalOpcode w => exact .inr (.inl ⟨w, rfl, by simp only [hd]⟩)
    | missingImmediate i => exact .inr (.inr ⟨i, rfl, by simp only [hd]⟩)
    | noWord =>
      unfold State.streamWords at hd
      split at hd <;> exact absurd hd (decode_cons_ne_noWord _ _)
  · exact .inl ⟨h, if_neg h⟩

/-- Everything a step can do when it answers a next state (R90): it records a fault and does nothing else, or it runs the
fetched instruction and then the peripheral phase. -/
theorem step_cases {s t : State} (h : step s = .next t) :
    s.Running ∧
    ((∃ f, s.fetch = .error f ∧ t = s.setFault f) ∨
      (∃ f u, s.fetch = .ok f ∧ exec f.insn.instr (s.beginInsn f) = .next u ∧ t = u.peripherals)) := by
  unfold step at h
  cases hh : s.halted with
  | true => rw [hh] at h; exact nomatch h
  | false =>
    cases hf : s.fault with
    | some f => rw [hh, hf] at h; exact nomatch h
    | none =>
      refine ⟨⟨hh, hf⟩, ?_⟩
      rw [hh, hf] at h
      cases hF : s.fetch with
      | error f =>
        rw [hF] at h
        cases h
        exact .inl ⟨f, rfl, rfl⟩
      | ok f =>
        rw [hF] at h
        obtain ⟨u, hu⟩ := exec_completes f.insn.instr (s.beginInsn f)
        simp only [hu, Bool.false_eq_true, if_false] at h
        cases h
        exact .inr ⟨f, u, rfl, hu, rfl⟩

end Sys2Proof.Machine
end

