-- ==== Sys2Proof/Laws/Frames.lean ====
section
/-! SUPPORT. The frames of the shared operations in the terms of `Safety.lean`, and what a fetch that raises no
fault has read. -/

namespace Sys2Proof.Machine

theorem wrap32_s32_add_nat (v : RegVal) (n : Nat) : wrap32 (s32 v + n) = v + BitVec.ofNat 32 n := by
  simp [wrap32, s32, BitVec.ofInt_add]

/-- The remainder of a register value by a power of two up to 2^32 is that of its bits (R53, R203). -/
theorem wrapIndex_s32 (v : RegVal) {m : Nat} (hm : m ∣ 2 ^ 32) : wrapIndex (s32 v) m = v.toNat % m := by
  obtain ⟨c, hc⟩ := hm
  have hc' : (2 ^ 32 : Int) = m * c := by exact_mod_cast hc
  have h : s32 v % (m : Int) = (v.toNat : Int) % m := by
    unfold s32
    rw [BitVec.toInt_eq_toNat_cond]
    split
    · rfl
    · rw [show ((2 ^ 32 : Nat) : Int) = m * c by exact_mod_cast hc', Int.sub_mul_emod_self_left]
  unfold wrapIndex
  rw [h]
  omega

/-- The sector of a transfer from the bits of `disksector` (R203). -/
theorem transferSector_eq (s : State) : s.transferSector = (s.ioReg Io.disksector).toNat % 128 :=
  wrapIndex_s32 _ (by decide)

/-- The buffer addresses of a transfer from the bits of `diskbuffer` (R203). -/
theorem transferAddress_eq (s : State) (i : Nat) :
    s.transferAddress i = ((s.ioReg Io.diskbuffer).toNat + i) % 4096 := by
  unfold State.transferAddress wrapIndex s32 Config.memDepth
  rw [BitVec.toInt_eq_toNat_cond]
  split <;> omega

theorem reg_writeReg_of_mayWrite {s : State} {rd : RegIx} {v : RegVal} {b : Bool} (h : mayWrite rd b) :
    (s.writeReg rd v b).reg rd = v := by
  rw [State.reg_writeReg, if_pos ⟨rfl, h.1, h.2⟩]

/-- A state that agrees with `t` in all that `SameOutside` looks at. -/
theorem State.SameOutside.congr {s t u : State} {R : RegIx → Prop} {I : IoIx → Prop} {W P : Nat → Prop}
    (h : s.SameOutside t R I W P) (hx : u.x = t.x) (hio : u.io = t.io) (hm : u.mem = t.mem)
    (hp : u.fb = t.fb) (hd : u.disk = t.disk) (ha : u.diskAcc = t.diskAcc)
    (hc : u.schedCursor = t.schedCursor) (hf : u.fault = t.fault) (ht : u.trace = t.trace)
    (hs : u.irq2Schedule = t.irq2Schedule) (hl : u.diskLatency = t.diskLatency) :
    s.SameOutside u R I W P where
  reg r hr := by rw [State.reg, hx]; exact h.reg r hr
  io k hk := by rw [State.ioReg, hio]; exact h.io k hk
  mem a ha' := by rw [State.memWord, hm]; exact h.mem a ha'
  pixel p hp' := by rw [State.pixel, hp]; exact h.pixel p hp'
  disk d := by rw [State.diskWord, hd]; exact h.disk d
  diskAcc := ha.trans h.diskAcc
  schedCursor := hc.trans h.schedCursor
  fault := hf.trans h.fault
  trace := ht.trans h.trace
  irq2Schedule := hs.trans h.irq2Schedule
  diskLatency := hl.trans h.diskLatency

/-- The guarded write leaves everything but its register alone (R98). -/
theorem sameOutside_writeReg (s : State) (rd : RegIx) (v : RegVal) (b : Bool) :
    s.SameOutside (s.writeReg rd v b) (fun r => r = rd ∧ mayWrite rd b) nothing nothing nothing := by
  constructor <;> try (intros; simp)
  intro r hr
  rw [State.reg_writeReg, if_neg]
  exact fun h => hr ⟨h.1, h.2.1, h.2.2⟩

/-- The extra cycle of `lw` and `sw` adds `clks` to the frame (R141, R142). -/
theorem sameOutside_extraCycle {s t : State} {R : RegIx → Prop} {W P : Nat → Prop}
    (h : s.SameOutside t R nothing W P) :
    s.SameOutside t.extraCycle R (fun k => k = Io.clks) W P where
  reg := h.reg
  io k hk := by rw [State.ioReg_extraCycle, if_neg hk]; exact h.io k id
  mem := h.mem
  pixel := h.pixel
  disk := h.disk
  diskAcc := h.diskAcc
  schedCursor := h.schedCursor
  fault := h.fault
  trace := h.trace
  irq2Schedule := h.irq2Schedule
  diskLatency := h.diskLatency

/-- An instruction whose meaning is one guarded write. -/
theorem writesOnly_of_writeReg {i : Instr} {s : State} {rd : RegIx} {b : Bool} {v : RegVal}
    (h : exec i s = .next (s.writeReg rd v b)) : WritesOnly i s rd b v :=
  ⟨_, h, reg_writeReg_of_mayWrite, sameOutside_writeReg .., by constructor <;> simp,
    by constructor <;> simp⟩

/-- An instruction whose meaning is one conditional branch. -/
theorem setsPcOnly_of_branchIf {i : Instr} {s : State} {c : Bool} {rd : RegIx} {v : RegVal}
    (h : exec i s = .next (branchIf c rd s)) (hv : (if c = true then s.reg rd else s.pc) = v) :
    SetsPcOnly i s v := by
  rw [branchIf_eq, hv] at h
  exact ⟨_, h, rfl, by constructor <;> intros <;> rfl, ⟨rfl, rfl, rfl⟩, rfl, rfl, rfl, rfl⟩

/-- What an instruction adds to the step's cost (R99). -/
theorem exec_cost {i : Instr} {s t : State} (h : exec i s = .next t) :
    t.cost = s.cost + (match i with | .lw _ _ _ => 1 | .sw _ _ _ => 1 | _ => 0) := by
  cases i <;> cases h <;> simp

/-- No controller writes `clks` (R18, R23). -/
@[simp] theorem peripherals_clks (s : State) : s.peripherals.clks = s.clks :=
  ioReg_peripherals s _ (by decide)

/-- What a fetch that raises no fault has read (R92, R93). -/
theorem fetch_ok {s : State} {f : Fetched} (h : s.fetch = .ok f) :
    s.pc.toNat + f.insn.instr.length ≤ 4096 ∧ decodeWord s.wordAtPc = some f.insn.instr ∧
      f.addr = s.pc.toNat ∧ f.word = s.wordAtPc ∧
      f.insn.imm =
        if f.insn.instr.immMode then some (s.memWord (s.pc.toNat + 1)) else none := by
  rcases fetch_cases s with ⟨-, h'⟩ | ⟨hr, ⟨i, rest, hd, h'⟩ | ⟨w, hd, h'⟩ | ⟨i, hd, h'⟩⟩ <;>
    rw [h] at h' <;> cases h'
  have hpc : (s32 s.pc).toNat = s.pc.toNat ∧ s.pc.toNat < 4096 := by
    unfold s32 at *
    rw [BitVec.toInt_eq_toNat_cond] at *
    split at * <;> omega
  rw [hpc.1] at hd ⊢
  have hw : s.memWord s.pc.toNat = s.wordAtPc := rfl
  unfold State.streamWords at hd
  rw [hw] at hd
  split at hd
  · rename_i hlt
    simp only [Config.memDepth] at hlt
    rcases decode_cons_cases s.wordAtPc [s.memWord (s.pc.toNat + 1)] with
      ⟨-, hh⟩ | ⟨j, h1, h2, hh⟩ | ⟨j, m, r, h1, h2, h3, hh⟩ | ⟨j, h1, h2, h3, hh⟩ <;>
      rw [hd] at hh <;> cases hh
    · simp [h1, h2, Instr.length, hw]; omega
    · cases h3; simp [h1, h2, Instr.length, hw]; omega
  · rcases decode_cons_cases s.wordAtPc [] with
      ⟨-, hh⟩ | ⟨j, h1, h2, hh⟩ | ⟨j, m, r, h1, h2, h3, hh⟩ | ⟨j, h1, h2, h3, hh⟩ <;>
      rw [hd] at hh <;> cases hh
    · simp [h1, h2, Instr.length, hw]; omega
    · cases h3

/-- A step from a state with a known fetch (R90, R96, R100). -/
theorem step_of_executes {s t : State} {f : Fetched} (he : s.Executes f) (h : step s = .next t) :
    ∃ u, exec f.insn.instr (s.beginInsn f) = .next u ∧ t = u.peripherals := by
  obtain ⟨-, ⟨g, hg, -⟩ | ⟨g, u, hg, hu, ht⟩⟩ := step_cases h
  · rw [he.2] at hg; cases hg
  · rw [he.2] at hg; cases hg; exact ⟨u, hu, ht⟩

end Sys2Proof.Machine
end

