-- ==== Sys2Proof/Laws/PerInstr.lean ====
section
/-! SUPPORT. Statements about every instruction, one lemma per constructor: its opcode is legal (R75, R77), and its word carries its
opcode and its fields (R71). -/

namespace Sys2Proof.Laws

/-- The opcode is one of 0..21, and the decoder's list holds the instruction at that position (R75). -/
def OpcodeLegal.Statement (i : Instr) : Prop :=
  i.opcode.toNat ≤ 21 ∧
    (instrForms.map fun form => form i.fields.1 i.fields.2.1 i.fields.2.2)[i.opcode.toNat]? = some i

/-- The four fields of the encoded word are the instruction's (R71). -/
def EncodedFields.Statement (i : Instr) : Prop :=
  opcodeField (encodeWord i) = i.opcode ∧
    (rdField (encodeWord i), rsField (encodeWord i), rtField (encodeWord i)) = i.fields

/-- The encoded fields of any instruction, from the law of the sum. -/
theorem EncodedFields.of_sum (i : Instr) : EncodedFields.Statement i := by
  obtain ⟨h0, h1, h2, h3⟩ := fields_of_sum i.opcode i.fields.1 i.fields.2.1 i.fields.2.2
  exact ⟨h0, Prod.ext h1 (Prod.ext h2 h3)⟩

/-- The opcode table, read once (R75). -/
theorem OpcodeLegal.of_table (i : Instr) : OpcodeLegal.Statement i := by
  cases i <;> exact ⟨by simp [Instr.opcode], rfl⟩

theorem OpcodeLegal.add (rd rs rt : RegIx) : OpcodeLegal.Statement (.add rd rs rt) :=
  OpcodeLegal.of_table _
theorem OpcodeLegal.sub (rd rs rt : RegIx) : OpcodeLegal.Statement (.sub rd rs rt) :=
  OpcodeLegal.of_table _
theorem OpcodeLegal.mul (rd rs rt : RegIx) : OpcodeLegal.Statement (.mul rd rs rt) :=
  OpcodeLegal.of_table _
theorem OpcodeLegal.and (rd rs rt : RegIx) : OpcodeLegal.Statement (.and rd rs rt) :=
  OpcodeLegal.of_table _
theorem OpcodeLegal.or (rd rs rt : RegIx) : OpcodeLegal.Statement (.or rd rs rt) :=
  OpcodeLegal.of_table _
theorem OpcodeLegal.xor (rd rs rt : RegIx) : OpcodeLegal.Statement (.xor rd rs rt) :=
  OpcodeLegal.of_table _
theorem OpcodeLegal.sll (rd rs rt : RegIx) : OpcodeLegal.Statement (.sll rd rs rt) :=
  OpcodeLegal.of_table _
theorem OpcodeLegal.sra (rd rs rt : RegIx) : OpcodeLegal.Statement (.sra rd rs rt) :=
  OpcodeLegal.of_table _
theorem OpcodeLegal.srl (rd rs rt : RegIx) : OpcodeLegal.Statement (.srl rd rs rt) :=
  OpcodeLegal.of_table _
theorem OpcodeLegal.beq (rd rs rt : RegIx) : OpcodeLegal.Statement (.beq rd rs rt) :=
  OpcodeLegal.of_table _
theorem OpcodeLegal.bne (rd rs rt : RegIx) : OpcodeLegal.Statement (.bne rd rs rt) :=
  OpcodeLegal.of_table _
theorem OpcodeLegal.blt (rd rs rt : RegIx) : OpcodeLegal.Statement (.blt rd rs rt) :=
  OpcodeLegal.of_table _
theorem OpcodeLegal.bgt (rd rs rt : RegIx) : OpcodeLegal.Statement (.bgt rd rs rt) :=
  OpcodeLegal.of_table _
theorem OpcodeLegal.ble (rd rs rt : RegIx) : OpcodeLegal.Statement (.ble rd rs rt) :=
  OpcodeLegal.of_table _
theorem OpcodeLegal.bge (rd rs rt : RegIx) : OpcodeLegal.Statement (.bge rd rs rt) :=
  OpcodeLegal.of_table _
theorem OpcodeLegal.jal (rd rs rt : RegIx) : OpcodeLegal.Statement (.jal rd rs rt) :=
  OpcodeLegal.of_table _
theorem OpcodeLegal.lw (rd rs rt : RegIx) : OpcodeLegal.Statement (.lw rd rs rt) :=
  OpcodeLegal.of_table _
theorem OpcodeLegal.sw (rd rs rt : RegIx) : OpcodeLegal.Statement (.sw rd rs rt) :=
  OpcodeLegal.of_table _
theorem OpcodeLegal.reti (rd rs rt : RegIx) : OpcodeLegal.Statement (.reti rd rs rt) :=
  OpcodeLegal.of_table _
theorem OpcodeLegal.ioIn (rd rs rt : RegIx) : OpcodeLegal.Statement (.ioIn rd rs rt) :=
  OpcodeLegal.of_table _
theorem OpcodeLegal.ioOut (rd rs rt : RegIx) : OpcodeLegal.Statement (.ioOut rd rs rt) :=
  OpcodeLegal.of_table _
theorem OpcodeLegal.halt (rd rs rt : RegIx) : OpcodeLegal.Statement (.halt rd rs rt) :=
  OpcodeLegal.of_table _

theorem EncodedFields.add (rd rs rt : RegIx) : EncodedFields.Statement (.add rd rs rt) :=
  EncodedFields.of_sum _
theorem EncodedFields.sub (rd rs rt : RegIx) : EncodedFields.Statement (.sub rd rs rt) :=
  EncodedFields.of_sum _
theorem EncodedFields.mul (rd rs rt : RegIx) : EncodedFields.Statement (.mul rd rs rt) :=
  EncodedFields.of_sum _
theorem EncodedFields.and (rd rs rt : RegIx) : EncodedFields.Statement (.and rd rs rt) :=
  EncodedFields.of_sum _
theorem EncodedFields.or (rd rs rt : RegIx) : EncodedFields.Statement (.or rd rs rt) :=
  EncodedFields.of_sum _
theorem EncodedFields.xor (rd rs rt : RegIx) : EncodedFields.Statement (.xor rd rs rt) :=
  EncodedFields.of_sum _
theorem EncodedFields.sll (rd rs rt : RegIx) : EncodedFields.Statement (.sll rd rs rt) :=
  EncodedFields.of_sum _
theorem EncodedFields.sra (rd rs rt : RegIx) : EncodedFields.Statement (.sra rd rs rt) :=
  EncodedFields.of_sum _
theorem EncodedFields.srl (rd rs rt : RegIx) : EncodedFields.Statement (.srl rd rs rt) :=
  EncodedFields.of_sum _
theorem EncodedFields.beq (rd rs rt : RegIx) : EncodedFields.Statement (.beq rd rs rt) :=
  EncodedFields.of_sum _
theorem EncodedFields.bne (rd rs rt : RegIx) : EncodedFields.Statement (.bne rd rs rt) :=
  EncodedFields.of_sum _
theorem EncodedFields.blt (rd rs rt : RegIx) : EncodedFields.Statement (.blt rd rs rt) :=
  EncodedFields.of_sum _
theorem EncodedFields.bgt (rd rs rt : RegIx) : EncodedFields.Statement (.bgt rd rs rt) :=
  EncodedFields.of_sum _
theorem EncodedFields.ble (rd rs rt : RegIx) : EncodedFields.Statement (.ble rd rs rt) :=
  EncodedFields.of_sum _
theorem EncodedFields.bge (rd rs rt : RegIx) : EncodedFields.Statement (.bge rd rs rt) :=
  EncodedFields.of_sum _
theorem EncodedFields.jal (rd rs rt : RegIx) : EncodedFields.Statement (.jal rd rs rt) :=
  EncodedFields.of_sum _
theorem EncodedFields.lw (rd rs rt : RegIx) : EncodedFields.Statement (.lw rd rs rt) :=
  EncodedFields.of_sum _
theorem EncodedFields.sw (rd rs rt : RegIx) : EncodedFields.Statement (.sw rd rs rt) :=
  EncodedFields.of_sum _
theorem EncodedFields.reti (rd rs rt : RegIx) : EncodedFields.Statement (.reti rd rs rt) :=
  EncodedFields.of_sum _
theorem EncodedFields.ioIn (rd rs rt : RegIx) : EncodedFields.Statement (.ioIn rd rs rt) :=
  EncodedFields.of_sum _
theorem EncodedFields.ioOut (rd rs rt : RegIx) : EncodedFields.Statement (.ioOut rd rs rt) :=
  EncodedFields.of_sum _
theorem EncodedFields.halt (rd rs rt : RegIx) : EncodedFields.Statement (.halt rd rs rt) :=
  EncodedFields.of_sum _

end Sys2Proof.Laws
end

