-- ==== Sys2Proof/Tests/Slice0.lean ====
section
/-! SUPPORT. Tests of the author's own, on words and values taken from `spec/95_test_vectors.md` (its section numbers stand in the
comments) or computed by hand from the named rule, and for every statement with hypotheses a state that meets them. -/

namespace Sys2Proof.Tests

set_option Elab.async false

open Sys2Proof.Machine

/-! ### Helpers -/

/-- Reset with `DISK_LATENCY = 6` and these words in memory from address 0. -/
def boot (words : List Word) : State :=
  { State.reset with mem := loadCells 0 words, diskLatency := 6 }

/-- Set some general registers. -/
def regs (l : List (RegIx × RegVal)) (s : State) : State := l.foldl (fun t p => t.setReg p.1 p.2) s

/-- Set some I/O registers. -/
def ios (l : List (IoIx × RegVal)) (s : State) : State := l.foldl (fun t p => t.setIo p.1 p.2) s

/-- What `g` sees after one step. -/
def seen {α : Type} (s : State) (g : State → α) : Option α :=
  match step s with
  | .next t => some (g t)
  | _ => none

/-- What `g` sees after one execution. -/
def ran {α : Type} (i : Instr) (s : State) (g : State → α) : Option α :=
  match exec i s with
  | .next t => some (g t)
  | _ => none

/-! ### Well-formedness: each check refuses an ill-formed term -/

theorem test_wf_accepts_both_forms :
    Insn.wf ⟨.add 2 3 0, none⟩ = true ∧ Insn.wf ⟨.add 7 0 1, some 7⟩ = true := by decide
theorem test_wf_refuses_missing_immediate : Insn.wf ⟨.add 7 0 1, none⟩ = false := by decide
theorem test_wf_refuses_extra_immediate : Insn.wf ⟨.halt 0 0 0, some 1⟩ = false := by decide
theorem test_inputs_wf : RunInputs.wf ⟨[0x15000], [0xABCDE], [5, 6, 2000], 16⟩ = true := by decide
theorem test_inputs_refuses_long_memory :
    RunInputs.wf ⟨List.replicate 4097 0, [], [], 1⟩ = false := by decide +kernel
theorem test_inputs_refuses_long_disk :
    RunInputs.wf ⟨[], List.replicate 16385 0, [], 1⟩ = false := by decide +kernel
theorem test_inputs_refuses_descending : RunInputs.wf ⟨[], [], [6, 5], 1⟩ = false := by decide
theorem test_inputs_refuses_negative : RunInputs.wf ⟨[], [], [-1], 1⟩ = false := by decide
theorem test_inputs_refuses_wide : RunInputs.wf ⟨[], [], [2 ^ 31], 1⟩ = false := by decide
theorem test_inputs_refuses_zero_latency : RunInputs.wf ⟨[], [], [], 0⟩ = false := by decide
theorem test_load_refuses : State.load ⟨[], [], [], 0⟩ = none := by decide

/-! ### Decoding (95 section 2.1 to 2.5; `and`, `or`, `xor` by hand from R71 and R75) -/

theorem test_decode_add : decode [0x00230, 5] = .ok ⟨.add 2 3 0, none⟩ [5] := by decide
theorem test_decode_sub : decode [0x01771, 0x00001] = .ok ⟨.sub 7 7 1, some 1⟩ [] := by decide
theorem test_decode_mul : decode [0x02B88] = .ok ⟨.mul 11 8 8, none⟩ [] := by decide
theorem test_decode_and : decode [0x03234] = .ok ⟨.and 2 3 4, none⟩ [] := by decide
theorem test_decode_or : decode [0x04567] = .ok ⟨.or 5 6 7, none⟩ [] := by decide
theorem test_decode_xor : decode [0x058FE] = .ok ⟨.xor 8 15 14, none⟩ [] := by decide
theorem test_decode_sll : decode [0x06981, 0x0000C] = .ok ⟨.sll 9 8 1, some 12⟩ [] := by decide
theorem test_decode_sra : decode [0x07991, 0x0000C] = .ok ⟨.sra 9 9 1, some 12⟩ [] := by decide
theorem test_decode_srl : decode [0x08A71, 0x0001C] = .ok ⟨.srl 10 7 1, some 28⟩ [] := by decide
theorem test_decode_beq : decode [0x09934] = .ok ⟨.beq 9 3 4, none⟩ [] := by decide
theorem test_decode_bne : decode [0x0A170, 3] = .ok ⟨.bne 1 7 0, some 3⟩ [] := by decide
theorem test_decode_blt : decode [0x0B9A8] = .ok ⟨.blt 9 10 8, none⟩ [] := by decide
theorem test_decode_bgt : decode [0x0C130, 8] = .ok ⟨.bgt 1 3 0, some 8⟩ [] := by decide
theorem test_decode_ble : decode [0x0D134, 8] = .ok ⟨.ble 1 3 4, some 8⟩ [] := by decide
theorem test_decode_bge : decode [0x0E134, 8] = .ok ⟨.bge 1 3 4, some 8⟩ [] := by decide
theorem test_decode_jal : decode [0x0FF10, 6] = .ok ⟨.jal 15 1 0, some 6⟩ [] := by decide
theorem test_decode_lw : decode [0x10834] = .ok ⟨.lw 8 3 4, none⟩ [] := by decide
theorem test_decode_sw : decode [0x11B10, 0x01001] = .ok ⟨.sw 11 1 0, some 0x01001⟩ [] := by decide
theorem test_decode_reti : decode [0x12000] = .ok ⟨.reti 0 0 0, none⟩ [] := by decide
theorem test_decode_in : decode [0x13834] = .ok ⟨.ioIn 8 3 4, none⟩ [] := by decide
theorem test_decode_out : decode [0x14701, 6] = .ok ⟨.ioOut 7 0 1, some 6⟩ [] := by decide
theorem test_decode_halt : decode [0x15100, 0] = .ok ⟨.halt 1 0 0, some 0⟩ [] := by decide
theorem test_decode_refuses :
    decode [0x16000] = .illegalOpcode 0x16000 ∧ decode [0xFFFFF] = .illegalOpcode 0xFFFFF ∧
    decode [0x00701] = .missingImmediate (.add 7 0 1) ∧ decode [] = .noWord := by decide
theorem test_encode_two_words : encode ⟨.srl 10 7 1, some 0x1C⟩ = [0x08A71, 0x0001C] := by decide
theorem test_table_word : decodeTableWord 20 0x0B9A8 = some (.blt 9 10 8) ∧
    decodeTableWord 40 (0x00007 * 2 ^ 20 + 0x00701) = some (.add 7 0 1) ∧
    decodeTableWord 20 0x16000 = none := by decide
theorem test_with_fetch_word :
    seen (State.reset.withFetchWord 40 (0x00007 * 2 ^ 20 + 0x00701)) (fun t => (t.reg 7, t.pc)) =
      some (7, 2) := by decide +kernel

/-! ### Conversions (95 S2 and section 2.1) -/

theorem test_sext20 : sext20 0x7FFFF = 0x0007FFFF ∧ sext20 0x80000 = 0xFFF80000 ∧
    sext20 0xFFFFF = 0xFFFFFFFF ∧ zext20 0xFFFFF = 0x000FFFFF := by decide
theorem test_low20 : low20 0x12345678 = 0x45678 ∧ low8 0x000ABCDE = 0xDE := by decide

/-! ### Instructions (95 section 1 and sections 2.2 to 2.5) -/

theorem test_step_s1 : seen (regs [(3, 5)] (boot [0x00230]))
    (fun t => (t.reg 2, t.pc, t.clks, t.trace.map (fun r => (r.addr, r.word)))) =
      some (5, 1, 1, [(0, 0x00230)]) := by decide +kernel
theorem test_add_writes_imm : seen (regs [(3, 4)] (boot [0x00133, 9]))
    (fun t => (t.reg 1, t.pc, t.clks, t.trace.map (fun r => r.regs[1]))) =
      some (8, 2, 2, [9]) := by decide +kernel
theorem test_sub_does_not_write_imm : seen (regs [(3, 4)] (boot [0x01133, 9]))
    (fun t => (t.reg 1, t.pc)) = some (9, 2) := by decide +kernel
theorem test_sub_wraps : ran (.sub 2 3 4) (regs [(3, 3), (4, 5)] (boot [])) (·.reg 2) =
    some 0xFFFFFFFE := by decide +kernel
theorem test_mul_negative : ran (.mul 2 3 4) (regs [(3, 6), (4, 0xFFFFFFF9)] (boot [])) (·.reg 2) =
    some 0xFFFFFFD6 := by decide +kernel
theorem test_mul_low_bits : ran (.mul 3 3 3) (regs [(3, 0x000FFFFF)] (boot [])) (·.reg 3) =
    some 0xFFE00001 := by decide +kernel
theorem test_and : ran (.and 2 3 4) (regs [(3, 0x0F0F00FF), (4, 0x00FF0FF0)] (boot [])) (·.reg 2) =
    some 0x000F00F0 := by decide +kernel
theorem test_or : ran (.or 2 3 4) (regs [(3, 0x0F0F00FF), (4, 0x00FF0FF0)] (boot [])) (·.reg 2) =
    some 0x0FFF0FFF := by decide +kernel
theorem test_xor : ran (.xor 2 3 4) (regs [(3, 0x0F0F00FF), (4, 0x00FF0FF0)] (boot [])) (·.reg 2) =
    some 0x0FF00F0F := by decide +kernel
theorem test_sll : ran (.sll 2 3 4) (regs [(3, 0x000FFFFF), (4, 0xC)] (boot [])) (·.reg 2) =
    some 0xFFFFF000 := by decide +kernel
theorem test_sra : ran (.sra 2 3 4) (regs [(3, 0xFFFFFFFD), (4, 1)] (boot [])) (·.reg 2) =
    some 0xFFFFFFFE := by decide +kernel
theorem test_sra_31 : ran (.sra 2 3 4) (regs [(3, 0x80000000), (4, 31)] (boot [])) (·.reg 2) =
    some 0xFFFFFFFF := by decide +kernel
theorem test_srl_31 : ran (.srl 2 3 4) (regs [(3, 0x80000000), (4, 31)] (boot [])) (·.reg 2) =
    some 1 := by decide +kernel
theorem test_shift_open_draws : ran (.srl 2 3 4) (regs [(4, 32)] (boot [])) (·.draws) = some 1 := by
  decide +kernel
theorem test_beq : seen (regs [(3, 5), (4, 5), (9, 0x40)] (boot [0x09934])) (·.pc) = some 0x40 ∧
    seen (regs [(3, 5), (4, 6), (9, 0x40)] (boot [0x09934])) (·.pc) = some 1 := by decide +kernel
theorem test_bne : seen (boot [0x0A170, 3]) (·.pc) = some 2 ∧
    seen (regs [(7, 9)] (boot [0x0A170, 3])) (·.pc) = some 3 := by decide +kernel
theorem test_blt_signed : seen (regs [(3, 0xFFFFFFFF), (4, 1), (9, 0x40)] (boot [0x0B934])) (·.pc) =
    some 0x40 := by decide +kernel
theorem test_blt_negative_target : seen (boot [0x0B110, 0xFFFFC]) (·.pc) = some 0xFFFFFFFC := by
  decide +kernel
theorem test_bgt : seen (regs [(3, 1)] (boot [0x0C130, 8])) (·.pc) = some 8 ∧
    seen (regs [(3, 0x80000000)] (boot [0x0C130, 8])) (·.pc) = some 2 := by decide +kernel
theorem test_ble : seen (regs [(3, 7), (4, 7)] (boot [0x0D134, 8])) (·.pc) = some 8 := by
  decide +kernel
theorem test_bge : seen (regs [(3, 0x7FFFFFFF), (4, 0x80000000)] (boot [0x0E134, 8])) (·.pc) =
    some 8 ∧
    seen (regs [(3, 0x80000000), (4, 0x7FFFFFFF)] (boot [0x0E134, 8])) (·.pc) = some 2 := by
  decide +kernel
theorem test_jal : seen ((boot [0, 0, 0x0FF10, 6]).setPc 2) (fun t => (t.pc, t.reg 15)) =
    some (6, 4) := by decide +kernel
theorem test_jal_same_register :
    seen (regs [(3, 9)] ((boot [0, 0, 0, 0, 0, 0x0F330]).setPc 5)) (fun t => (t.pc, t.reg 3)) =
      some (6, 6) := by decide +kernel
theorem test_lw_wraps : seen ((boot [0x10801, 0xFFFFF]).setMemWord 4095 0x00ABC)
    (fun t => (t.reg 8, t.clks, t.cost)) = some (0x00000ABC, 3, 3) := by decide +kernel
theorem test_lw_zero_extends : seen (regs [(3, 0x100), (4, 2)] ((boot [0x10834]).setMemWord 0x102 0x80000))
    (fun t => (t.reg 8, t.cost)) = some (0x00080000, 2) := by decide +kernel
theorem test_sw_wraps : seen (regs [(7, 0x12345678), (3, 0xFFF), (4, 1)] (boot [0x11734]))
    (fun t => (t.memWord 0, t.cost)) = some (0x45678, 2) := by decide +kernel
theorem test_sw_zero_unlists : seen (regs [(3, 9)] ((boot [0x11030, 0]).setMemWord 9 5))
    (fun t => (t.memWord 9, t.mem)) = some (0, [(0, 0x11030)]) := by decide +kernel
theorem test_in_clks : seen (boot [0x13701, 8]) (fun t => (t.reg 7, t.hwreg)) =
    some (2, [⟨2, .read, 8, 2⟩]) := by decide +kernel
theorem test_in_wraps_index : seen (regs [(3, 20), (4, 3)] (ios [(0, 1)] (boot [0x13834])))
    (fun t => (t.reg 8, t.hwreg.map (·.index))) = some (1, [0]) := by decide +kernel
theorem test_out_leds : seen (boot [0x14101, 9]) (fun t => (t.ioReg 9, t.hwreg, t.ledsLog)) =
    some (9, [⟨2, .write, 9, 9⟩], [⟨2, 9⟩]) := by decide +kernel
theorem test_out_pixel :
    seen (regs [(7, 1)] (ios [(20, 0x10005), (21, 0xABCDE)] (boot [0x14701, 0x16])))
      (fun t => (t.fb, t.ioReg 22, t.hwreg.map (·.value))) = some ([(5, 0xDE)], 0, [1]) := by
  decide +kernel
theorem test_reti : seen (ios [(7, 0x12)] ((boot [0x12000]).setInIsr true))
    (fun t => (t.pc, t.inIsr)) = some (0x12, false) := by decide +kernel
theorem test_reti_reenters :
    seen (ios [(7, 0x12), (0, 1), (3, 1), (6, 0x14)] ((boot [0x12000]).setInIsr true))
      (fun t => (t.pc, t.ioReg 7, t.inIsr)) = some (0x14, 0x12, true) := by decide +kernel
theorem test_halt : seen (boot [0x15000]) (fun t => (t.halted, t.pc, t.clks)) =
    some (true, 1, 1) := by decide +kernel
theorem test_halt_two_words : seen (boot [0x15100]) (fun t => (t.halted, t.pc, t.clks)) =
    some (true, 2, 2) := by decide +kernel

/-! ### Interrupts, the controllers and the faults (95 sections 2.5, 2.7 to 2.9, programs F1, F3, F4) -/

theorem test_software_interrupt :
    seen (regs [(7, 1)] (ios [(0, 1), (6, 0x30)] (boot [0x14701, 3])))
      (fun t => (t.pc, t.ioReg 7, t.inIsr)) = some (0x30, 2, true) := by decide +kernel
theorem test_no_nested_interrupt :
    seen (ios [(0, 1), (3, 1), (6, 0x30)] ((boot [0]).setInIsr true)) (fun t => (t.pc, t.ioReg 7)) =
      some (1, 0) := by decide +kernel
theorem test_timer_expires : seen (ios [(11, 1), (13, 5), (12, 4)] (boot [0x00701]))
    (fun t => (t.ioReg 12, t.ioReg 3)) = some (0, 1) := by decide +kernel
theorem test_timer_counts : seen (ios [(11, 1), (13, 5), (12, 2)] (boot [0x00701]))
    (fun t => (t.ioReg 12, t.ioReg 3)) = some (4, 0) := by decide +kernel
theorem test_injector :
    seen { ios [(8, 4)] (boot [0x00701]) with irq2Schedule := [5, 6, 2000] }
      (fun t => (t.ioReg 5, t.schedCursor)) = some (1, 1) := by decide +kernel
theorem test_disk_starts : seen (regs [(7, 2)] (boot [0x14701, 0xE]))
    (fun t => (t.ioReg 14, t.ioReg 17, t.diskAcc)) = some (2, 1, 2) := by decide +kernel
theorem test_disk_boundary :
    seen { ios [(14, 1), (17, 1)] (boot [0]) with diskAcc := 4 }
      (fun t => (t.ioReg 17, t.diskAcc, t.ioReg 4)) = some (1, 5, 0) ∧
    seen { ios [(14, 1), (17, 1)] (boot [0]) with diskAcc := 5 }
      (fun t => (t.ioReg 17, t.diskAcc, t.ioReg 4, t.ioReg 14)) = some (0, 0, 1, 0) := by
  decide +kernel
theorem test_disk_read_wraps :
    seen { ios [(14, 1), (15, 127), (16, 4000), (17, 1)] (boot [0]) with
        diskAcc := 5, disk := [(16256, 0xABCDE), (16383, 0x00012)] }
      (fun t => t.mem) = some [(31, 0x00012), (4000, 0xABCDE)] := by decide +kernel
theorem test_disk_write :
    seen { ios [(14, 2), (15, 5), (16, 768), (17, 1)] (boot [0]) with
        diskAcc := 5, mem := [(768, 0x00123)], disk := [(641, 7)] }
      (fun t => t.disk) = some [(640, 0x00123)] := by decide +kernel
theorem test_illegal_opcode : seen (boot [0x16000]) (fun t => (t.fault, t.pc, t.clks, t.trace)) =
    some (some (.illegalOpcode 0 0x16000), 0, 0, []) := by decide +kernel
theorem test_second_word_outside : seen (((boot []).setMemWord 4095 0x00701).setPc 4095)
    (fun t => (t.fault, t.pc)) = some (some (.pcOutOfRange 4095), 4095) := by decide +kernel
theorem test_negative_pc : seen ((boot []).setPc 0xFFFFFFFF) (·.fault) =
    some (some (.pcOutOfRange 0xFFFFFFFF)) := by decide +kernel
theorem test_stopped : seen ((boot []).setHalted) (·.pc) = none ∧
    seen ((boot []).setFault (.pcOutOfRange 0)) (·.pc) = none := by decide +kernel

/-! ### Every statement with hypotheses: states and operands that meet them, clause by clause -/

theorem step_of_seen {α : Type} {s : State} {g : State → α} {v : α} (h : seen s g = some v) :
    ∃ t, step s = .next t ∧ g t = v := by
  unfold seen at h
  split at h
  · exact ⟨_, by assumption, by simpa using h⟩
  · cases h

theorem steps_of_seen {s : State} (h : seen s (fun _ => true) = some true) : ∃ t, step s = .next t :=
  (step_of_seen h).imp fun _ h => h.1

theorem exec_of_ran {α : Type} {i : Instr} {s : State} {g : State → α} {v : α} (h : ran i s g = some v) :
    ∃ t, exec i s = .next t ∧ g t = v := by
  unfold ran at h
  split at h
  · exact ⟨_, by assumption, by simpa using h⟩
  · cases h

theorem witness_DecoderAnswersByOpcode :
    (0x15FFF : Word).toNat / 4096 ≤ 21 ∧ 22 ≤ (0x16000 : Word).toNat / 4096 := by decide

theorem witness_EncodeThenDecode :
    Insn.wf ⟨.add 1 15 0, some 0xFFFFF⟩ = true ∧ Insn.wf ⟨.halt 15 15 15, none⟩ = true := by decide

theorem witness_DecodeThenEncode :
    decode [0x00701, 7, 9] = .ok ⟨.add 7 0 1, some 7⟩ [9] ∧
    decode [0x15000, 9] = .ok ⟨.halt 0 0 0, none⟩ [9] := by decide

theorem witness_InstructionLengthFromFields :
    decode [0x00010, 7, 9] = .ok ⟨.add 0 1 0, some 7⟩ [9] ∧
    decode [0x00230] = .ok ⟨.add 2 3 0, none⟩ [] := by decide

theorem witness_ShiftsInRangeWriteResult :
    (0 ≤ s32 ((boot []).reg 4) ∧ s32 ((boot []).reg 4) ≤ 31) ∧
    (0 ≤ s32 ((regs [(4, 31)] (boot [])).reg 4) ∧ s32 ((regs [(4, 31)] (boot [])).reg 4) ≤ 31) := by
  decide +kernel

theorem witness_ShiftsOutOfRangeComplete :
    s32 ((regs [(4, 0xFFFFFFFF)] (boot [])).reg 4) < 0 ∧ 31 < s32 ((regs [(4, 32)] (boot [])).reg 4) := by
  decide +kernel

theorem witness_OnlyAddWritesImmediateRegister :
    (∃ t, exec (.add 1 3 3) (boot []) = .next t) ∧
    (∃ t, exec (.lw 1 0 0) (boot []) = .next t) ∧ ∀ rd rs rt, Instr.lw 1 0 0 ≠ .add rd rs rt :=
  ⟨⟨_, rfl⟩, ⟨_, rfl⟩, by simp⟩

theorem witness_JalLinksThenJumps :
    mayWrite 15 false ∧ ((3 : RegIx) = 3 ∧ mayWrite 3 false) ∧
    ¬ ((1 : RegIx) = 1 ∧ mayWrite 1 false) ∧ ¬ ((15 : RegIx) = 3 ∧ mayWrite 15 false) := by
  unfold mayWrite; decide

/-- For `WritesOnly`, `LoadWordZeroExtends` and `InCopiesIoRegister`: the guard both ways, at its boundary registers. -/
theorem witness_mayWrite :
    mayWrite 1 true ∧ mayWrite 2 false ∧ mayWrite 15 false ∧ ¬ mayWrite 1 false ∧ ¬ mayWrite 0 true := by
  unfold mayWrite; decide

theorem witness_StoreWordKeepsLowTwentyBits : Memory.wf [(0, 1), (4095, 0xFFFFF)] = true := by decide

theorem witness_StoreThenLoadReturnsLowBits :
    Memory.wf [(0, 1), (4095, 0xFFFFF)] = true ∧ mayWrite 2 false := by
  unfold mayWrite; decide

theorem witness_IoIndexIsModulo :
    ((regs [(3, 20), (4, 2)] (boot [])).reg 3 + (regs [(3, 20), (4, 2)] (boot [])).reg 4).toNat ≤ 22 ∧
    ((boot []).reg 3 + (boot []).reg 4).toNat ≤ 22 := by decide +kernel

theorem witness_OutStoresPlainRegister :
    [(0 : RegVal), 8, 11, 13, 15, 21].Forall fun v =>
      ioIndex (regs [(3, v)] (boot [])) 3 0 ≠ Io.leds ∧
      ioIndex (regs [(3, v)] (boot [])) 3 0 ≠ Io.display7seg ∧
      ioIndex (regs [(3, v)] (boot [])) 3 0 ≠ Io.diskcmd ∧
      ioIndex (regs [(3, v)] (boot [])) 3 0 ≠ Io.monitorcmd := by decide +kernel

theorem witness_OutLogsDisplayRegisters :
    ioIndex (regs [(3, 9)] (boot [])) 3 0 = Io.leds ∧
    ioIndex (regs [(3, 10)] (boot [])) 3 0 = Io.display7seg := by decide +kernel

theorem witness_OutStartsDiskCommand :
    ioIndex (regs [(3, 14)] (boot [])) 3 0 = Io.diskcmd ∧ (regs [(7, 1)] (boot [])).reg 7 = 1 ∧
    (regs [(7, 2)] (boot [])).reg 7 = 2 := by decide +kernel

theorem witness_OutMonitorCommandWritesPixel :
    [(0 : RegVal), 65535, 65536, 0xFFFFFFFF].Forall fun a =>
      ioIndex (ios [(20, a)] (regs [(3, 22), (7, 1)] (boot []))) 3 0 = Io.monitorcmd ∧
      (ios [(20, a)] (regs [(3, 22), (7, 1)] (boot []))).reg 7 = 1 ∧
      Framebuffer.wf (ios [(20, a)] (regs [(3, 22), (7, 1)] (boot []))).fb = true := by
  decide +kernel

theorem witness_StepRunsDecodedInstruction :
    (boot [0x15000]).Running ∧
    (((boot []).setMemWord 4095 0x00230).setPc 4095).pc.toNat + (Instr.add 2 3 0).length ≤ 4096 ∧
    decodeWord (((boot []).setMemWord 4095 0x00230).setPc 4095).wordAtPc = some (.add 2 3 0) ∧
    (((boot []).setMemWord 4094 0x00701).setPc 4094).pc.toNat + (Instr.add 7 0 1).length ≤ 4096 ∧
    decodeWord (((boot []).setMemWord 4094 0x00701).setPc 4094).wordAtPc = some (.add 7 0 1) := by
  unfold State.Running; decide +kernel

theorem witness_FetchOutsideMemoryFaults :
    (boot []).Running ∧ 4096 ≤ ((boot []).setPc 4096).pc.toNat ∧
    4096 ≤ ((boot []).setPc 0xFFFFFFFF).pc.toNat ∧
    (((boot []).setMemWord 4095 0x00701).setPc 4095).pc.toNat = 4095 ∧
    decodeWord (((boot []).setMemWord 4095 0x00701).setPc 4095).wordAtPc = some (.add 7 0 1) ∧
    (Instr.add 7 0 1).immMode = true := by
  unfold State.Running; decide +kernel

theorem witness_IllegalOpcodeFaults :
    (boot [0x16000]).Running ∧ (boot [0x16000]).pc.toNat < 4096 ∧
    22 ≤ (boot [0x16000]).wordAtPc.toNat / 4096 ∧
    (((boot []).setMemWord 4095 0xFFFFF).setPc 4095).pc.toNat < 4096 ∧
    22 ≤ (((boot []).setMemWord 4095 0xFFFFF).setPc 4095).wordAtPc.toNat / 4096 := by
  unfold State.Running; decide +kernel

/-- The fetches the witnesses below execute. -/
theorem executes_boot (s : State) (w : Word) (i : Instr) (imm : Option Word)
    (hr : s.halted = false ∧ s.fault = none)
    (hf : s.fetch.toOption = some ⟨0, w, ⟨i, imm⟩⟩) : s.Executes ⟨0, w, ⟨i, imm⟩⟩ := by
  refine ⟨hr, ?_⟩
  cases h : s.fetch with
  | error f => rw [h] at hf; cases hf
  | ok f => rw [h] at hf; cases hf; rfl

theorem witness_HaltedSetOnlyByHalt :
    ((boot [0x15000]).Executes ⟨0, 0x15000, ⟨.halt 0 0 0, none⟩⟩ ∧ ∃ t, step (boot [0x15000]) = .next t) ∧
    ((boot [0x00230]).Executes ⟨0, 0x00230, ⟨.add 2 3 0, none⟩⟩ ∧ ∃ t, step (boot [0x00230]) = .next t) ∧
    (∃ t, step (boot [0x16000]) = .next t ∧ t.fault = some (.illegalOpcode 0 0x16000)) ∧
    (boot []).setHalted.halted = true := by
  refine ⟨⟨executes_boot _ _ _ _ (by decide +kernel) (by decide +kernel), steps_of_seen (by decide +kernel)⟩,
    ⟨executes_boot _ _ _ _ (by decide +kernel) (by decide +kernel), steps_of_seen (by decide +kernel)⟩,
    step_of_seen (g := (·.fault)) (by decide +kernel), rfl⟩

theorem witness_FaultedMachineTakesNoStep :
    ((boot []).setFault (.pcOutOfRange 4096)).halted = false ∧
    ((boot []).setFault (.pcOutOfRange 4096)).fault = some (.pcOutOfRange 4096) ∧
    (∃ t, step ((boot []).setPc 4096) = .next t ∧ t.fault = some (.pcOutOfRange 4096)) :=
  ⟨rfl, rfl, step_of_seen (g := (·.fault)) (by decide +kernel)⟩

theorem witness_NoOtherRuntimeFailure :
    (boot [0x15000]).Running ∧ (∃ f, (boot [0x15000]).fetch = .ok f) ∧
    Framebuffer.wf (ios [(20, 0x10005), (21, 7)] (boot [])).fb = true ∧
    (ios [(20, 0x10005), (21, 7)] (boot [])).pixelWrite.pixel 5 ≠
      (ios [(20, 0x10005), (21, 7)] (boot [])).pixel 5 :=
  ⟨⟨rfl, rfl⟩, (executes_boot _ 0x15000 (.halt 0 0 0) none (by decide +kernel) (by decide +kernel)).2 |> fun h => ⟨_, h⟩, by decide +kernel, by decide +kernel⟩

theorem witness_StepCostIsTheTable :
    ((boot [0x10801, 5]).Executes ⟨0, 0x10801, ⟨.lw 8 0 1, some 5⟩⟩ ∧
      ∃ t, step (boot [0x10801, 5]) = .next t ∧ t.cost = 3) ∧
    ((boot [0x00230]).Executes ⟨0, 0x00230, ⟨.add 2 3 0, none⟩⟩ ∧
      (∀ rd rs rt, Instr.add 2 3 0 ≠ .lw rd rs rt ∧ Instr.add 2 3 0 ≠ .sw rd rs rt) ∧
      ∃ t, step (boot [0x00230]) = .next t ∧ t.cost = 1) ∧
    ((boot [0x14101, 9]).Executes ⟨0, 0x14101, ⟨.ioOut 1 0 1, some 9⟩⟩ ∧
      ioIndex ((boot [0x14101, 9]).beginInsn ⟨0, 0x14101, ⟨.ioOut 1 0 1, some 9⟩⟩) 0 1 ≠ Io.clks ∧
      ∃ t, step (boot [0x14101, 9]) = .next t ∧ t.cost = 2) :=
  ⟨⟨executes_boot _ _ _ _ (by decide +kernel) (by decide +kernel), step_of_seen (g := (·.cost)) (by decide +kernel)⟩,
    ⟨executes_boot _ _ _ _ (by decide +kernel) (by decide +kernel), by simp,
      step_of_seen (g := (·.cost)) (by decide +kernel)⟩,
    ⟨executes_boot _ _ _ _ (by decide +kernel) (by decide +kernel), by decide +kernel,
      step_of_seen (g := (·.cost)) (by decide +kernel)⟩⟩

theorem witness_TraceRecordPerStep :
    (boot [0x10801, 5]).Executes ⟨0, 0x10801, ⟨.lw 8 0 1, some 5⟩⟩ ∧
    ∃ t, step (boot [0x10801, 5]) = .next t :=
  ⟨executes_boot _ _ _ _ (by decide +kernel) (by decide +kernel), steps_of_seen (by decide +kernel)⟩

theorem witness_InjectorConsumesOneEntry :
    (let s : State := { ios [(8, 5)] (boot []) with irq2Schedule := [5, 6], schedCursor := 0 }
     s.irq2Schedule[s.schedCursor]? = some 5 ∧ (5 : Int) ≤ s32 s.clks) ∧
    (let s : State := { ios [(8, 5)] (boot []) with irq2Schedule := [5, 6], schedCursor := 1 }
     s.irq2Schedule[s.schedCursor]? = some 6 ∧ s32 s.clks < 6) ∧
    (let s : State := { boot [] with irq2Schedule := [5, 6], schedCursor := 2 }
     s.irq2Schedule.length ≤ s.schedCursor) := by decide +kernel

theorem witness_ScheduleCursorOnlyAdvances :
    (let s : State := { ios [(8, 5)] (boot []) with irq2Schedule := [5, 6], schedCursor := 1 }
     s.schedCursor ≤ s.irq2Schedule.length ∧ ∃ t, step s = .next t ∧ t.schedCursor = 2) ∧
    (let s : State := { boot [] with irq2Schedule := [5, 6], schedCursor := 2 }
     s.schedCursor ≤ s.irq2Schedule.length ∧ ∃ t, step s = .next t ∧ t.schedCursor = 2) :=
  ⟨⟨by decide, step_of_seen (g := (·.schedCursor)) (by decide +kernel)⟩,
    ⟨by decide, step_of_seen (g := (·.schedCursor)) (by decide +kernel)⟩⟩

theorem witness_TimerCountsAndExpires :
    (boot []).ioReg Io.timerenable = 0 ∧
    (let s : State := { ios [(11, 1), (12, 3), (13, 6)] (boot []) with cost := 2 }
     s.ioReg Io.timerenable ≠ 0 ∧
      (s.ioReg Io.timercurrent + BitVec.ofNat 32 s.cost).slt (s.ioReg Io.timermax) = true) ∧
    (let s : State := { ios [(11, 1), (12, 4), (13, 6)] (boot []) with cost := 2 }
     s.ioReg Io.timerenable ≠ 0 ∧
      (s.ioReg Io.timermax).sle (s.ioReg Io.timercurrent + BitVec.ofNat 32 s.cost) = true) := by
  decide +kernel

/-- BUSY with `disk_acc = n`, about to run `add $zero, $zero, $zero` (cost 1, latency 6). -/
def busy (cmd : RegVal) (n : Nat) : State :=
  { ios [(14, cmd), (15, 5), (16, 768), (17, 1)] (boot [0]) with
    diskAcc := n, disk := [(640, 0xABCDE)] }

theorem witness_DiskCompletesAtLatencyBoundary :
    ((boot [0]).Executes ⟨0, 0, ⟨.add 0 0 0, none⟩⟩ ∧ (∃ t, step (boot [0]) = .next t) ∧
      ∃ u, exec (.add 0 0 0) ((boot [0]).beginInsn ⟨0, 0, ⟨.add 0 0 0, none⟩⟩) = .next u ∧
        u.ioReg Io.diskstatus = 0) ∧
    (busy 1 4).Executes ⟨0, 0, ⟨.add 0 0 0, none⟩⟩ ∧ (busy 1 5).Executes ⟨0, 0, ⟨.add 0 0 0, none⟩⟩ ∧
    (∃ u, exec (.add 0 0 0) ((busy 1 4).beginInsn ⟨0, 0, ⟨.add 0 0 0, none⟩⟩) = .next u ∧
      u.ioReg Io.diskstatus = 1) ∧
    (∃ u, exec (.add 0 0 0) ((busy 1 5).beginInsn ⟨0, 0, ⟨.add 0 0 0, none⟩⟩) = .next u ∧
      u.ioReg Io.diskstatus = 1) ∧
    (∃ t, step (busy 1 4) = .next t ∧ decide ((busy 1 4).diskAcc + t.cost < (busy 1 4).diskLatency) = true) ∧
    (∃ t, step (busy 1 5) = .next t ∧ decide ((busy 1 5).diskLatency ≤ (busy 1 5).diskAcc + t.cost) = true) :=
  ⟨⟨executes_boot _ _ _ _ (by decide +kernel) (by decide +kernel), steps_of_seen (by decide +kernel),
      exec_of_ran (g := (·.ioReg Io.diskstatus)) (by decide +kernel)⟩,
    executes_boot _ _ _ _ (by decide +kernel) (by decide +kernel), executes_boot _ _ _ _ (by decide +kernel) (by decide +kernel),
    exec_of_ran (g := (·.ioReg Io.diskstatus)) (by decide +kernel),
    exec_of_ran (g := (·.ioReg Io.diskstatus)) (by decide +kernel),
    step_of_seen (g := fun t => decide ((busy 1 4).diskAcc + t.cost < (busy 1 4).diskLatency))
      (by decide +kernel),
    step_of_seen (g := fun t => decide ((busy 1 5).diskLatency ≤ (busy 1 5).diskAcc + t.cost))
      (by decide +kernel)⟩

theorem witness_DiskReadTransferCopiesSector :
    Memory.wf (busy 1 5).mem = true ∧ (busy 1 5).ioReg Io.diskcmd = 1 ∧
    (∀ i, i < 128 → 0 ≠ (((busy 1 5).ioReg Io.diskbuffer).toNat + i) % 4096) := by decide +kernel

theorem witness_DiskWriteTransferCopiesSector :
    Disk.wf (busy 2 5).disk = true ∧ (busy 2 5).ioReg Io.diskcmd ≠ 1 ∧ (busy 2 5).ioReg Io.diskcmd = 2 ∧
    (∀ i, i < 128 → 639 ≠ 128 * (((busy 2 5).ioReg Io.disksector).toNat % 128) + i) ∧
    (busy 0 5).ioReg Io.diskcmd ≠ 1 ∧ (busy 0 5).ioReg Io.diskcmd ≠ 2 := by decide +kernel

/-- Line 0 enabled and pending in bit 0, the handler at 0x14, `irqreturn` 0x12. -/
def pending (words : List Word) (isr : Bool) : State :=
  (ios [(0, 1), (3, 1), (6, 0x14), (7, 0x12)] (boot words)).setInIsr isr

theorem witness_InterruptEntrySavesPc :
    takeCondition (pending [] false) = true ∧ takeCondition (pending [] true) = false ∧
    takeCondition (boot []) = false := by decide +kernel

theorem witness_NoNestedInterruptEntry :
    (pending [0x14001, 9] true).Executes ⟨0, 0x14001, ⟨.ioOut 0 0 1, some 9⟩⟩ ∧
    (pending [0x14001, 9] true).inIsr = true ∧ (∃ t, step (pending [0x14001, 9] true) = .next t) ∧
    (∀ rd rs rt, Instr.ioOut 0 0 1 ≠ .reti rd rs rt) ∧
    ∃ u, exec (.ioOut 0 0 1)
      ((pending [0x14001, 9] true).beginInsn ⟨0, 0x14001, ⟨.ioOut 0 0 1, some 9⟩⟩) = .next u :=
  ⟨executes_boot _ _ _ _ (by decide +kernel) (by decide +kernel), rfl, steps_of_seen (by decide +kernel), by simp, exec_completes _ _⟩

theorem witness_ServiceModeLeftOnlyByReti :
    (ios [(7, 0x12)] ((boot [0x12000]).setInIsr true)).inIsr = true ∧
    ∃ t, step (ios [(7, 0x12)] ((boot [0x12000]).setInIsr true)) = .next t ∧ t.inIsr = false :=
  ⟨rfl, step_of_seen (g := (·.inIsr)) (by decide +kernel)⟩

theorem witness_PendingInterruptReentersAfterReti :
    (pending [0x12000] true).Executes ⟨0, 0x12000, ⟨.reti 0 0 0, none⟩⟩ ∧
    (∃ t, step (pending [0x12000] true) = .next t) ∧
    ((pending [0x12000] true).ioReg Io.irq0enable).getLsbD 0 = true ∧
    ((pending [0x12000] true).ioReg Io.irq0status).getLsbD 0 = true ∧
    (let s := (ios [(2, 0x80000020), (5, 0x80000000), (6, 0x14)] (boot [0x12000])).setInIsr true
     s.Executes ⟨0, 0x12000, ⟨.reti 0 0 0, none⟩⟩ ∧
      ∃ t, step s = .next t ∧ t.ioReg Io.irq2enable &&& t.ioReg Io.irq2status = 0x80000000) :=
  ⟨executes_boot _ _ _ _ (by decide +kernel) (by decide +kernel), steps_of_seen (by decide +kernel),
    by decide +kernel, by decide +kernel,
    executes_boot _ _ _ _ (by decide +kernel) (by decide +kernel),
    step_of_seen (g := fun t => t.ioReg Io.irq2enable &&& t.ioReg Io.irq2status) (by decide +kernel)⟩

/-- For the statements about a step that executes no `out`: one that expires the timer and completes a transfer. -/
theorem witness_StepWithoutOut :
    (∃ t, step (ios [(11, 1), (13, 1)] (busy 1 5)) = .next t ∧ (t.ioReg 3, t.ioReg 4) = (1, 1)) ∧
    ∀ f rd rs rt, (ios [(11, 1), (13, 1)] (busy 1 5)).fetch = .ok f →
      f.insn.instr ≠ .ioOut rd rs rt := by
  refine ⟨step_of_seen (g := fun t => (t.ioReg 3, t.ioReg 4)) (by decide +kernel), ?_⟩
  intro f rd rs rt h
  have he : (ios [(11, 1), (13, 1)] (busy 1 5)).Executes ⟨0, 0, ⟨.add 0 0 0, none⟩⟩ :=
    executes_boot _ _ _ _ (by decide +kernel) (by decide +kernel)
  rw [he.2] at h
  cases h
  simp

theorem witness_MemoryChangedOnlyByStoreOrDisk :
    Memory.wf (regs [(7, 5), (3, 9)] (boot [0x11730])).mem = true ∧
    (∃ t, step (regs [(7, 5), (3, 9)] (boot [0x11730])) = .next t ∧ t.memWord 9 = 5) ∧
    (regs [(7, 5), (3, 9)] (boot [0x11730])).memWord 9 = 0 ∧
    Memory.wf (busy 1 5).mem = true ∧ (∃ t, step (busy 1 5) = .next t ∧ t.memWord 768 = 0xABCDE) ∧
    (busy 1 5).memWord 768 = 0 :=
  ⟨by decide +kernel, step_of_seen (g := (·.memWord 9)) (by decide +kernel), by decide +kernel,
    by decide +kernel, step_of_seen (g := (·.memWord 768)) (by decide +kernel), by decide +kernel⟩

theorem witness_DeviceStorageChangedOnlyByCommand :
    (let s := regs [(7, 1)] (ios [(20, 0x10005), (21, 0xDE)] (boot [0x14701, 0x16]))
     Framebuffer.wf s.fb = true ∧ (∃ t, step s = .next t ∧ t.pixel 5 = 0xDE) ∧ s.pixel 5 = 0) ∧
    Disk.wf (busy 2 5).disk = true ∧ (∃ t, step (busy 2 5) = .next t ∧ t.diskWord 640 = 0) ∧
    (busy 2 5).diskWord 640 = 0xABCDE :=
  ⟨⟨by decide +kernel, step_of_seen (g := (·.pixel 5)) (by decide +kernel), by decide +kernel⟩,
    by decide +kernel, step_of_seen (g := (·.diskWord 640)) (by decide +kernel), by decide +kernel⟩

theorem witness_StepKeepsInvariant : (busy 1 5).Inv ∧ ∃ t, step (busy 1 5) = .next t :=
  ⟨⟨by decide +kernel, by decide +kernel, by decide +kernel, by decide +kernel, by decide +kernel,
    by decide +kernel, by decide +kernel⟩, steps_of_seen (by decide +kernel)⟩

theorem witness_LoadedRunStartsFromImages :
    RunInputs.wf ⟨[0x15000], [0, 0xABCDE], [0, 5, 2147483647], 1⟩ = true := by decide

theorem witness_ImmediateRegisterNeverObserved :
    (boot [0x15000]).AgreeButImm ((boot [0x15000]).setReg 1 7) ∧
    (boot [0x15000]).x ≠ ((boot [0x15000]).setReg 1 7).x ∧ ∃ t, step (boot [0x15000]) = .next t :=
  ⟨⟨by decide +kernel, .nil, rfl⟩, by decide +kernel, steps_of_seen (by decide +kernel)⟩

theorem witness_StreamsAreNeverRead :
    (boot [0x15000]).withoutStreams = ((boot [0x15000]).emitLeds ⟨1, 2⟩).withoutStreams ∧
    boot [0x15000] ≠ (boot [0x15000]).emitLeds ⟨1, 2⟩ ∧ ∃ t, step (boot [0x15000]) = .next t :=
  ⟨rfl, by decide +kernel, steps_of_seen (by decide +kernel)⟩

theorem witness_RunInputsNeverChange :
    ∃ t, step (busy 1 5) = .next t ∧ t.ioReg Io.diskstatus = 0 :=
  step_of_seen (g := (·.ioReg Io.diskstatus)) (by decide +kernel)

theorem witness_DiskAccumulatorZeroWhenIdle :
    State.reset.ioReg Io.diskstatus ≠ 1 ∧ ((busy 1 5).ioReg Io.diskstatus ≠ 1 → (busy 1 5).diskAcc = 0) ∧
    (∃ t, step (busy 1 5) = .next t ∧ t.ioReg Io.diskstatus = 0) ∧
    (∀ f rd rs rt, (busy 1 5).fetch = .ok f → f.insn.instr = .ioOut rd rs rt →
      ioIndex ((busy 1 5).beginInsn f) rs rt ≠ Io.diskstatus) := by
  refine ⟨by decide +kernel, by decide +kernel,
    step_of_seen (g := (·.ioReg Io.diskstatus)) (by decide +kernel), ?_⟩
  intro f rd rs rt h hi
  have he : (busy 1 5).Executes ⟨0, 0, ⟨.add 0 0 0, none⟩⟩ :=
    executes_boot _ _ _ _ (by decide +kernel) (by decide +kernel)
  rw [he.2] at h
  cases h
  cases hi

end Sys2Proof.Tests
end

section
/-! PROOF. The round-trip law of the word codec (`spec/00_scope.md` rule R7). Its one idea: read as signed
integers, keeping the low 20 bits and extending their sign is the balanced remainder modulo 2^20. -/

namespace Sys2Proof.Machine

@[simp] theorem s32_sext20 (w : Word) : s32 (sext20 w) = w.toInt :=
  BitVec.toInt_signExtend_of_le (by decide)

/-- The signed value of `v[19:0]` (R6). -/
@[simp] theorem toInt_low20 (v : RegVal) : (low20 v).toInt = (s32 v).bmod (2 ^ 20) := by
  have hlow : (low20 v).toInt = (v.toNat : Int).bmod (2 ^ 20) := BitVec.toInt_extractLsb'
  have hs32 : s32 v = (v.toNat : Int).bmod (2 ^ 32) := BitVec.toInt_eq_toNat_bmod v
  rw [hlow, hs32, Int.bmod_bmod_of_dvd (pow_dvd_pow 2 (by decide))]

/-- A balanced remainder modulo 2^20 is the number itself exactly in the signed range of 20 bits. -/
theorem bmod_two_pow_20_eq_self_iff (n : Int) :
    n.bmod (2 ^ 20) = n ↔ -2 ^ 19 ≤ n ∧ n < 2 ^ 19 := by
  rw [Int.bmod_eq_iff (by decide)]
  simp

/-- A register value survives the codec exactly when it is in the signed range of a word. -/
theorem sext20_low20_eq_self_iff (v : RegVal) :
    sext20 (low20 v) = v ↔ -2 ^ 19 ≤ s32 v ∧ s32 v < 2 ^ 19 := by
  rw [← s32_inj, s32_sext20, toInt_low20, bmod_two_pow_20_eq_self_iff]

theorem s32_sext20_low20_congr (v : RegVal) :
    (s32 (sext20 (low20 v)) - s32 v) % 2 ^ 20 = 0 := by
  rw [s32_sext20, toInt_low20]
  exact Int.emod_eq_zero_of_dvd Int.dvd_bmod_sub_self

/-- Settles O1: the congruence and the range of exact round trips, each from the balanced remainder. -/
theorem wordCodecRoundTrip : Obligations.WordCodecRoundTrip :=
  fun v => ⟨s32_sext20_low20_congr v, sext20_low20_eq_self_iff v⟩

end Sys2Proof.Machine
end

section
/-! SUPPORT. What the peripheral phase does to memory, the disk, `disk_acc` and `sched_cursor`, said once for the whole phase
(`spec/60_exceptions.md` rules R181, R202 to R204). -/

namespace Sys2Proof.Machine

@[simp] theorem peripherals_schedCursor (s : State) :
    s.peripherals.schedCursor = s.injectScheduled.schedCursor := by
  simp [State.peripherals]

@[simp] theorem peripherals_diskAcc (s : State) :
    s.peripherals.diskAcc = s.injectScheduled.diskProgress.diskAcc := by
  simp [State.peripherals]

/-- Everything the phase can do to the cursor: one entry is consumed, and only one the schedule has (R44, R181). -/
theorem peripherals_schedCursor_cases (s : State) :
    s.peripherals.schedCursor = s.schedCursor ∨
    (s.schedCursor < s.irq2Schedule.length ∧ s.peripherals.schedCursor = s.schedCursor + 1) := by
  rw [peripherals_schedCursor]
  obtain ⟨t, hentry, -, h⟩ | ⟨-, h⟩ := injectScheduled_cases s <;> rw [h]
  · exact .inr ⟨(List.getElem?_eq_some_iff.1 hentry).1, rfl⟩
  · exact .inl rfl

/-- Everything the phase can do to `disk_acc` and `diskstatus`: nothing, a count below the latency, or a completion
(R202, R204). -/
theorem peripherals_diskAcc_cases (s : State) :
    (s.ioReg Io.diskstatus ≠ diskBusy ∧ s.peripherals.diskAcc = s.diskAcc) ∨
    (s.diskAcc + s.cost < s.diskLatency ∧ s.peripherals.diskAcc = s.diskAcc + s.cost ∧
      s.peripherals.ioReg Io.diskstatus = diskBusy) ∨
    s.peripherals.diskAcc = 0 := by
  have hstatus : s.injectScheduled.ioReg Io.diskstatus = s.ioReg Io.diskstatus :=
    ioReg_injectScheduled _ _ (by decide)
  rw [peripherals_diskAcc, ioReg_peripherals_disk _ _ (by decide)]
  rcases diskProgress_cases s.injectScheduled with ⟨hidle, h⟩ | ⟨hbusy, hbelow, h⟩ | ⟨-, -, h⟩ <;>
    rw [h]
  · exact .inl ⟨hstatus ▸ hidle, injectScheduled_diskAcc s⟩
  · exact .inr (.inl ⟨by simpa using hbelow, by simp, by simpa using hbusy⟩)
  · exact .inr (.inr rfl)

theorem completeTransfer_mem_wf {s : State} (hwf : Memory.wf s.mem = true) :
    Memory.wf s.completeTransfer.mem = true := by
  rw [completeTransfer_mem]
  rcases transfer_cases s with ⟨-, h⟩ | ⟨-, h⟩ | ⟨-, -, h⟩ <;> rw [h]
  · exact (memWord_transferRead s hwf).1
  · rwa [transferWrite_mem]
  · exact hwf

theorem completeTransfer_disk_wf {s : State} (hwf : Disk.wf s.disk = true) :
    Disk.wf s.completeTransfer.disk = true := by
  rw [completeTransfer_disk]
  rcases transfer_cases s with ⟨-, h⟩ | ⟨-, h⟩ | ⟨-, -, h⟩ <;> rw [h]
  · rwa [transferRead_disk]
  · exact (diskWord_transferWrite s hwf).1
  · exact hwf

theorem peripherals_mem_wf {s : State} (hwf : Memory.wf s.mem = true) :
    Memory.wf s.peripherals.mem = true := by
  rcases peripherals_storage_cases s with ⟨-, -, h, -⟩ | ⟨-, h, -⟩ <;> rw [h]
  exacts [completeTransfer_mem_wf hwf, hwf]

theorem peripherals_disk_wf {s : State} (hwf : Disk.wf s.disk = true) :
    Disk.wf s.peripherals.disk = true := by
  rcases peripherals_storage_cases s with ⟨-, -, -, h⟩ | ⟨-, -, h⟩ <;> rw [h]
  exacts [completeTransfer_disk_wf hwf, hwf]

/-- Completing a command changes only memory words of the buffer, and only for a read command (R203). -/
theorem memWord_completeTransfer (s : State) (a : Nat) (hwf : Memory.wf s.mem = true) :
    s.completeTransfer.memWord a = s.memWord a ∨
    (s.ioReg Io.diskcmd = diskCmdRead ∧ ∃ i, i < Config.sectorWords ∧ a = s.transferAddress i) := by
  simp only [State.memWord, completeTransfer_mem]
  rcases transfer_cases s with ⟨hcmd, h⟩ | ⟨-, h⟩ | ⟨-, -, h⟩ <;> rw [h]
  · by_cases hbuf : ∃ i, i < Config.sectorWords ∧ a = s.transferAddress i
    · exact .inr ⟨hcmd, hbuf⟩
    · exact .inl ((memWord_transferRead s hwf).2.2 a fun i hi ha => hbuf ⟨i, hi, ha⟩)
  · exact .inl (by rw [transferWrite_mem])
  · exact .inl rfl

/-- Completing a command changes only disk words of the sector, and only for a write command (R203). -/
theorem diskWord_completeTransfer (s : State) (d : Nat) (hwf : Disk.wf s.disk = true) :
    s.completeTransfer.diskWord d = s.diskWord d ∨
    (s.ioReg Io.diskcmd = diskCmdWrite ∧
      ∃ i, i < Config.sectorWords ∧ d = s.transferDiskIndex i) := by
  simp only [State.diskWord, completeTransfer_disk]
  rcases transfer_cases s with ⟨-, h⟩ | ⟨hcmd, h⟩ | ⟨-, -, h⟩ <;> rw [h]
  · exact .inl (by rw [transferRead_disk])
  · by_cases hsec : ∃ i, i < Config.sectorWords ∧ d = s.transferDiskIndex i
    · exact .inr ⟨hcmd, hsec⟩
    · exact .inl ((diskWord_transferWrite s hwf).2.2 d fun i hi hd => hsec ⟨i, hi, hd⟩)
  · exact .inl rfl

/-- A memory word the phase changes lies in the buffer of a read transfer that completes in it (R202, R203). -/
theorem memWord_peripherals (s : State) (a : Nat) (hwf : Memory.wf s.mem = true) :
    s.peripherals.memWord a = s.memWord a ∨
    (s.ioReg Io.diskstatus = diskBusy ∧ s.ioReg Io.diskcmd = diskCmdRead ∧
      s.diskLatency ≤ s.diskAcc + s.cost ∧
      ∃ i, i < Config.sectorWords ∧ a = s.transferAddress i) := by
  rcases peripherals_storage_cases s with ⟨hbusy, hdue, hmem, -⟩ | ⟨-, hmem, -⟩
  · rcases memWord_completeTransfer s a hwf with hkept | ⟨hcmd, hbuf⟩
    · exact .inl ((congrArg (Cells.read · a) hmem).trans hkept)
    · exact .inr ⟨hbusy, hcmd, hdue, hbuf⟩
  · exact .inl (congrArg (Cells.read · a) hmem)

/-- A disk word the phase changes lies in the sector of a write transfer that completes in it (R202, R203). -/
theorem diskWord_peripherals (s : State) (d : Nat) (hwf : Disk.wf s.disk = true) :
    s.peripherals.diskWord d = s.diskWord d ∨
    (s.ioReg Io.diskstatus = diskBusy ∧ s.ioReg Io.diskcmd = diskCmdWrite ∧
      s.diskLatency ≤ s.diskAcc + s.cost ∧
      ∃ i, i < Config.sectorWords ∧ d = s.transferDiskIndex i) := by
  rcases peripherals_storage_cases s with ⟨hbusy, hdue, -, hdisk⟩ | ⟨-, -, hdisk⟩
  · rcases diskWord_completeTransfer s d hwf with hkept | ⟨hcmd, hsec⟩
    · exact .inl ((congrArg (Cells.read · d) hdisk).trans hkept)
    · exact .inr ⟨hbusy, hcmd, hdue, hsec⟩
  · exact .inl (congrArg (Cells.read · d) hdisk)

end Sys2Proof.Machine
end

section
/-! PROOF. The invariant (R11, R37 to R39, R43, R44, R170): each of the three parts of a step that raises no fault keeps it, the load
of a run establishes it, and reset is the load of empty images. -/

namespace Sys2Proof.Machine

/-- What precedes the opcode writes register 1 at most (R93). -/
@[simp] theorem beginInsn_reg_zero (s : State) (f : Fetched) : (s.beginInsn f).reg 0#4 = s.reg 0#4 := by
  rw [beginInsn_reg, reg_loadImmediate]
  cases f.insn.imm <;> simp

theorem beginInsn_inv {s : State} (hinv : s.Inv) (f : Fetched) : (s.beginInsn f).Inv where
  zeroReg := (beginInsn_reg_zero s f).trans hinv.zeroReg
  memWf := by simpa using hinv.memWf
  diskWf := by simpa using hinv.diskWf
  fbWf := by simpa using hinv.fbWf
  diskAcc := by simpa using hinv.diskAcc
  cursor := by simpa using hinv.cursor
  oneStop := by simpa using hinv.oneStop

theorem exec_mem_wf {i : Instr} {s t : State} (h : exec i s = .next t)
    (hwf : Memory.wf s.mem = true) : Memory.wf t.mem = true := by
  obtain hm | ⟨rd, rs, rt, -, hm⟩ := exec_mem h <;> rw [hm]
  exacts [hwf, Memory.wf_write _ _ _ (effectiveAddress_lt ..) hwf]

theorem exec_fb_wf {i : Instr} {s t : State} (h : exec i s = .next t)
    (hwf : Framebuffer.wf s.fb = true) : Framebuffer.wf t.fb = true := by
  obtain hf | ⟨rd, rs, rt, -, -, -, hf⟩ := exec_fb h <;> rw [hf]
  exacts [hwf, Framebuffer.wf_write _ _ _ (wrapIndex_lt _ (by decide)) hwf]

/-- An instruction keeps the invariant in a state without a fault: `halt` would break it in a faulted one. -/
theorem exec_inv {i : Instr} {s t : State} (h : exec i s = .next t) (hinv : s.Inv)
    (hfault : s.fault = none) : t.Inv := by
  have hid := exec_sameHidden h
  exact {
    zeroReg := (exec_reg_zero h).trans hinv.zeroReg
    memWf := exec_mem_wf h hinv.memWf
    diskWf := hid.disk ▸ hinv.diskWf
    fbWf := exec_fb_wf h hinv.fbWf
    diskAcc := by rw [hid.diskAcc, hid.diskLatency]; exact hinv.diskAcc
    cursor := by rw [hid.schedCursor, hid.irq2Schedule]; exact hinv.cursor
    oneStop := fun _ => hid.fault.trans hfault }

theorem peripherals_inv {s : State} (hinv : s.Inv) : s.peripherals.Inv where
  zeroReg := (peripherals_reg s 0).trans hinv.zeroReg
  memWf := peripherals_mem_wf hinv.memWf
  diskWf := peripherals_disk_wf hinv.diskWf
  fbWf := by simpa using hinv.fbWf
  diskAcc := by
    have hlt := hinv.diskAcc
    rw [peripherals_diskLatency]
    rcases peripherals_diskAcc_cases s with ⟨-, h⟩ | ⟨hbelow, h, -⟩ | h <;> omega
  cursor := by
    have hle := hinv.cursor
    rw [peripherals_irq2Schedule]
    rcases peripherals_schedCursor_cases s with h | ⟨hlt, h⟩ <;> omega
  oneStop := by simpa using hinv.oneStop

/-- Recording a fault keeps the invariant of a machine that has not halted (R170). -/
theorem setFault_inv {s : State} (hinv : s.Inv) (hrun : s.halted = false) (f : MachineFault) :
    (s.setFault f).Inv where
  zeroReg := hinv.zeroReg
  memWf := hinv.memWf
  diskWf := hinv.diskWf
  fbWf := hinv.fbWf
  diskAcc := hinv.diskAcc
  cursor := hinv.cursor
  oneStop hhalted := nomatch hrun.symm.trans hhalted

/-- Settles O54: a step is a recorded fault, or the advance, the instruction and the peripheral phase, and each keeps the
invariant. -/
theorem stepKeepsInvariant : Obligations.StepKeepsInvariant := by
  intro s t hinv hstep
  obtain ⟨⟨hhalted, hfault⟩, ⟨f, -, rfl⟩ | ⟨f, u, -, hexec, rfl⟩⟩ := step_cases hstep
  · exact setFault_inv hinv hhalted f
  · exact peripherals_inv
      (exec_inv hexec (beginInsn_inv hinv f) ((beginInsn_fault s f).trans hfault))

@[simp] theorem reset_reg (r : RegIx) : State.reset.reg r = 0 := by
  simp [State.reset, State.reg]

@[simp] theorem reset_ioReg (k : IoIx) : State.reset.ioReg k = 0 := by
  simp [State.reset, State.ioReg]

/-- What the checks on the inputs of a run say of its images and its latency (R58, R224). -/
theorem runInputs_wf_bounds {inp : RunInputs} (h : inp.wf = true) :
    inp.memImage.length ≤ Config.memDepth ∧ inp.diskImage.length ≤ Config.diskDepth ∧
      1 ≤ inp.diskLatency := by
  simp only [RunInputs.wf, Bool.and_eq_true, decide_eq_true_eq] at h
  obtain ⟨⟨⟨hmem, hdisk⟩, -⟩, hlat⟩ := h
  exact ⟨hmem, hdisk, hlat⟩

/-- The run of well-formed inputs starts with the invariant (R47). -/
theorem initial_inv {inp : RunInputs} (h : inp.wf = true) : (State.initial inp).Inv := by
  obtain ⟨hmem, hdisk, hlat⟩ := runInputs_wf_bounds h
  exact {
    zeroReg := reset_reg 0
    memWf := loadCells_wf 0 _ (by omega)
    diskWf := loadCells_wf 0 _ (by omega)
    fbWf := rfl
    diskAcc := hlat
    cursor := Nat.zero_le _
    oneStop := fun _ => rfl }

theorem initial_memWord (inp : RunInputs) (a : Nat) :
    (State.initial inp).memWord a = inp.memImage.getD a 0 := by
  have h := read_loadCells 0 inp.memImage a
  rwa [Nat.zero_add] at h

theorem initial_diskWord (inp : RunInputs) (d : Nat) :
    (State.initial inp).diskWord d = inp.diskImage.getD d 0 := by
  have h := read_loadCells 0 inp.diskImage d
  rwa [Nat.zero_add] at h

/-- Settles O55: the loaded state is `State.initial`, which reads its images line by line. -/
theorem loadedRunStartsFromImages : Obligations.LoadedRunStartsFromImages := fun inp hwf =>
  ⟨State.initial inp, if_pos hwf, initial_inv hwf, initial_memWord inp, initial_diskWord inp,
    rfl, rfl, rfl, rfl, rfl, rfl, ⟨rfl, rfl⟩⟩

/-- Settles O53: reset is the start of the run with empty images and schedule, whose inputs are well formed because the latency is
positive. -/
theorem invariantAtReset : Obligations.InvariantAtReset :=
  initial_inv (inp := ⟨[], [], [], Config.diskLatency⟩)
    (by simp [RunInputs.wf, ascending, Config.diskLatency])

/-- Settles O52: the two register files are filled with 0, the stores are empty, the rest is read off `State.reset`. -/
theorem resetStateValues : Obligations.ResetStateValues :=
  ⟨reset_reg, rfl, reset_ioReg, fun _ => rfl, fun _ => rfl, fun _ => rfl, rfl, rfl, rfl, rfl, rfl, rfl, rfl,
    rfl, rfl, Nat.le_add_left 1 _⟩

end Sys2Proof.Machine
end

section
/-! SUPPORT. The step from what its fetch answers, and which fetches fail (`spec/40_step.md` rules R90 to R93). -/

namespace Sys2Proof.Machine

theorem step_of_fetch_ok {s u : State} {f : Fetched} (hrun : s.Running) (hfetch : s.fetch = .ok f)
    (hexec : exec f.insn.instr (s.beginInsn f) = .next u) : step s = .next u.peripherals := by
  obtain ⟨hhalted, hfault⟩ := hrun
  simp [step, hhalted, hfault, hfetch, hexec]

theorem step_of_fetch_error {s : State} {f : MachineFault} (hrun : s.Running)
    (hfetch : s.fetch = .error f) : step s = .next (s.setFault f) := by
  obtain ⟨hhalted, hfault⟩ := hrun
  simp [step, hhalted, hfault, hfetch, raiseFault]

/-- An instruction whose fetch raises no fault has its immediate word if one of its fields is 1 (R73, R93). -/
theorem imm_isSome_of_fetch {s : State} {f : Fetched} (hfetch : s.fetch = .ok f)
    (h1 : f.insn.instr.fields.1 = 1 ∨ f.insn.instr.fields.2.1 = 1 ∨ f.insn.instr.fields.2.2 = 1) :
    f.insn.imm.isSome := by
  obtain ⟨-, -, -, -, himm⟩ := fetch_ok hfetch
  have hmode : f.insn.instr.immMode = true := by
    simpa [Instr.immMode, or_assoc] using h1
  simp [himm, hmode]

/-- The range test of the fetch, in the bits of `pc` (R16, R93). -/
theorem pc_inRange_iff (v : RegVal) : (0 ≤ s32 v ∧ s32 v ≤ 4095) ↔ v.toNat < 4096 := by
  have hlt := v.isLt
  unfold s32
  rw [BitVec.toInt_eq_toNat_cond]
  split <;> omega

/-- The address of a fetch in range, in the bits of `pc`. -/
theorem toNat_s32_of_lt {v : RegVal} (h : v.toNat < 4096) : (s32 v).toNat = v.toNat := by
  unfold s32
  rw [BitVec.toInt_eq_toNat_cond]
  split <;> omega

theorem fetch_of_pc_outOfRange {s : State} (h : 4096 ≤ s.pc.toNat) :
    s.fetch = .error (.pcOutOfRange s.pc) := by
  rcases fetch_cases s with ⟨-, hfetch⟩ | ⟨hr, -⟩
  · exact hfetch
  · exact absurd ((pc_inRange_iff _).1 hr) (by omega)

/-- A two-word instruction at the last address has no second word to fetch (R93). -/
theorem fetch_of_immMode_at_last {s : State} {i : Instr} (hpc : s.pc.toNat = 4095)
    (hw : decodeWord s.wordAtPc = some i) (himm : i.immMode = true) :
    s.fetch = .error (.pcOutOfRange s.pc) := by
  cases hfetch : s.fetch with
  | ok f =>
    obtain ⟨hfits, hword, -⟩ := fetch_ok hfetch
    cases hw.symm.trans hword
    simp only [Instr.length, himm, if_true] at hfits
    omega
  | error e =>
    have hstream : s.streamWords (s32 s.pc).toNat = [s.wordAtPc] := by
      rw [toNat_s32_of_lt (by omega)]
      simp [State.streamWords, hpc, State.wordAtPc]
    have hdecode : decode [s.wordAtPc] = .missingImmediate i := by
      simp [decode, hw, himm]
    rcases fetch_cases s with ⟨-, h⟩ | ⟨-, ⟨j, rest, -, h⟩ | ⟨w, hd, h⟩ | ⟨j, -, h⟩⟩ <;>
      rw [hfetch] at h
    · exact h
    · cases h
    · rw [hstream, hdecode] at hd
      cases hd
    · exact h

end Sys2Proof.Machine
end

section
/-! PROOF. Register 1 between steps is never read (R12). Two states that differ at most in register 1 and its column of the trace are
one state with other registers and another trace, so an operation that reads neither keeps them related. An opcode reads its three
fields alone: with an immediate word register 1 has just been loaded, without one no field is 1 (R73, R93). -/

namespace Sys2Proof.Machine

/-- `s` with other general registers and another trace. -/
def State.withRegs (s : State) (x : Vector RegVal 16) (tr : List TraceRec) : State :=
  { s with x := x, trace := tr }

/-- The operation `g` neither reads nor writes the general registers and the trace. -/
def IgnoresRegs (g : State → State) : Prop :=
  ∀ (s : State) (x : Vector RegVal 16) (tr : List TraceRec), g (s.withRegs x tr) = (g s).withRegs x tr

theorem IgnoresRegs.comp {g h : State → State} (hg : IgnoresRegs g) (hh : IgnoresRegs h) :
    IgnoresRegs (g ∘ h) := fun s x tr =>
  (congrArg g (hh s x tr)).trans (hg (h s) x tr)

/-- A choice by a condition that does not read the registers. -/
theorem IgnoresRegs.ite {c : State → Prop} [DecidablePred c] {g h : State → State}
    (hc : ∀ s x tr, c (s.withRegs x tr) ↔ c s) (hg : IgnoresRegs g) (hh : IgnoresRegs h) :
    IgnoresRegs fun s => if c s then g s else h s := fun s x tr => by
  by_cases hs : c s
  · simp only [hc s x tr, hs, if_true, hg s x tr]
  · simp only [hc s x tr, hs, if_false, hh s x tr]

theorem IgnoresRegs.self_eq {g : State → State} (hg : IgnoresRegs g) (s : State) :
    g s = (g s).withRegs s.x s.trace :=
  hg s s.x s.trace

theorem ignoresRegs_outSideEffect (c : RegVal) (k : IoIx) (v : RegVal) :
    IgnoresRegs fun s => s.outSideEffect c k v := fun s x tr => by
  simp only [State.outSideEffect]
  split_ifs <;> rfl

theorem ignoresRegs_injectScheduled : IgnoresRegs State.injectScheduled := fun s x tr => by
  have hentry : (s.withRegs x tr).irq2Schedule[(s.withRegs x tr).schedCursor]? =
    s.irq2Schedule[s.schedCursor]? := rfl
  unfold State.injectScheduled
  rw [hentry]
  cases s.irq2Schedule[s.schedCursor]? with
  | none => rfl
  | some t =>
    have hconsume : IgnoresRegs fun s =>
      (s.setIo Io.irq2status statusSet).setSchedCursor (s.schedCursor + 1) := fun _ _ _ => rfl
    have hskip : IgnoresRegs fun s => s := fun _ _ _ => rfl
    exact IgnoresRegs.ite (c := fun s => t ≤ s32 s.clks) (fun _ _ _ => Iff.rfl) hconsume hskip s x tr

theorem ignoresRegs_transfer : IgnoresRegs State.transfer := fun s x tr => by
  have hmoved := completeTransfer_congr (s := s) (t := s.withRegs x tr) rfl rfl rfl rfl rfl
  simp only [completeTransfer_mem, completeTransfer_disk] at hmoved
  obtain ⟨hmem, hdisk⟩ := hmoved
  calc (s.withRegs x tr).transfer
      = ((s.withRegs x tr).setMem s.transfer.mem).setDisk s.transfer.disk := by
        rw [transfer_eq, hmem, hdisk]
    _ = ((s.setMem s.transfer.mem).setDisk s.transfer.disk).withRegs x tr := rfl
    _ = s.transfer.withRegs x tr := by rw [← transfer_eq]

theorem ignoresRegs_completeTransfer : IgnoresRegs State.completeTransfer := fun s x tr => by
  simp only [State.completeTransfer, ignoresRegs_transfer s x tr]
  rfl

theorem ignoresRegs_diskProgress : IgnoresRegs State.diskProgress :=
  have hcount : IgnoresRegs fun s => s.setDiskAcc (s.diskAcc + s.cost) := fun _ _ _ => rfl
  .ite (fun _ _ _ => Iff.rfl)
    (.ite (fun _ _ _ => Iff.rfl) (ignoresRegs_completeTransfer.comp hcount) hcount)
    fun _ _ _ => rfl

theorem ignoresRegs_timerProgress : IgnoresRegs State.timerProgress :=
  .ite (fun _ _ _ => Iff.rfl) (.ite (fun _ _ _ => Iff.rfl) (fun _ _ _ => rfl) fun _ _ _ => rfl)
    fun _ _ _ => rfl

theorem ignoresRegs_interruptAssert : IgnoresRegs State.interruptAssert :=
  .ite (fun _ _ _ => Iff.rfl) (fun _ _ _ => rfl) fun _ _ _ => rfl

theorem ignoresRegs_peripherals : IgnoresRegs State.peripherals :=
  ignoresRegs_interruptAssert.comp <| ignoresRegs_timerProgress.comp <|
    ignoresRegs_diskProgress.comp ignoresRegs_injectScheduled

section
variable {s s' : State}

theorem State.AgreeButImm.eq_withRegs (h : s.AgreeButImm s') : s' = s.withRegs s'.x s'.trace := by
  have hrest : s'.withRegs s.x s.trace = s := h.rest
  calc s' = (s'.withRegs s.x s.trace).withRegs s'.x s'.trace := rfl
    _ = s.withRegs s'.x s'.trace := by rw [hrest]

/-- What does not read the registers or the trace reads alike in related states. -/
theorem State.AgreeButImm.read_eq {α : Type} (h : s.AgreeButImm s') (g : State → α)
    (hg : ∀ x tr, g (s.withRegs x tr) = g s) : g s' = g s := by
  rw [h.eq_withRegs, hg]

/-- An operation that ignores the registers and the trace keeps two states related. -/
theorem State.AgreeButImm.map {g : State → State} (hg : IgnoresRegs g) (h : s.AgreeButImm s') :
    (g s).AgreeButImm (g s') := by
  have hs := hg.self_eq s
  have hs' : g s' = (g s).withRegs s'.x s'.trace := by rw [← hg, ← h.eq_withRegs]
  constructor
  · intro r hr
    rw [hs, hs']
    exact h.reg r hr
  · rw [hs, hs']
    exact h.trace
  · rw [hs']
    rfl

theorem State.AgreeButImm.setReg (h : s.AgreeButImm s') (rd : RegIx) (v : RegVal) :
    (s.setReg rd v).AgreeButImm (s'.setReg rd v) where
  reg r hr := by simp only [State.reg_setReg, h.reg r hr]
  trace := h.trace
  rest := congrArg (State.setReg · rd v) h.rest

theorem State.AgreeButImm.writeReg (h : s.AgreeButImm s') (rd : RegIx) (v : RegVal) (b : Bool) :
    (s.writeReg rd v b).AgreeButImm (s'.writeReg rd v b) := by
  unfold State.writeReg
  split_ifs
  exacts [h, h, h.setReg rd v]

theorem State.AgreeButImm.writeShift (h : s.AgreeButImm s') (rd : RegIx) (n : Int)
    (op : Nat → RegVal) : (writeShift s rd n op).AgreeButImm (writeShift s' rd n op) := by
  by_cases hn : 0 ≤ n ∧ n ≤ 31
  · rw [writeShift_inRange _ _ _ _ hn, writeShift_inRange _ _ _ _ hn]
    exact h.writeReg rd _ false
  · rw [writeShift_outOfRange _ _ _ _ hn, writeShift_outOfRange _ _ _ _ hn,
      h.read_eq State.draws fun _ _ => rfl]
    exact (h.map (g := State.countDraw) fun _ _ _ => rfl).writeReg rd _ false

theorem State.AgreeButImm.setPc (h : s.AgreeButImm s') (t : RegVal) :
    (s.setPc t).AgreeButImm (s'.setPc t) :=
  h.map (g := (State.setPc · t)) fun _ _ _ => rfl

theorem State.AgreeButImm.branchIf (h : s.AgreeButImm s') (c : Bool) (rd : RegIx)
    (hd : s'.reg rd = s.reg rd) : (branchIf c rd s).AgreeButImm (branchIf c rd s') := by
  have hpc : s'.pc = s.pc := h.read_eq State.pc fun _ _ => rfl
  rw [branchIf_eq, branchIf_eq, hd, hpc]
  exact h.setPc _

theorem State.AgreeButImm.emitTrace (h : s.AgreeButImm s') {r r' : TraceRec}
    (hr : r.AgreeButImm r') : (s.emitTrace r).AgreeButImm (s'.emitTrace r') where
  reg := h.reg
  trace := .cons hr h.trace
  rest := congrArg (State.emitTrace · r) h.rest

/-- What an opcode does to two related states that agree in the registers its fields name: both complete, in related
states. -/
theorem exec_agreeButImm {i : Instr} {t : State} (h : s.AgreeButImm s') (hexec : exec i s = .next t)
    (hd : s'.reg i.fields.1 = s.reg i.fields.1) (hs : s'.reg i.fields.2.1 = s.reg i.fields.2.1)
    (ht : s'.reg i.fields.2.2 = s.reg i.fields.2.2) :
    ∃ t', exec i s' = .next t' ∧ t.AgreeButImm t' := by
  have hpc : s'.pc = s.pc := h.read_eq State.pc fun _ _ => rfl
  have hclks : s'.clks = s.clks := h.read_eq State.clks fun _ _ => rfl
  have hio (k : IoIx) : s'.ioReg k = s.ioReg k := h.read_eq (State.ioReg · k) fun _ _ => rfl
  have hmem (a : Nat) : s'.memWord a = s.memWord a := h.read_eq (State.memWord · a) fun _ _ => rfl
  have hextra : IgnoresRegs State.extraCycle := fun _ _ _ => rfl
  cases i <;> cases hexec <;> simp only [Instr.fields] at hd hs ht <;> refine ⟨_, rfl, ?_⟩
  case add rd rs rt | sub rd rs rt | mul rd rs rt | and rd rs rt | or rd rs rt | xor rd rs rt =>
    rw [hs, ht]
    exact h.writeReg rd _ _
  case sll rd rs rt | sra rd rs rt | srl rd rs rt =>
    rw [hs, ht]
    exact h.writeShift rd _ _
  case beq rd rs rt | bne rd rs rt | blt rd rs rt | bgt rd rs rt | ble rd rs rt | bge rd rs rt =>
    rw [hs, ht]
    exact h.branchIf _ rd hd
  case jal rd rs rt =>
    simp only [State.reg_writeReg, hpc, hs]
    exact (h.writeReg rd _ _).setPc _
  case lw rd rs rt =>
    simp only [effectiveAddress, operandSum, hs, ht, hmem]
    exact (h.writeReg rd _ _).map hextra
  case sw rd rs rt =>
    simp only [effectiveAddress, operandSum, hs, ht, hd]
    exact (h.map (g := (State.setMemWord · _ _)) fun _ _ _ => rfl).map hextra
  case reti => exact h.map (g := State.returnFromInterrupt) fun _ _ _ => rfl
  case ioIn rd rs rt =>
    simp only [ioIndex, operandSum, hs, ht, hio, hclks]
    exact (h.writeReg rd _ _).map (g := (State.emitHwreg · _)) fun _ _ _ => rfl
  case ioOut rd rs rt =>
    simp only [ioIndex, operandSum, hs, ht, hd, hclks]
    exact (h.map (g := fun s => (s.setIo _ _).emitHwreg _) fun _ _ _ => rfl).map
      (ignoresRegs_outSideEffect _ _ _)
  case halt => exact h.map (g := State.setHalted) fun _ _ _ => rfl

/-- The immediate load keeps two states related (R93). -/
theorem State.AgreeButImm.loadImmediate (h : s.AgreeButImm s') (imm : Option Word) :
    (s.loadImmediate imm).AgreeButImm (s'.loadImmediate imm) := by
  cases imm with
  | none => exact h
  | some m => exact h.setReg 1 _

/-- What precedes the opcode keeps two states related (R93 to R95). -/
theorem State.AgreeButImm.beginInsn (h : s.AgreeButImm s') (f : Fetched) :
    (s.beginInsn f).AgreeButImm (s'.beginInsn f) := by
  have hload := h.loadImmediate f.insn.imm
  have htraced := hload.emitTrace (r := ⟨f.addr, f.word, (s.loadImmediate f.insn.imm).x⟩)
    (r' := ⟨f.addr, f.word, (s'.loadImmediate f.insn.imm).x⟩)
    ⟨rfl, rfl, fun r hr => (hload.reg r hr).symm⟩
  exact htraced.map (g := fun s =>
    ((s.setPc (wrap32 (f.addr + f.insn.instr.length))).advanceClks f.insn.instr.length).setCost
      f.insn.instr.length) fun _ _ _ => rfl

/-- Two related states agree, once the opcode is reached, in register `r` if it is not 1 or an immediate was loaded. -/
theorem State.AgreeButImm.beginInsn_reg_eq (h : s.AgreeButImm s') (f : Fetched) (r : RegIx)
    (hr : r = 1 → f.insn.imm.isSome) : (s'.beginInsn f).reg r = (s.beginInsn f).reg r := by
  by_cases h1 : r = 1
  · obtain ⟨m, hm⟩ := Option.isSome_iff_exists.1 (hr h1)
    simp [reg_loadImmediate, hm, h1]
  · exact (h.beginInsn f).reg r h1

end

/-- Settles O56: related states fetch alike and stay related through the advance; the opcode reads only registers in which they then
agree; the peripheral phase reads no register. -/
theorem immediateRegisterNeverObserved : Obligations.ImmediateRegisterNeverObserved := by
  intro s s' t h hstep
  have hfetch : s'.fetch = s.fetch := h.read_eq State.fetch fun _ _ => rfl
  obtain ⟨⟨hhalted, hfault⟩, hcases⟩ := step_cases hstep
  have hrun : s'.Running :=
    ⟨(h.read_eq State.halted fun _ _ => rfl).trans hhalted,
      (h.read_eq State.fault fun _ _ => rfl).trans hfault⟩
  obtain ⟨f, hf, rfl⟩ | ⟨f, u, hf, hexec, rfl⟩ := hcases
  · exact ⟨_, step_of_fetch_error hrun (hfetch.trans hf),
      h.map (g := (State.setFault · f)) fun _ _ _ => rfl⟩
  · have hreg (r : RegIx) (hr : r = 1 → f.insn.imm.isSome) := h.beginInsn_reg_eq f r hr
    obtain ⟨u', hexec', hu⟩ := exec_agreeButImm (h.beginInsn f) hexec
      (hreg _ fun h1 => imm_isSome_of_fetch hf (.inl h1))
      (hreg _ fun h1 => imm_isSome_of_fetch hf (.inr (.inl h1)))
      (hreg _ fun h1 => imm_isSome_of_fetch hf (.inr (.inr h1)))
    exact ⟨_, step_of_fetch_ok hrun (hfetch.trans hf) hexec', hu.map ignoresRegs_peripherals⟩

end Sys2Proof.Machine
end

section
/-! PROOF. When a step is taken and when the machine stops (R16, R42, R45, R158, R170, R172). -/

namespace Sys2Proof.Machine

/-- Settles O30: both causes make the fetch fail, and the step then only records the fault. -/
theorem fetchOutsideMemoryFaults : Obligations.FetchOutsideMemoryFaults := by
  rintro s hrun (hpc | ⟨hpc, i, hw, himm⟩)
  · exact step_of_fetch_error hrun (fetch_of_pc_outOfRange hpc)
  · exact step_of_fetch_error hrun (fetch_of_immMode_at_last hpc hw himm)

/-- `halt` and nothing else sets `halted` in a machine that runs (R42, R158). -/
theorem exec_halted_iff {i : Instr} {s t : State} (h : exec i s = .next t) (hs : s.halted = false) :
    t.halted = true ↔ ∃ rd rs rt, i = .halt rd rs rt := by
  constructor
  · intro ht
    obtain hkept | ⟨rd, rs, rt, rfl, -⟩ := exec_halted h
    · exact nomatch hs.symm.trans (hkept.symm.trans ht)
    · exact ⟨rd, rs, rt, rfl⟩
  · rintro ⟨rd, rs, rt, rfl⟩
    cases h
    rfl

/-- A step that ends with a fault has recorded it in the fetch, so it executed nothing (R170). -/
theorem step_fault_not_halted {s t : State} (h : step s = .next t) (hfault : t.fault ≠ none) :
    t.halted = false := by
  obtain ⟨⟨hhalted, hnone⟩, ⟨f, -, rfl⟩ | ⟨f, u, -, hexec, rfl⟩⟩ := step_cases h
  · exact hhalted
  · refine absurd ?_ hfault
    rw [peripherals_fault, (exec_sameHidden hexec).fault, beginInsn_fault, hnone]

/-- Settles O32: only `halt` sets the flag, no controller writes it, and no step leaves a halted state. -/
theorem haltedSetOnlyByHalt : Obligations.HaltedSetOnlyByHalt := by
  refine ⟨fun s t f he hstep => ?_, fun s t => step_fault_not_halted, fun s t hs hstep => ?_, rfl⟩
  · obtain ⟨⟨hhalted, -⟩, -⟩ := step_cases hstep
    obtain ⟨u, hexec, rfl⟩ := step_of_executes he hstep
    rw [peripherals_halted, exec_halted_iff hexec ((beginInsn_halted s f).trans hhalted)]
  · obtain ⟨⟨hhalted, -⟩, -⟩ := step_cases hstep
    exact nomatch hs.symm.trans hhalted

/-- Settles O33: `step` answers the recorded fault, and a fault is recorded only where nothing was executed. -/
theorem faultedMachineTakesNoStep : Obligations.FaultedMachineTakesNoStep := by
  refine ⟨fun s f hhalted hfault => by simp [step, hhalted, hfault], fun s t hstep hfault hfinal => ?_⟩
  exact nomatch (step_fault_not_halted hstep hfault).symm.trans hfinal

end Sys2Proof.Machine
end

section
/-! PROOF. The hidden state of the controllers (R41, R43, R44): no opcode reads it, and only the injector moves the cursor. -/

namespace Sys2Proof.Machine

/-- `s` with other values of `in_isr`, `disk_acc` and `sched_cursor`. -/
def State.withHidden (s : State) (b : Bool) (n c : Nat) : State :=
  { s with inIsr := b, diskAcc := n, schedCursor := c }

section
variable (s : State) (b : Bool) (n c : Nat)

theorem withHidden_writeReg (rd : RegIx) (v : RegVal) (a : Bool) :
    (s.withHidden b n c).writeReg rd v a = (s.writeReg rd v a).withHidden b n c := by
  unfold State.writeReg
  split_ifs <;> rfl

theorem withHidden_writeShift (rd : RegIx) (m : Int) (op : Nat → RegVal) :
    writeShift (s.withHidden b n c) rd m op = (writeShift s rd m op).withHidden b n c := by
  by_cases hm : 0 ≤ m ∧ m ≤ 31
  · rw [writeShift_inRange _ _ _ _ hm, writeShift_inRange _ _ _ _ hm, withHidden_writeReg]
  · rw [writeShift_outOfRange _ _ _ _ hm, writeShift_outOfRange _ _ _ _ hm, ← withHidden_writeReg]
    rfl

theorem withHidden_branchIf (p : Bool) (rd : RegIx) :
    branchIf p rd (s.withHidden b n c) = (branchIf p rd s).withHidden b n c := by
  rw [branchIf_eq, branchIf_eq]
  rfl

theorem withHidden_outSideEffect (cyc : RegVal) (k : IoIx) (v : RegVal) :
    (s.withHidden b n c).outSideEffect cyc k v = (s.outSideEffect cyc k v).withHidden b n c := by
  unfold State.outSideEffect
  split_ifs <;> rfl

/-- An opcode other than `reti` neither reads nor writes the hidden state. -/
theorem exec_withHidden {i : Instr} {t : State} (h : exec i s = .next t)
    (hreti : ∀ rd rs rt, i ≠ .reti rd rs rt) :
    exec i (s.withHidden b n c) = .next (t.withHidden b n c) := by
  cases i <;> cases h
  case reti rd rs rt => exact absurd rfl (hreti rd rs rt)
  case add | sub | mul | and | or | xor => exact congrArg _ (withHidden_writeReg ..)
  case sll | sra | srl => exact congrArg _ (withHidden_writeShift ..)
  case beq | bne | blt | bgt | ble | bge => exact congrArg _ (withHidden_branchIf ..)
  case jal | lw | ioIn =>
    simp only [exec, execJal, execLw, execIn, withHidden_writeReg]
    rfl
  case ioOut rd rs rt =>
    rw [← withHidden_outSideEffect]
    rfl
  case sw | halt => rfl

end

/-- Settles O28: every opcode but `reti` commutes with the change of the hidden state, and `reti` writes `in_isr` without reading
it. -/
theorem hiddenStateUnreadable : Obligations.HiddenStateUnreadable := by
  intro i s b n c
  by_cases hreti : ∃ rd rs rt, i = .reti rd rs rt
  · obtain ⟨rd, rs, rt, rfl⟩ := hreti
    exact ⟨_, _, rfl, rfl, rfl, .inr ⟨rd, rs, rt, rfl⟩⟩
  · obtain ⟨t, ht⟩ := exec_completes i s
    exact ⟨t, t.withHidden b n c, ht,
      exec_withHidden s b n c ht fun rd rs rt hi => hreti ⟨rd, rs, rt, hi⟩, rfl, .inl rfl⟩

/-- No opcode reads or writes the cursor (R44). -/
theorem exec_setSchedCursor {i : Instr} {s t : State} (h : exec i s = .next t) (c : Nat) :
    exec i (s.setSchedCursor c) = .next (t.setSchedCursor c) := by
  by_cases hreti : ∃ rd rs rt, i = .reti rd rs rt
  · obtain ⟨rd, rs, rt, rfl⟩ := hreti
    cases h
    rfl
  · have hother : ∀ rd rs rt, i ≠ .reti rd rs rt := fun rd rs rt hi => hreti ⟨rd, rs, rt, hi⟩
    obtain hisr | ⟨rd, rs, rt, hi, -⟩ := exec_inIsr h
    · have ht : t.withHidden s.inIsr s.diskAcc c = t.setSchedCursor c := by
        rw [← hisr, ← (exec_sameHidden h).diskAcc]
        rfl
      rw [← ht]
      exact exec_withHidden s s.inIsr s.diskAcc c h hother
    · exact absurd hi (hother rd rs rt)

/-- Everything a step can do to the cursor (R44, R181). -/
theorem step_schedCursor_cases {s t : State} (h : step s = .next t) :
    t.schedCursor = s.schedCursor ∨
    (s.schedCursor < s.irq2Schedule.length ∧ t.schedCursor = s.schedCursor + 1) := by
  obtain ⟨-, ⟨f, -, rfl⟩ | ⟨f, u, -, hexec, rfl⟩⟩ := step_cases h
  · exact .inl rfl
  · have hid := exec_sameHidden hexec
    have hphase := peripherals_schedCursor_cases u
    rwa [hid.schedCursor, hid.irq2Schedule, beginInsn_schedCursor, beginInsn_irq2Schedule] at hphase

theorem step_irq2Schedule {s t : State} (h : step s = .next t) : t.irq2Schedule = s.irq2Schedule := by
  obtain ⟨-, ⟨f, -, rfl⟩ | ⟨f, u, -, hexec, rfl⟩⟩ := step_cases h
  · rfl
  · rw [peripherals_irq2Schedule, (exec_sameHidden hexec).irq2Schedule, beginInsn_irq2Schedule]

/-- Settles O38: only the injector moves the cursor, by one entry the schedule has. -/
theorem scheduleCursorOnlyAdvances : Obligations.ScheduleCursorOnlyAdvances := by
  refine ⟨rfl, fun s t hstep => ?_, fun i s c => ?_⟩
  · rw [step_irq2Schedule hstep]
    obtain hkept | ⟨hlt, hnext⟩ := step_schedCursor_cases hstep <;> omega
  · obtain ⟨t, ht⟩ := exec_completes i s
    exact ⟨t, ht, exec_setSchedCursor ht c⟩

end Sys2Proof.Machine
end

section
/-! PROOF. `out` to the registers with a visible side effect (R24, R25, R34 to R36, R154 to R156). Every `out` first stores the value
and emits one record; the side effect acts on the state that leaves. -/

namespace Sys2Proof.Machine

/-- The state an `out` leaves before its side effect: the value stored, one record emitted (R153). -/
def State.outStored (s : State) (k : IoIx) (v : RegVal) : State :=
  (s.setIo k v).emitHwreg { cycle := s.clks, dir := .write, index := k, value := v }

theorem exec_ioOut (rd rs rt : RegIx) (s : State) :
    exec (.ioOut rd rs rt) s =
      .next ((s.outStored (ioIndex s rs rt) (s.reg rd)).outSideEffect s.clks (ioIndex s rs rt)
        (s.reg rd)) := rfl

theorem ioReg_outStored (s : State) (k l : IoIx) (v : RegVal) :
    (s.outStored k v).ioReg l = if l = k then v else s.ioReg l :=
  State.ioReg_setIo ..

/-- Storing the value changes the one I/O register, beside the record (R153). -/
theorem sameOutside_outStored (s : State) (k : IoIx) (v : RegVal) :
    s.SameOutside (s.outStored k v) nothing (fun l => l = k) nothing nothing := by
  constructor <;> try (intros; rfl)
  intro l hl
  rw [ioReg_outStored, if_neg hl]

theorem outSideEffect_leds (s : State) (c v : RegVal) :
    s.outSideEffect c Io.leds v = s.emitLeds { cycle := c, value := v } := rfl

theorem outSideEffect_display7seg (s : State) (c v : RegVal) :
    s.outSideEffect c Io.display7seg v = s.emitDisplay7seg { cycle := c, value := v } := rfl

theorem outSideEffect_monitorcmd (s : State) (c v : RegVal) :
    s.outSideEffect c Io.monitorcmd v = if v = monitorCmdWrite then s.pixelWrite else s := rfl

/-- Settles O25: beside the common store and record, the side effect is one record on the register's own stream. -/
theorem outLogsDisplayRegisters : Obligations.OutLogsDisplayRegisters := by
  rintro rd rs rt s (hk | hk) <;> rw [exec_ioOut, hk]
  · rw [outSideEffect_leds]
    exact ⟨_, rfl, State.ioReg_setIo_self .., rfl, rfl, rfl,
      (sameOutside_outStored s Io.leds _).congr rfl rfl rfl rfl rfl rfl rfl rfl rfl rfl rfl,
      ⟨rfl, rfl, rfl, rfl, rfl⟩⟩
  · rw [outSideEffect_display7seg]
    exact ⟨_, rfl, State.ioReg_setIo_self .., rfl, rfl, rfl,
      (sameOutside_outStored s Io.display7seg _).congr rfl rfl rfl rfl rfl rfl rfl rfl rfl rfl rfl,
      ⟨rfl, rfl, rfl, rfl, rfl⟩⟩

theorem ioReg_pixelWrite (s : State) (k : IoIx) :
    s.pixelWrite.ioReg k = if k = Io.monitorcmd then 0 else s.ioReg k :=
  State.ioReg_setIo ..

/-- The pixel write changes the pixel `monitoraddr` names, modulo the number of pixels (R156). -/
theorem pixel_pixelWrite (s : State) (p : Nat) (hwf : Framebuffer.wf s.fb = true) :
    s.pixelWrite.pixel p =
      if p = (s.ioReg Io.monitoraddr).toNat % 65536 then low8 (s.ioReg Io.monitordata)
      else s.pixel p := by
  rw [State.pixelWrite, State.setIo_pixel, State.pixel_setPixel _ _ _ _ hwf, wrapIndex_s32 _ (by decide)]

theorem toNat_low8 (v : RegVal) : (low8 v).toNat = v.toNat % 256 := by
  simp [low8]

/-- Settles O27: a value other than 1 is only stored; for 1 the pixel write follows, with address and data as they stood, because the
store touches neither register. -/
theorem outMonitorCommandWritesPixel : Obligations.OutMonitorCommandWritesPixel := by
  intro rd rs rt s hk hwf
  rw [exec_ioOut, hk, outSideEffect_monitorcmd]
  have hstored := sameOutside_outStored s Io.monitorcmd (s.reg rd)
  have haddr := hstored.io Io.monitoraddr (by decide)
  have hdata := hstored.io Io.monitordata (by decide)
  by_cases hv : s.reg rd = 1
  · have hpixel (p : Nat) := pixel_pixelWrite (s.outStored Io.monitorcmd (s.reg rd)) p hwf
    rw [haddr, hdata] at hpixel
    rw [if_pos hv]
    refine ⟨_, rfl, ?_, fun _ => ?_, rfl, ?_, rfl, rfl, ⟨rfl, rfl, rfl, rfl, rfl⟩⟩
    · rw [ioReg_pixelWrite, if_pos rfl, if_pos hv]
    · rw [hpixel, if_pos rfl, toNat_low8]
    · constructor <;> try (intros; rfl)
      · intro k hk'
        rw [ioReg_pixelWrite, if_neg hk', hstored.io k hk']
      · intro p hp
        rw [hpixel, if_neg fun h => hp ⟨hv, h⟩]
        rfl
  · rw [if_neg hv]
    refine ⟨_, rfl, ?_, fun h => absurd h hv, rfl, ?_, rfl, rfl, ⟨rfl, rfl, rfl, rfl, rfl⟩⟩
    · rw [ioReg_outStored, if_pos rfl, if_neg hv]
    · exact { hstored with pixel := fun _ _ => rfl }

end Sys2Proof.Machine
end

section
/-! PROOF. What the I/O registers can hold after a step that executes no `out` (R18 to R20, R33, R178), and when `disk_acc` is 0
(R43). -/

namespace Sys2Proof.Machine

/-- Register `k` of `t` is as in `s`, or a controller has set it (R20). -/
def KeptOrSet (k : IoIx) (s t : State) : Prop := t.ioReg k = s.ioReg k ∨ t.ioReg k = statusSet

theorem KeptOrSet.trans {k : IoIx} {s t u : State} (hst : KeptOrSet k s t) (htu : KeptOrSet k t u) :
    KeptOrSet k s u := by
  obtain h | h := htu
  · obtain h' | h' := hst
    exacts [.inl (h.trans h'), .inr (h.trans h')]
  · exact .inr h

theorem keptOrSet_injectScheduled (s : State) (k : IoIx) : KeptOrSet k s s.injectScheduled := by
  by_cases hk : k = Io.irq2status
  · obtain ⟨t, -, -, h⟩ | ⟨-, h⟩ := injectScheduled_cases s <;> rw [h]
    · exact .inr (by simp [hk])
    · exact .inl rfl
  · exact .inl (ioReg_injectScheduled s k hk)

theorem keptOrSet_diskProgress (s : State) (k : IoIx) (hcmd : k ≠ Io.diskcmd)
    (hstatus : k ≠ Io.diskstatus) : KeptOrSet k s s.diskProgress := by
  by_cases hk : k = Io.irq1status
  · rcases diskProgress_cases s with ⟨-, h⟩ | ⟨-, -, h⟩ | ⟨-, -, h⟩ <;> rw [h]
    · exact .inl rfl
    · exact .inl rfl
    · exact .inr (by rw [ioReg_completeTransfer, if_neg hstatus, if_neg hcmd, if_pos hk])
  · exact .inl (ioReg_diskProgress s k hstatus hcmd hk)

theorem keptOrSet_timerProgress (s : State) (k : IoIx) (hcount : k ≠ Io.timercurrent) :
    KeptOrSet k s s.timerProgress := by
  by_cases hk : k = Io.irq0status
  · rcases timerProgress_cases s with ⟨-, h⟩ | ⟨-, -, h⟩ | ⟨-, -, h⟩ <;> rw [h]
    · exact .inl rfl
    · exact .inl (by rw [State.ioReg_setIo, if_neg hcount])
    · exact .inr (by simp [State.timerExpire, hk])
  · exact .inl (ioReg_timerProgress s k hcount hk)

/-- The phase sets the three status registers and clears none (R20, R178). -/
theorem keptOrSet_peripherals (s : State) {k : IoIx}
    (hk : k ∈ [Io.irq0status, Io.irq1status, Io.irq2status]) : KeptOrSet k s s.peripherals := by
  obtain ⟨hcmd, hstatus, hcount, hret⟩ :
      k ≠ Io.diskcmd ∧ k ≠ Io.diskstatus ∧ k ≠ Io.timercurrent ∧ k ≠ Io.irqreturn := by
    simp only [List.mem_cons, List.not_mem_nil, or_false] at hk
    rcases hk with rfl | rfl | rfl <;> decide
  exact ((keptOrSet_injectScheduled s k).trans (keptOrSet_diskProgress _ k hcmd hstatus)).trans
    ((keptOrSet_timerProgress _ k hcount).trans (.inl (ioReg_interruptAssert _ k hret)))

/-- A step that executes no `out` records a fault, or reaches its peripheral phase with every I/O register but `clks` as
before. -/
theorem step_without_out_cases {s t : State} (h : step s = .next t)
    (hout : ∀ f rd rs rt, s.fetch = .ok f → f.insn.instr ≠ .ioOut rd rs rt) :
    (∃ f, t = s.setFault f) ∨
    ∃ u : State, t = u.peripherals ∧ ∀ k, k ≠ Io.clks → u.ioReg k = s.ioReg k := by
  obtain ⟨-, ⟨f, -, rfl⟩ | ⟨f, u, hf, hexec, rfl⟩⟩ := step_cases h
  · exact .inl ⟨f, rfl⟩
  · refine .inr ⟨u, rfl, fun k hk => ?_⟩
    rw [exec_ioReg hexec (fun rd rs rt => hout f rd rs rt hf) k hk, beginInsn_ioReg, if_neg hk]

/-- Settles O48: the instruction leaves the status registers alone, and the phase only sets them. -/
theorem statusRegistersOnlySetByHardware : Obligations.StatusRegistersOnlySetByHardware := by
  intro s t hstep hout k hk
  obtain ⟨f, rfl⟩ | ⟨u, rfl, hkept⟩ := step_without_out_cases hstep hout
  · exact .inl rfl
  · have hclks : k ≠ Io.clks := by
      rintro rfl
      exact absurd hk (by decide)
    rw [← hkept k hclks]
    exact keptOrSet_peripherals u hk

/-- Settles O49: none of the fifteen is `clks` or a register some controller writes. -/
theorem softwareRegistersKeptByHardware : Obligations.SoftwareRegistersKeptByHardware := by
  intro s t hstep hout k hk
  obtain ⟨hclks, hphase⟩ : k ≠ Io.clks ∧ k ∉ [Io.irq0status, Io.irq1status, Io.irq2status,
      Io.irqreturn, Io.timercurrent, Io.diskcmd, Io.diskstatus] := by
    revert k
    decide
  obtain ⟨f, rfl⟩ | ⟨u, rfl, hkept⟩ := step_without_out_cases hstep hout
  · rfl
  · rw [ioReg_peripherals u k hphase, hkept k hclks]

/-- An opcode changes `diskstatus` only to BUSY, or by an `out` to it (R32, R157, R208). -/
theorem exec_diskstatus {i : Instr} {s t : State} (h : exec i s = .next t)
    (hout : ∀ rd rs rt, i = .ioOut rd rs rt → ioIndex s rs rt ≠ Io.diskstatus) :
    t.ioReg Io.diskstatus = s.ioReg Io.diskstatus ∨ t.ioReg Io.diskstatus = diskBusy := by
  by_cases hi : ∃ rd rs rt, i = .ioOut rd rs rt
  · obtain ⟨rd, rs, rt, rfl⟩ := hi
    have hstored : (s.outStored (ioIndex s rs rt) (s.reg rd)).ioReg Io.diskstatus =
        s.ioReg Io.diskstatus := by
      rw [ioReg_outStored, if_neg (hout rd rs rt rfl).symm]
    rw [exec_ioOut] at h
    cases h
    rcases outSideEffect_cases (s.outStored (ioIndex s rs rt) (s.reg rd)) s.clks (ioIndex s rs rt)
      (s.reg rd) with ⟨-, h⟩ | ⟨-, h⟩ | ⟨-, -, h⟩ | ⟨-, -, h⟩ | ⟨-, -, -, -, h⟩ <;> rw [h]
    · exact .inl hstored
    · exact .inl hstored
    · exact .inl ((ioReg_pixelWrite _ _).trans hstored)
    · exact .inr (State.ioReg_setIo_self ..)
    · exact .inl hstored
  · exact .inl (exec_ioReg h (fun rd rs rt h' => hi ⟨rd, rs, rt, h'⟩) _ (by decide))

/-- Settles O59: an opcode leaves `diskstatus` alone or makes the disk BUSY, and the phase ends with the disk BUSY, with an accumulator
of 0, or with both as the opcode left them. -/
theorem diskAccumulatorZeroWhenIdle : Obligations.DiskAccumulatorZeroWhenIdle := by
  refine ⟨fun _ => rfl, fun s t hidle hstep hout hfree => ?_⟩
  obtain ⟨-, ⟨f, -, rfl⟩ | ⟨f, u, hf, hexec, rfl⟩⟩ := step_cases hstep
  · exact hidle hfree
  · rcases peripherals_diskAcc_cases u with ⟨hu, hacc⟩ | ⟨-, -, hbusy⟩ | hzero
    · rcases exec_diskstatus hexec fun rd rs rt => hout f rd rs rt hf with hkept | hbusy
      · rw [hkept, beginInsn_ioReg, if_neg (by decide)] at hu
        rw [hacc, (exec_sameHidden hexec).diskAcc, beginInsn_diskAcc]
        exact hidle hu
      · exact absurd hbusy hu
    · exact absurd hbusy hfree
    · exact hzero

end Sys2Proof.Machine
end

section
/-! PROOF. Which steps change a memory word, a pixel or a disk word (R37 to R39, R142, R156, R202, R203). -/

namespace Sys2Proof.Machine

/-- An opcode changes a memory word only by `sw` at its effective address (R37, R142). -/
theorem exec_memWord {i : Instr} {s t : State} (h : exec i s = .next t) (hwf : Memory.wf s.mem = true)
    (a : Nat) :
    t.memWord a = s.memWord a ∨ ∃ rd rs rt, i = .sw rd rs rt ∧ a = effectiveAddress s rs rt := by
  obtain hm | ⟨rd, rs, rt, rfl, hm⟩ := exec_mem h
  · exact .inl (congrArg (Cells.read · a) hm)
  · by_cases ha : a = effectiveAddress s rs rt
    · exact .inr ⟨rd, rs, rt, rfl, ha⟩
    · refine .inl ((congrArg (Cells.read · a) hm).trans ?_)
      rw [Cells.read_write _ _ _ hwf, if_neg ha]
      rfl

/-- An opcode changes a pixel only by an `out` of 1 to `monitorcmd`, at the pixel `monitoraddr` names (R39, R156). -/
theorem exec_pixel {i : Instr} {s t : State} (h : exec i s = .next t)
    (hwf : Framebuffer.wf s.fb = true) (p : Nat) :
    t.pixel p = s.pixel p ∨
    ∃ rd rs rt, i = .ioOut rd rs rt ∧ ioIndex s rs rt = Io.monitorcmd ∧ s.reg rd = 1 ∧
      p = (s.ioReg Io.monitoraddr).toNat % 65536 := by
  obtain hf | ⟨rd, rs, rt, rfl, hk, hv, hf⟩ := exec_fb h
  · exact .inl (congrArg (Cells.read · p) hf)
  · rw [wrapIndex_s32 _ (by decide)] at hf
    by_cases hp : p = (s.ioReg Io.monitoraddr).toNat % 65536
    · exact .inr ⟨rd, rs, rt, rfl, hk, hv, hp⟩
    · refine .inl ((congrArg (Cells.read · p) hf).trans ?_)
      rw [Cells.read_write _ _ _ hwf, if_neg hp]
      rfl

/-- The accumulator test of the phase, in the terms of the step: only the cost comes from the instruction (R202). -/
theorem diskDue_of_exec {i : Instr} {s u : State} {f : Fetched}
    (hexec : exec i (s.beginInsn f) = .next u) (hdue : u.diskLatency ≤ u.diskAcc + u.cost) :
    s.diskLatency ≤ s.diskAcc + u.peripherals.cost := by
  have hid := exec_sameHidden hexec
  rwa [hid.diskLatency, hid.diskAcc, beginInsn_diskLatency, beginInsn_diskAcc,
    ← peripherals_cost u] at hdue

/-- Settles O50: the advance writes no memory, the opcode only by `sw`, the phase only by a read transfer that completes. -/
theorem memoryChangedOnlyByStoreOrDisk : Obligations.MemoryChangedOnlyByStoreOrDisk := by
  intro s t a hwf hstep hchanged
  obtain ⟨-, ⟨f, -, rfl⟩ | ⟨f, u, hf, hexec, rfl⟩⟩ := step_cases hstep
  · exact absurd rfl hchanged
  · have hbegin : Memory.wf (s.beginInsn f).mem = true := by rwa [beginInsn_mem]
    refine ⟨f, u, hf, hexec, ?_⟩
    rcases memWord_peripherals u a (exec_mem_wf hexec hbegin) with hphase | ⟨hbusy, hcmd, hdue, i, hi, ha⟩
    · rcases exec_memWord hexec hbegin a with hkept | hstore
      · exact absurd (hphase.trans (hkept.trans (beginInsn_memWord s f a))) hchanged
      · exact .inl hstore
    · exact .inr ⟨hbusy, hcmd, diskDue_of_exec hexec hdue, i, hi, ha.trans (transferAddress_eq u i)⟩

/-- A step changes a pixel only by an `out` of 1 to `monitorcmd` (R39). -/
theorem step_pixel_changed {s t : State} {p : Nat} (hwf : Framebuffer.wf s.fb = true)
    (hstep : step s = .next t) (hchanged : t.pixel p ≠ s.pixel p) :
    ∃ f rd rs rt, s.fetch = .ok f ∧ f.insn.instr = .ioOut rd rs rt ∧
      ioIndex (s.beginInsn f) rs rt = Io.monitorcmd ∧ (s.beginInsn f).reg rd = 1 ∧
      p = (s.ioReg Io.monitoraddr).toNat % 65536 := by
  obtain ⟨-, ⟨f, -, rfl⟩ | ⟨f, u, hf, hexec, rfl⟩⟩ := step_cases hstep
  · exact absurd rfl hchanged
  · have hbegin : (s.beginInsn f).pixel p = s.pixel p := by simp only [State.pixel, beginInsn_fb]
    rcases exec_pixel hexec (by rwa [beginInsn_fb]) p with hkept | ⟨rd, rs, rt, hi, hk, hv, hp⟩
    · exact absurd ((peripherals_pixel u p).trans (hkept.trans hbegin)) hchanged
    · rw [beginInsn_ioReg, if_neg (by decide)] at hp
      exact ⟨f, rd, rs, rt, hf, hi, hk, hv, hp⟩

/-- A step changes a disk word only by a write transfer that completes in it (R38). -/
theorem step_diskWord_changed {s t : State} {d : Nat} (hwf : Disk.wf s.disk = true)
    (hstep : step s = .next t) (hchanged : t.diskWord d ≠ s.diskWord d) :
    ∃ f u, s.fetch = .ok f ∧ exec f.insn.instr (s.beginInsn f) = .next u ∧
      u.ioReg Io.diskstatus = 1 ∧ u.ioReg Io.diskcmd = 2 ∧ s.diskLatency ≤ s.diskAcc + t.cost ∧
      ∃ i, i < 128 ∧ d = 128 * ((u.ioReg Io.disksector).toNat % 128) + i := by
  obtain ⟨-, ⟨f, -, rfl⟩ | ⟨f, u, hf, hexec, rfl⟩⟩ := step_cases hstep
  · exact absurd rfl hchanged
  · have hdisk : u.disk = s.disk := (exec_sameHidden hexec).disk.trans (beginInsn_disk s f)
    rcases diskWord_peripherals u d (by rwa [hdisk]) with hphase | ⟨hbusy, hcmd, hdue, i, hi, hd⟩
    · exact absurd (hphase.trans (congrArg (Cells.read · d) hdisk)) hchanged
    · rw [State.transferDiskIndex, transferSector_eq] at hd
      exact ⟨f, u, hf, hexec, hbusy, hcmd, diskDue_of_exec hexec hdue, i, hi, hd⟩

/-- Settles O51: no controller writes the framebuffer, and no opcode writes the disk. -/
theorem deviceStorageChangedOnlyByCommand : Obligations.DeviceStorageChangedOnlyByCommand :=
  ⟨fun _ _ _ => step_pixel_changed, fun _ _ _ => step_diskWord_changed⟩

end Sys2Proof.Machine
end

section
/-! PROOF. The data address of `lw` and `sw` (R53, R140), and a store read back by a load (R54, R141, R142, R244). The store writes no
general register, so the load forms the address the store has written. -/

namespace Sys2Proof.Machine

/-- The two integer readings of the operand sum are one 32-bit addition (R53, R159). -/
theorem operandSum_eq (s : State) (rs rt : RegIx) :
    operandSum s rs rt = s32 (s.reg rs + s.reg rt) := by
  rw [operandSum, wrap32_add]

theorem effectiveAddress_eq (s : State) (rs rt : RegIx) :
    effectiveAddress s rs rt = (s.reg rs + s.reg rt).toNat % 4096 := by
  rw [effectiveAddress, operandSum_eq, wrapIndex_s32 _ (by decide)]

/-- Settles O16: 4096 is a power of two, so the remainder of the sum is its low 12 bits. -/
theorem effectiveAddressIsLowTwelveBits : Obligations.EffectiveAddressIsLowTwelveBits := by
  intro rs rt s
  rw [effectiveAddress_eq, BitVec.extractLsb'_toNat, Nat.shiftRight_zero]

/-- The data address depends on the two address registers alone (R140). -/
theorem effectiveAddress_congr {s t : State} {rs rt : RegIx} (hs : t.reg rs = s.reg rs)
    (ht : t.reg rt = s.reg rt) : effectiveAddress t rs rt = effectiveAddress s rs rt := by
  rw [effectiveAddress_eq, effectiveAddress_eq, hs, ht]

theorem toNat_zext20_low20 (v : RegVal) : (zext20 (low20 v)).toNat = v.toNat % 2 ^ 20 := by
  have hlow : (low20 v).toNat = v.toNat % 2 ^ 20 := BitVec.extractLsb'_toNat 0 20 v
  rw [zext20, BitVec.toNat_setWidth_of_le (by decide), hlow]

/-- What `lw` puts into a writable destination (R141). -/
theorem reg_of_exec_lw {rd rs rt : RegIx} {s t : State} (h : exec (.lw rd rs rt) s = .next t)
    (hrd : mayWrite rd false) : t.reg rd = zext20 (s.memWord (effectiveAddress s rs rt)) := by
  cases h
  exact reg_writeReg_of_mayWrite hrd

/-- `sw` writes no general register (R142). -/
theorem reg_of_exec_sw {rd rs rt : RegIx} {s t : State} (h : exec (.sw rd rs rt) s = .next t)
    (r : RegIx) : t.reg r = s.reg r := by
  cases h
  rfl

/-- Memory after `sw`: the low 20 bits of `x[rd]` at the effective address, every other word as before (R142). -/
theorem memWord_of_exec_sw {rd rs rt : RegIx} {s t : State} (h : exec (.sw rd rs rt) s = .next t)
    (hwf : Memory.wf s.mem = true) (a : Nat) :
    t.memWord a = if a = effectiveAddress s rs rt then low20 (s.reg rd) else s.memWord a := by
  cases h
  exact State.memWord_setMemWord s _ a _ hwf

/-- Settles O19: the load forms the address of the store, and finds there the low 20 bits the store has put. -/
theorem storeThenLoadReturnsLowBits : Obligations.StoreThenLoadReturnsLowBits := by
  intro ra rd rs rt s hwf hrd
  obtain ⟨t, hstore⟩ := exec_completes (.sw ra rs rt) s
  obtain ⟨u, hload⟩ := exec_completes (.lw rd rs rt) t
  have haddr : effectiveAddress t rs rt = effectiveAddress s rs rt :=
    effectiveAddress_congr (reg_of_exec_sw hstore rs) (reg_of_exec_sw hstore rt)
  have hword : t.memWord (effectiveAddress t rs rt) = low20 (s.reg ra) := by
    rw [memWord_of_exec_sw hstore hwf, if_pos haddr]
  refine ⟨t, u, hstore, hload, ?_⟩
  rw [reg_of_exec_lw hload hrd, hword, toNat_zext20_low20]

end Sys2Proof.Machine
end

section
/-! PROOF. The instruction word and its decoder are inverse to each other (R71, R75, R77, R81), and so are the words of an instruction
and the decoder of word sequences (R70, R73, R80). The one idea: the opcode and the three fields determine the instruction, by its place
in the decoder's table, and they determine the word, by its bits; so the decoder answers `i` exactly on the word of `i`. -/

namespace Sys2Proof

/-- The decoder's table stands in the order of the opcode numbers, without a gap (R75). -/
theorem map_opcode_instrForms (rd rs rt : RegIx) :
    (instrForms.map fun form => (form rd rs rt).opcode.toNat) = List.range 22 := rfl

/-- Each row of the decoder's table keeps the fields it is given (R71). -/
theorem fields_of_mem_instrForms {form : RegIx → RegIx → RegIx → Instr} (h : form ∈ instrForms)
    (rd rs rt : RegIx) : (form rd rs rt).fields = (rd, rs, rt) := by
  revert form
  simp [instrForms, Instr.fields]

/-- An instruction is the row of its opcode number, filled with its fields. -/
theorem eq_of_opcode_eq_of_fields_eq {i j : Instr} (hop : i.opcode = j.opcode)
    (hfields : i.fields = j.fields) : i = j := by
  obtain ⟨-, hi⟩ := Laws.OpcodeLegal.of_table i
  obtain ⟨-, hj⟩ := Laws.OpcodeLegal.of_table j
  rw [hop, hfields, hj] at hi
  exact (Option.some.inj hi).symm

/-- The four fields are all the bits of a word (R71). -/
theorem word_eq_of_fields_eq {v w : Word} (hop : opcodeField v = opcodeField w)
    (hrd : rdField v = rdField w) (hrs : rsField v = rsField w) (hrt : rtField v = rtField w) :
    v = w := by
  have hv := v.isLt
  have hw := w.isLt
  apply BitVec.eq_of_toNat_eq
  simp only [← BitVec.toNat_inj, opcodeField, rdField, rsField, rtField, BitVec.extractLsb'_toNat,
    Nat.shiftRight_eq_div_pow] at hop hrd hrs hrt
  omega

/-- What an answer of the decoder says: the opcode and the fields are the word's own (R81). -/
theorem opcode_fields_of_decodeWord {w : Word} {i : Instr} (h : decodeWord w = some i) :
    i.opcode = opcodeField w ∧ i.fields = (rdField w, rsField w, rtField w) := by
  have hop : i.opcode = opcodeField w := by simpa using List.find?_some h
  obtain ⟨form, hform, rfl⟩ := List.mem_map.1 (List.mem_of_find?_eq_some h)
  exact ⟨hop, fields_of_mem_instrForms hform _ _ _⟩

/-- The decoder answers nothing exactly for the opcodes 22 to 255 (R77, R81). -/
theorem decodeWord_eq_none_iff (w : Word) : decodeWord w = none ↔ 22 ≤ w.toNat / 4096 := by
  have hopcodes := map_opcode_instrForms (rdField w) (rsField w) (rtField w)
  have hmem : (∃ form ∈ instrForms,
      (form (rdField w) (rsField w) (rtField w)).opcode.toNat = w.toNat / 4096) ↔
        w.toNat / 4096 < 22 := by
    rw [← List.mem_map, hopcodes, List.mem_range]
  rw [← Nat.not_lt, ← hmem, ← opcodeField_toNat]
  simp [decodeWord, BitVec.toNat_inj]

/-- The word of an instruction decodes to it: the answer has its opcode and its fields, so it is that instruction. -/
theorem decodeWord_encodeWord (i : Instr) : decodeWord (encodeWord i) = some i := by
  obtain ⟨hop, hfields⟩ := Laws.EncodedFields.of_sum i
  obtain ⟨hlegal, -⟩ := Laws.OpcodeLegal.of_table i
  cases hdecode : decodeWord (encodeWord i) with
  | none =>
    rw [decodeWord_eq_none_iff, ← opcodeField_toNat, hop] at hdecode
    omega
  | some j =>
    obtain ⟨hop', hfields'⟩ := opcode_fields_of_decodeWord hdecode
    rw [eq_of_opcode_eq_of_fields_eq (hop'.trans hop) (hfields'.trans hfields)]

/-- The decoder answers `i` exactly on the word of `i` (R71, R81). -/
theorem decodeWord_eq_some_iff {w : Word} {i : Instr} : decodeWord w = some i ↔ encodeWord i = w := by
  refine ⟨fun h => ?_, fun h => h ▸ decodeWord_encodeWord i⟩
  obtain ⟨hop, hfields⟩ := opcode_fields_of_decodeWord h
  obtain ⟨hop', hfields'⟩ := Laws.EncodedFields.of_sum i
  rw [hfields] at hfields'
  simp only [Prod.mk.injEq] at hfields'
  obtain ⟨hrd, hrs, hrt⟩ := hfields'
  exact word_eq_of_fields_eq (hop'.trans hop) hrd hrs hrt

theorem decode_cons_of_none {w : Word} (h : decodeWord w = none) (rest : List Word) :
    decode (w :: rest) = .illegalOpcode w := by
  simp [decode, h]

/-- Settles O4: the first word decodes to the instruction, whose mode then says whether the next word is its immediate. -/
theorem encodeThenDecode : Obligations.EncodeThenDecode := by
  rintro ⟨i, imm⟩ rest hwf
  cases imm with
  | none =>
    have hmode : i.immMode = false := by simpa [Insn.wf] using hwf
    simp [encode, decode, decodeWord_encodeWord, hmode]
  | some m =>
    have hmode : i.immMode = true := by simpa [Insn.wf] using hwf
    simp [encode, decode, decodeWord_encodeWord, hmode]

/-- Settles O5: only two of the decoder's four answers accept, and in both the first word is the word of the instruction. -/
theorem decodeThenEncode : Obligations.DecodeThenEncode := by
  intro ws rest i h
  cases ws with
  | nil => cases h
  | cons w more =>
    rcases decode_cons_cases w more with
      ⟨-, h'⟩ | ⟨j, hj, hmode, h'⟩ | ⟨j, m, more', hj, hmode, rfl, h'⟩ | ⟨j, -, -, -, h'⟩ <;>
      rw [h] at h' <;> cases h'
    · simp [Insn.wf, encode, hmode, decodeWord_eq_some_iff.1 hj]
    · simp [Insn.wf, encode, hmode, decodeWord_eq_some_iff.1 hj]

/-- Settles O2: the decoder answers something for the opcodes 0 to 21 alone, and its answer has the word's opcode and fields. -/
theorem decoderAnswersByOpcode : Obligations.DecoderAnswersByOpcode := by
  refine fun w => ⟨fun hlegal => ?_, (decodeWord_eq_none_iff w).2⟩
  cases hdecode : decodeWord w with
  | none =>
    have hillegal := (decodeWord_eq_none_iff w).1 hdecode
    omega
  | some i =>
    obtain ⟨hop, hfields⟩ := opcode_fields_of_decodeWord hdecode
    exact ⟨i, rfl, by rw [hop, opcodeField_toNat], hfields⟩

/-- Settles O3: each of the 22 words is, by the opcode table, the word of its instruction. -/
theorem opcodeMapDecodes : Obligations.OpcodeMapDecodes := by
  intro rd rs rt
  and_intros <;> exact decodeWord_eq_some_iff.2 rfl

/-- Settles O7: each legal word is the word of its instruction, and the two illegal ones have opcodes above 21. -/
theorem sampleWordsDecode : Obligations.SampleWordsDecode := by
  unfold Obligations.SampleWordsDecode
  simp only [decodeWord_eq_some_iff, decodeWord_eq_none_iff]
  decide

/-- The words of a well-formed instruction are as many as its length (R70, R80). -/
theorem length_encode {i : Insn} (h : i.wf = true) : (encode i).length = i.instr.length := by
  have himm : i.imm.isSome = i.instr.immMode := by simpa [Insn.wf] using h
  rw [Instr.length, ← himm, encode, List.length_cons]
  cases i.imm <;> rfl

/-- The length in the fields of the instruction (R80). -/
theorem length_eq_one_add (i : Instr) :
    i.length = 1 + if i.fields.1 = 1 ∨ i.fields.2.1 = 1 ∨ i.fields.2.2 = 1 then 1 else 0 := by
  simp only [Instr.length, Instr.immMode, Bool.or_eq_true, beq_iff_eq, or_assoc]
  split <;> rfl

/-- Settles O6: the words consumed are the words of the instruction, whose fields are those of the first word. -/
theorem instructionLengthFromFields : Obligations.InstructionLengthFromFields := by
  intro w more rest i h
  obtain ⟨hwf, hwords⟩ := decodeThenEncode _ _ _ h
  have hfirst : encodeWord i.instr = w := (List.cons.inj hwords).1
  obtain ⟨-, hfields⟩ := opcode_fields_of_decodeWord (decodeWord_eq_some_iff.2 hfirst)
  rw [← hwords, List.length_append, length_encode hwf, length_eq_one_add, hfields, Nat.add_comm]
  rfl

end Sys2Proof
end

section
/-! PROOF. The fetch of an illegal opcode (R77, R170, R171, R173). -/

namespace Sys2Proof.Machine

/-- The first word of the stream at an address is the word there, whether or not a second follows (R93). -/
theorem streamWords_eq_cons (s : State) (a : Nat) : ∃ more, s.streamWords a = s.memWord a :: more := by
  unfold State.streamWords
  split
  · exact ⟨_, rfl⟩
  · exact ⟨_, rfl⟩

theorem fetch_of_illegalOpcode {s : State} (hpc : s.pc.toNat < 4096)
    (hw : decodeWord s.wordAtPc = none) :
    s.fetch = .error (.illegalOpcode s.pc.toNat s.wordAtPc) := by
  obtain ⟨more, hstream⟩ := streamWords_eq_cons s s.pc.toNat
  have hdecode : decode (s.streamWords (s32 s.pc).toNat) = .illegalOpcode s.wordAtPc := by
    rw [toNat_s32_of_lt hpc, hstream]
    exact decode_cons_of_none hw more
  rcases fetch_cases s with ⟨hout, -⟩ | ⟨-, ⟨i, rest, hd, -⟩ | ⟨w, hd, hfetch⟩ | ⟨i, hd, -⟩⟩
  · exact absurd ((pc_inRange_iff _).2 hpc) hout
  · cases hdecode.symm.trans hd
  · cases hdecode.symm.trans hd
    rw [hfetch, toNat_s32_of_lt hpc]
  · cases hdecode.symm.trans hd

/-- Settles O31: the decoder answers nothing, so the fetch fails, and the step then only records the fault. -/
theorem illegalOpcodeFaults : Obligations.IllegalOpcodeFaults := fun _ hrun hpc hw =>
  step_of_fetch_error hrun (fetch_of_illegalOpcode hpc ((decodeWord_eq_none_iff _).2 hw))

end Sys2Proof.Machine
end

section
/-! SUPPORT. Which faults a fetch can raise, and the state it hands to the opcode (`spec/40_step.md` rules R92 to R95). -/

namespace Sys2Proof.Machine

/-- The words at `pc` decode to the instruction of the first of them, if memory holds them all (R73, R93). -/
theorem decode_streamWords_of_fits {s : State} {i : Instr} (hfits : s.pc.toNat + i.length ≤ 4096)
    (hw : decodeWord s.wordAtPc = some i) :
    ∃ imm rest, decode (s.streamWords s.pc.toNat) = .ok { instr := i, imm := imm } rest := by
  cases hmode : i.immMode with
  | false =>
    obtain ⟨more, hstream⟩ := streamWords_eq_cons s s.pc.toNat
    rw [State.wordAtPc] at hw
    exact ⟨none, more, by simp [hstream, decode, hw, hmode]⟩
  | true =>
    have hsecond : s.pc.toNat + 1 < 4096 := by
      simp only [Instr.length, hmode, if_true] at hfits
      omega
    have hstream : s.streamWords s.pc.toNat = [s.wordAtPc, s.memWord (s.pc.toNat + 1)] :=
      if_pos hsecond
    exact ⟨some (s.memWord (s.pc.toNat + 1)), [], by simp [hstream, decode, hw, hmode]⟩

/-- The fetch answers the instruction at `pc` if its words lie inside memory (R92, R93). -/
theorem fetch_of_fits {s : State} {i : Instr} (hfits : s.pc.toNat + i.length ≤ 4096)
    (hw : decodeWord s.wordAtPc = some i) : ∃ f, s.fetch = .ok f ∧ f.insn.instr = i := by
  have hpc : s.pc.toNat < 4096 := by
    have hlength := length_eq_one_add i
    omega
  obtain ⟨imm, rest, hdecode⟩ := decode_streamWords_of_fits hfits hw
  rw [← toNat_s32_of_lt hpc] at hdecode
  rcases fetch_cases s with ⟨hout, -⟩ | ⟨-, ⟨j, rest', hd, hfetch⟩ | ⟨w, hd, -⟩ | ⟨j, hd, -⟩⟩
  · exact absurd ((pc_inRange_iff _).2 hpc) hout
  · cases hdecode.symm.trans hd
    exact ⟨_, hfetch, rfl⟩
  · cases hdecode.symm.trans hd
  · cases hdecode.symm.trans hd

/-- The two faults of the fetch: a legal instruction whose words lie inside memory raises none (R101, R170). -/
theorem fetch_error_cases {s : State} {e : MachineFault} (h : s.fetch = .error e) :
    e = .pcOutOfRange s.pc ∨ e = .illegalOpcode s.pc.toNat s.wordAtPc := by
  by_cases hpc : s.pc.toNat < 4096
  · cases hw : decodeWord s.wordAtPc with
    | none =>
      cases h.symm.trans (fetch_of_illegalOpcode hpc hw)
      exact .inr rfl
    | some i =>
      by_cases hfits : s.pc.toNat + i.length ≤ 4096
      · obtain ⟨f, hf, -⟩ := fetch_of_fits hfits hw
        cases h.symm.trans hf
      · obtain ⟨hlast, hmode⟩ : s.pc.toNat = 4095 ∧ i.immMode = true := by
          rw [Instr.length] at hfits
          split at hfits
          next hmode => exact ⟨by omega, hmode⟩
          next => omega
        cases h.symm.trans (fetch_of_immMode_at_last hlast hw hmode)
        exact .inl rfl
  · cases h.symm.trans (fetch_of_pc_outOfRange (by omega))
    exact .inl rfl

/-- The immediate load of a fetched instruction reads the word after `pc` (R93). -/
theorem loadImmediate_of_fetch {s : State} {f : Fetched} (h : s.fetch = .ok f) :
    s.loadImmediate f.insn.imm =
      if f.insn.instr.immMode then s.setReg 1 (sext20 (s.memWord (s.pc.toNat + 1))) else s := by
  obtain ⟨-, -, -, -, himm⟩ := fetch_ok h
  rw [himm]
  split <;> rfl

/-- The registers at the trace point: register 1 holds the immediate, if there is one (R93, R94). -/
theorem reg_loadImmediate_of_fetch {s : State} {f : Fetched} (h : s.fetch = .ok f) (r : RegIx) :
    (s.loadImmediate f.insn.imm).reg r =
      if r = 1 ∧ f.insn.instr.immMode = true then sext20 (s.memWord (s.pc.toNat + 1)) else s.reg r := by
  rw [loadImmediate_of_fetch h]
  cases f.insn.instr.immMode <;> simp [State.reg_setReg]

/-- The advance charges the length of the instruction to `clks` (R95). -/
theorem beginInsn_clks (s : State) (f : Fetched) :
    (s.beginInsn f).clks = s.clks + BitVec.ofNat 32 f.insn.instr.length := by
  rw [State.clks, beginInsn_ioReg, if_pos rfl, wrap32_s32_add_nat]

theorem wrap32_natCast (n : Nat) : wrap32 (n : Int) = BitVec.ofNat 32 n :=
  BitVec.ofInt_natCast 32 n

/-- The opcode runs in the prepared state (R93 to R95). -/
theorem beginInsn_eq_prepared {s : State} {f : Fetched} (h : s.fetch = .ok f) :
    s.beginInsn f = s.prepared f.insn.instr := by
  obtain ⟨-, -, haddr, hword, -⟩ := fetch_ok h
  have hpc : wrap32 (f.addr + f.insn.instr.length) =
      BitVec.ofNat 32 (s.pc.toNat + f.insn.instr.length) := by
    rw [haddr]
    exact_mod_cast wrap32_natCast _
  have hclks := wrap32_s32_add_nat s.clks f.insn.instr.length
  rw [State.beginInsn, State.prepared, loadImmediate_of_fetch h, hpc, haddr, hword, ← hclks]
  split <;> rfl

end Sys2Proof.Machine
end

section
/-! SUPPORT. What an opcode does to register 1, to `clks` and to the cost (`spec/40_step.md` rules R98, R99), and the remainder by which
every index is formed. -/

namespace Sys2Proof.Machine

/-- `wrapIndex` is the non-negative remainder (R6). -/
theorem natCast_wrapIndex (a : Int) {m : Nat} (hm : 0 < m) : (wrapIndex a m : Int) = a % m :=
  Int.toNat_of_nonneg (Int.emod_nonneg a (by omega))

/-- Only `add` writes register 1 in `Execute` (R98). -/
theorem exec_reg_one {i : Instr} {s t : State} (h : exec i s = .next t)
    (hadd : ∀ rd rs rt, i ≠ .add rd rs rt) : t.reg 1 = s.reg 1 := by
  cases i <;> cases h
  case add rd rs rt => exact absurd rfl (hadd rd rs rt)
  case sub | mul | and | or | xor | jal | lw | ioIn => exact State.reg_one_writeReg ..
  case sll | sra | srl => exact writeShift_reg_one ..
  case beq | bne | blt | bgt | ble | bge => exact branchIf_reg ..
  case ioOut => exact outSideEffect_reg ..
  case sw | reti | halt => rfl

/-- The side effect of `out` writes no I/O register but `monitorcmd` and `diskstatus` (R154 to R157). -/
theorem ioReg_outSideEffect (s : State) (c : RegVal) (k : IoIx) (v : RegVal) {l : IoIx}
    (hcmd : l ≠ Io.monitorcmd) (hstatus : l ≠ Io.diskstatus) :
    (s.outSideEffect c k v).ioReg l = s.ioReg l := by
  rcases outSideEffect_cases s c k v with
    ⟨-, h⟩ | ⟨-, h⟩ | ⟨-, -, h⟩ | ⟨-, -, h⟩ | ⟨-, -, -, -, h⟩ <;> rw [h]
  · rfl
  · rfl
  · rw [ioReg_pixelWrite, if_neg hcmd]
  · rw [State.ioReg_setIo, if_neg hstatus]

theorem clks_extraCycle (s : State) : s.extraCycle.clks = s.clks + 1 := by
  rw [State.clks, State.ioReg_extraCycle, if_pos rfl]
  exact wrap32_s32_add_nat s.clks 1

theorem clks_of_exec_ioOut {rd rs rt : RegIx} {s t : State} (h : exec (.ioOut rd rs rt) s = .next t)
    (hk : ioIndex s rs rt ≠ Io.clks) : t.clks = s.clks := by
  rw [exec_ioOut] at h
  cases h
  rw [State.clks, ioReg_outSideEffect _ _ _ _ (by decide) (by decide), ioReg_outStored, if_neg hk.symm]
  rfl

/-- An opcode that does not overwrite `clks` adds to it what it adds to the cost (R23, R99). -/
theorem exec_cost_clks {i : Instr} {s t : State} (h : exec i s = .next t)
    (hout : ∀ rd rs rt, i = .ioOut rd rs rt → ioIndex s rs rt ≠ Io.clks) :
    ∃ n, t.cost = s.cost + n ∧ t.clks = s.clks + BitVec.ofNat 32 n := by
  cases i <;> cases h
  case lw | sw => exact ⟨1, by simp, by simp [clks_extraCycle]⟩
  case ioOut rd rs rt =>
    exact ⟨0, by simp, (clks_of_exec_ioOut rfl (hout rd rs rt rfl)).trans (by simp)⟩
  all_goals exact ⟨0, by simp, by simp [State.clks, State.ioReg]⟩

/-- The cost of an opcode beside its length: one more cycle for `lw` and `sw` (R99, R141, R142). -/
theorem exec_cost_of_access {i : Instr} {s t : State} (h : exec i s = .next t)
    (hi : ∃ rd rs rt, i = .lw rd rs rt ∨ i = .sw rd rs rt) : t.cost = s.cost + 1 := by
  obtain ⟨rd, rs, rt, rfl | rfl⟩ := hi
  · exact exec_cost h
  · exact exec_cost h

theorem exec_cost_of_not_access {i : Instr} {s t : State} (h : exec i s = .next t)
    (hi : ∀ rd rs rt, i ≠ .lw rd rs rt ∧ i ≠ .sw rd rs rt) : t.cost = s.cost := by
  rw [exec_cost h]
  split
  · exact absurd rfl (hi _ _ _).1
  · exact absurd rfl (hi _ _ _).2
  · rfl

end Sys2Proof.Machine
end

section
/-! PROOF. The step: its instruction, its trace record, its cost and its faults (R90 to R101). -/

namespace Sys2Proof.Machine

/-- Settles O12: every register write of an opcode goes through the guard, and only `add` asks it for register 1. -/
theorem onlyAddWritesImmediateRegister : Obligations.OnlyAddWritesImmediateRegister :=
  fun _ _ _ h => ⟨exec_reg_zero h, exec_reg_one h⟩

/-- Settles O29: the fetch answers the instruction, the advance leaves the prepared state, and the phase is the four controllers in
order. -/
theorem stepRunsDecodedInstruction : Obligations.StepRunsDecodedInstruction := by
  intro s i hrun hfits hw
  obtain ⟨f, hfetch, rfl⟩ := fetch_of_fits hfits hw
  obtain ⟨t, hexec⟩ := exec_completes f.insn.instr (s.beginInsn f)
  exact ⟨t, beginInsn_eq_prepared hfetch ▸ hexec, step_of_fetch_ok hrun hfetch hexec⟩

/-- Settles O36: the advance emits the one record, and neither the opcode nor the phase touches the trace. -/
theorem traceRecordPerStep : Obligations.TraceRecordPerStep := by
  intro s t f he hstep
  obtain ⟨u, hexec, rfl⟩ := step_of_executes he hstep
  obtain ⟨-, hfetch⟩ := he
  obtain ⟨-, -, haddr, hword, -⟩ := fetch_ok hfetch
  refine ⟨⟨f.addr, f.word, (s.loadImmediate f.insn.imm).x⟩, ?_, haddr, hword,
    reg_loadImmediate_of_fetch hfetch⟩
  rw [peripherals_trace, (exec_sameHidden hexec).trace, beginInsn_trace]

/-- Settles O35: the advance charges the length to both counters, and the opcode adds the same to both. -/
theorem stepCostIsTheTable : Obligations.StepCostIsTheTable := by
  intro s t f he hstep
  obtain ⟨u, hexec, rfl⟩ := step_of_executes he hstep
  rw [peripherals_cost, peripherals_clks]
  refine ⟨fun haccess => ?_, fun hother => ?_, fun hout => ?_⟩
  · rw [exec_cost_of_access hexec haccess, beginInsn_cost, Instr.length]
    split <;> rfl
  · rw [exec_cost_of_not_access hexec hother, beginInsn_cost, Instr.length]
  · obtain ⟨n, hcost, hclks⟩ := exec_cost_clks hexec hout
    rw [hclks, beginInsn_clks, hcost, beginInsn_cost, BitVec.ofNat_add, BitVec.add_assoc]

/-- A running machine takes a step, and a fault after it is one of the fetch (R91, R101). -/
theorem step_completes_of_running {s : State} (hrun : s.Running) :
    ∃ t, step s = .next t ∧
      (t.fault = none ∨ t.fault = some (.pcOutOfRange s.pc) ∨
        t.fault = some (.illegalOpcode s.pc.toNat s.wordAtPc)) ∧
      ((∃ f, s.fetch = .ok f) → t.fault = none) := by
  cases hfetch : s.fetch with
  | ok f =>
    obtain ⟨u, hexec⟩ := exec_completes f.insn.instr (s.beginInsn f)
    have hfault : u.peripherals.fault = none := by
      rw [peripherals_fault, (exec_sameHidden hexec).fault, beginInsn_fault, hrun.2]
    exact ⟨_, step_of_fetch_ok hrun hfetch hexec, .inl hfault, fun _ => hfault⟩
  | error e =>
    refine ⟨_, step_of_fetch_error hrun hfetch, .inr ?_, fun ⟨f, hf⟩ => nomatch hf⟩
    exact (fetch_error_cases hfetch).imp (congrArg some) (congrArg some)

/-- Settles O34: the fetch has two faults, every opcode completes, and every index is a remainder. -/
theorem noOtherRuntimeFailure : Obligations.NoOtherRuntimeFailure := by
  refine ⟨fun s => step_completes_of_running, fun s rs rt => ?_, fun s => natCast_wrapIndex _ (by decide),
    fun s i => natCast_wrapIndex _ (by decide), fun s p hwf hchanged => ?_⟩
  · rw [← s32, ← operandSum_eq]
    exact ⟨natCast_wrapIndex _ (by decide), natCast_wrapIndex _ (by decide)⟩
  · rw [pixel_pixelWrite s p hwf, ite_ne_right_iff] at hchanged
    obtain ⟨hp, -⟩ := hchanged
    rw [hp, ← wrapIndex_s32 _ (by decide)]
    exact natCast_wrapIndex _ (by decide)

end Sys2Proof.Machine
end

section
/-! PROOF. The arithmetic and logic instructions (R110 to R119). Each is one guarded write; an ALU value over the integers is that of the
bit-vector operation, and a shift draws a free value exactly where its amount lies outside 0..31. -/

namespace Sys2Proof.Machine

theorem toNat_s32_of_nonneg {v : RegVal} (h : 0 ≤ s32 v) : (s32 v).toNat = v.toNat :=
  BitVec.toNat_toInt_of_msb v (by simpa [BitVec.msb_eq_toInt, s32] using h)

/-- Scaling by a power of two and wrapping is the left shift (R117). -/
theorem wrap32_u32_mul_two_pow (v : RegVal) (n : Nat) : wrap32 (u32 v * 2 ^ n) = v <<< n := by
  have hcast : (u32 v * 2 ^ n : Int) = (v.toNat * 2 ^ n : Nat) := by simp [u32]
  rw [hcast, wrap32_natCast]
  apply BitVec.eq_of_toNat_eq
  rw [BitVec.toNat_ofNat, BitVec.toNat_shiftLeft, Nat.shiftLeft_eq]

/-- Floor division of the signed value is the arithmetic right shift (R118). -/
theorem wrap32_s32_div_two_pow (v : RegVal) (n : Nat) : wrap32 (s32 v / 2 ^ n) = v.sshiftRight n := by
  rw [BitVec.sshiftRight_eq, Int.shiftRight_eq_div_pow, Nat.cast_pow]
  rfl

/-- Floor division of the unsigned value is the logical right shift (R119). -/
theorem wrap32_u32_div_two_pow (v : RegVal) (n : Nat) : wrap32 (u32 v / 2 ^ n) = v >>> n := by
  have hcast : (u32 v / 2 ^ n : Int) = ((v >>> n).toNat : Int) := by
    simp [u32, Nat.shiftRight_eq_div_pow]
  rw [hcast, wrap32_natCast, BitVec.ofNat_toNat, BitVec.setWidth_eq]

/-- An instruction whose meaning is one shift, by an amount in 0..31. -/
theorem writesOnly_of_writeShift {i : Instr} {s : State} {rd : RegIx} {n : RegVal} {op : Nat → RegVal}
    {v : RegVal} (h : exec i s = .next (writeShift s rd (s32 n) op))
    (hn : 0 ≤ s32 n ∧ s32 n ≤ 31) (hv : op n.toNat = v) : WritesOnly i s rd false v := by
  rw [writeShift_inRange _ _ _ _ hn, toNat_s32_of_nonneg hn.1, hv] at h
  exact writesOnly_of_writeReg h

/-- A shift by any amount leaves everything but its register and the count of draws alone (R98, R117 to R119). -/
theorem sameOutside_writeShift (s : State) (rd : RegIx) (n : Int) (op : Nat → RegVal) :
    s.SameOutside (writeShift s rd n op) (fun r => r = rd ∧ mayWrite rd false) nothing nothing nothing := by
  obtain ⟨v, h | h⟩ := writeShift_cases s rd n op <;> rw [h]
  · exact sameOutside_writeReg ..
  · exact { sameOutside_writeReg s.countDraw rd v false with }

/-- An instruction whose meaning is one shift, by any amount: it completes, and of the value written nothing is said. -/
theorem completes_of_writeShift {i : Instr} {s : State} {rd : RegIx} {n : Int} {op : Nat → RegVal}
    (h : exec i s = .next (writeShift s rd n op)) :
    ∃ t, exec i s = .next t ∧
      s.SameOutside t (fun r => r = rd ∧ mayWrite rd false) nothing nothing nothing ∧
      s.SameStreams t ∧ t.pc = s.pc ∧ t.inIsr = s.inIsr ∧ t.halted = s.halted ∧ t.cost = s.cost :=
  ⟨_, h, sameOutside_writeShift .., by constructor <;> simp, by simp, by simp, by simp, by simp⟩

/-- Settles O10: an amount in 0..31 draws nothing, so each shift is one guarded write of a value that is the bit-vector shift. -/
theorem shiftsInRangeWriteResult : Obligations.ShiftsInRangeWriteResult :=
  fun _ _ _ _ hlow hhigh =>
    ⟨writesOnly_of_writeShift rfl ⟨hlow, hhigh⟩ (wrap32_u32_mul_two_pow ..),
      writesOnly_of_writeShift rfl ⟨hlow, hhigh⟩ (wrap32_s32_div_two_pow ..),
      writesOnly_of_writeShift rfl ⟨hlow, hhigh⟩ (wrap32_u32_div_two_pow ..)⟩

/-- Settles O8: each is one guarded write, of the integer result wrapped to 32 bits. -/
theorem addSubMulWriteResult : Obligations.AddSubMulWriteResult := by
  intro rd rs rt s
  rw [← wrap32_add, ← wrap32_sub, ← wrap32_mul]
  exact ⟨writesOnly_of_writeReg rfl, writesOnly_of_writeReg rfl, writesOnly_of_writeReg rfl⟩

/-- Settles O9: each is one guarded write of the value itself. -/
theorem bitwiseWriteResult : Obligations.BitwiseWriteResult := fun _ _ _ _ =>
  ⟨writesOnly_of_writeReg rfl, writesOnly_of_writeReg rfl, writesOnly_of_writeReg rfl⟩

/-- Settles O11: the frame of a shift does not depend on its amount; the count of draws is not part of it. -/
theorem shiftsOutOfRangeComplete : Obligations.ShiftsOutOfRangeComplete := by
  intro rd rs rt s _ i hi
  simp only [List.mem_cons, List.not_mem_nil, or_false] at hi
  obtain rfl | rfl | rfl := hi
  · exact completes_of_writeShift rfl
  · exact completes_of_writeShift rfl
  · exact completes_of_writeShift rfl

end Sys2Proof.Machine
end

section
/-! PROOF. The control transfer instructions (R130 to R137). A branch is one conditional write of `pc`, by a comparison that is the
bit-vector one; `jal` is one guarded write followed by a write of `pc`. -/

namespace Sys2Proof.Machine

/-! ### The branch conditions as bit-vector comparisons (R131 to R136) -/

theorem condEq_iff {a b : RegVal} : condEq a b = true ↔ a = b :=
  decide_eq_true_iff.trans s32_inj

theorem condNe_iff {a b : RegVal} : condNe a b = true ↔ a ≠ b :=
  decide_eq_true_iff.trans (not_congr s32_inj)

theorem condLt_eq_slt (a b : RegVal) : condLt a b = a.slt b := rfl

theorem condGt_eq_slt (a b : RegVal) : condGt a b = b.slt a := rfl

theorem condLe_eq_sle (a b : RegVal) : condLe a b = a.sle b := rfl

theorem condGe_eq_sle (a b : RegVal) : condGe a b = b.sle a := rfl

/-! ### The branches -/

/-- Settles O13: each is one conditional branch, by equality of the signed values, which is equality of the registers. -/
theorem branchOnEquality : Obligations.BranchOnEquality := by
  refine fun rd rs rt s => ⟨setsPcOnly_of_branchIf rfl ?beq, setsPcOnly_of_branchIf rfl ?bne⟩
  case beq => simp only [condEq_iff]
  case bne => simp only [condNe_iff, ite_not]

/-- Settles O14: each is one conditional branch, by the signed comparison of the registers or of the registers swapped. -/
theorem branchOnSignedOrder : Obligations.BranchOnSignedOrder := by
  intro rd rs rt s
  rw [← condLt_eq_slt, ← condGt_eq_slt, ← condLe_eq_sle, ← condGe_eq_sle]
  exact ⟨setsPcOnly_of_branchIf rfl rfl, setsPcOnly_of_branchIf rfl rfl,
    setsPcOnly_of_branchIf rfl rfl, setsPcOnly_of_branchIf rfl rfl⟩

/-! ### The jump with link -/

/-- The guarded write is not seen in a register it does not reach: another one, or one the guard protects (R98). -/
theorem reg_writeReg_of_not {s : State} {rd r : RegIx} {v : RegVal} {b : Bool}
    (h : ¬ (rd = r ∧ mayWrite rd b)) : (s.writeReg rd v b).reg r = s.reg r :=
  (sameOutside_writeReg s rd v b).reg r fun ⟨hr, hmay⟩ => h ⟨hr.symm, hmay⟩

/-- `jal` links, then jumps to the register as the link has left it (R137). -/
theorem exec_jal (rd rs rt : RegIx) (s : State) :
    exec (.jal rd rs rt) s =
      .next ((s.writeReg rd s.pc false).setPc ((s.writeReg rd s.pc false).reg rs)) := rfl

/-- Settles O15: the link is one guarded write, and the target is read after it, so the link is the target exactly where it is written
to `x[rs]`. -/
theorem jalLinksThenJumps : Obligations.JalLinksThenJumps := by
  intro rd rs rt s
  refine ⟨_, exec_jal rd rs rt s, ?link, ?toLink, ?toTarget, ?frame, ?streams, ?control⟩
  case link => exact reg_writeReg_of_mayWrite
  case toLink =>
    rintro ⟨rfl, hmay⟩
    exact reg_writeReg_of_mayWrite hmay
  case toTarget => exact reg_writeReg_of_not
  case frame => exact { sameOutside_writeReg s rd s.pc false with }
  case streams => constructor <;> simp
  case control => simp

end Sys2Proof.Machine
end

section
/-! PROOF. The load and the store as whole transitions (R141, R142): `lw` is one guarded write and `sw` one write of a memory word, each
followed by the extra cycle. -/

namespace Sys2Proof.Machine

theorem exec_lw (rd rs rt : RegIx) (s : State) :
    exec (.lw rd rs rt) s =
      .next (s.writeReg rd (zext20 (s.memWord (effectiveAddress s rs rt))) false).extraCycle := rfl

theorem exec_sw (rd rs rt : RegIx) (s : State) :
    exec (.sw rd rs rt) s =
      .next (s.setMemWord (effectiveAddress s rs rt) (low20 (s.reg rd))).extraCycle := rfl

theorem toNat_zext20 (w : Word) : (zext20 w).toNat = w.toNat :=
  BitVec.toNat_setWidth_of_le (by decide)

theorem toNat_low20 (v : RegVal) : (low20 v).toNat = v.toNat % 2 ^ 20 :=
  BitVec.extractLsb'_toNat 0 20 v

/-- Writing a word of canonical memory leaves everything but that word alone (R6). -/
theorem sameOutside_setMemWord (s : State) (a : Nat) (w : Word) (hwf : Memory.wf s.mem = true) :
    s.SameOutside (s.setMemWord a w) nothing nothing (fun b => b = a) nothing := by
  constructor <;> try (intros; rfl)
  intro b hb
  rw [State.memWord_setMemWord s a b w hwf, if_neg hb]

/-- Settles O18: the store is the write of one word, which reads back as stored because memory is canonical. -/
theorem storeWordKeepsLowTwentyBits : Obligations.StoreWordKeepsLowTwentyBits := by
  intro rd rs rt s hwf
  refine ⟨_, exec_sw rd rs rt s, ?word, ?clks, rfl, ?frame, ⟨rfl, rfl, rfl⟩, rfl, rfl, rfl, rfl⟩
  case word => rw [memWord_of_exec_sw (exec_sw rd rs rt s) hwf, if_pos rfl, toNat_low20]
  case clks => rw [clks_extraCycle, State.setMemWord_clks]
  case frame => exact sameOutside_extraCycle (sameOutside_setMemWord s _ _ hwf)

/-- Settles O17: the guard decides only whether the register is written; the extra cycle is charged either way. -/
theorem loadWordZeroExtends : Obligations.LoadWordZeroExtends := by
  intro rd rs rt s
  refine ⟨_, exec_lw rd rs rt s, ?value, ?clks, ?cost, ?frame, ?streams, ?control⟩
  case value =>
    intro hrd
    rw [reg_of_exec_lw (exec_lw rd rs rt s) hrd, toNat_zext20]
  case clks => rw [clks_extraCycle, State.writeReg_clks]
  case cost => exact exec_cost (exec_lw rd rs rt s)
  case frame => exact sameOutside_extraCycle (sameOutside_writeReg ..)
  case streams => constructor <;> simp
  case control => simp

end Sys2Proof.Machine
end

section
/-! PROOF. The system instructions without a controller behind them (R151 to R153, R157 to R159). `reti`, `halt` and `in` are one or two
state operations each; `out` goes through the store that every register shares. -/

namespace Sys2Proof.Machine

theorem exec_reti (rd rs rt : RegIx) (s : State) :
    exec (.reti rd rs rt) s = .next s.returnFromInterrupt := rfl

theorem exec_halt (rd rs rt : RegIx) (s : State) : exec (.halt rd rs rt) s = .next s.setHalted := rfl

theorem exec_ioIn (rd rs rt : RegIx) (s : State) :
    exec (.ioIn rd rs rt) s =
      .next ((s.writeReg rd (s.ioReg (ioIndex s rs rt)) false).emitHwreg
        { cycle := s.clks, dir := .read, index := ioIndex s rs rt,
          value := s.ioReg (ioIndex s rs rt) }) := rfl

/-- Settles O20: the return writes `pc` and `in_isr` alone. -/
theorem retiRestoresPc : Obligations.RetiRestoresPc := fun rd rs rt s =>
  ⟨_, exec_reti rd rs rt s, rfl, rfl, by constructor <;> intros <;> rfl, ⟨rfl, rfl, rfl⟩,
    rfl, rfl, rfl⟩

/-- Settles O21: one write of the halt flag. -/
theorem haltSetsHaltFlagOnly : Obligations.HaltSetsHaltFlagOnly := fun rd rs rt s =>
  ⟨_, exec_halt rd rs rt s, rfl, by constructor <;> intros <;> rfl, ⟨rfl, rfl, rfl⟩,
    rfl, rfl, rfl, rfl⟩

/-- The I/O index is the remainder of one 32-bit addition (R159). -/
theorem ioIndex_val (s : State) (rs rt : RegIx) :
    ((ioIndex s rs rt).val : Int) = (s.reg rs + s.reg rt).toInt % 23 :=
  (natCast_wrapIndex _ (by decide)).trans (by rw [operandSum_eq]; rfl)

/-- Settles O22: a sum of 0..22 is far below 2^31, so it is not negative and is its own remainder. -/
theorem ioIndexIsModulo : Obligations.IoIndexIsModulo := by
  intro rs rt s
  have hval := ioIndex_val s rs rt
  refine ⟨hval, fun hsum => ?_⟩
  rw [BitVec.toInt_eq_toNat_of_lt (by omega)] at hval
  omega

/-- Settles O23: the guard decides only whether the register is written; the record is emitted after it either way. -/
theorem inCopiesIoRegister : Obligations.InCopiesIoRegister := by
  intro rd rs rt s
  refine ⟨_, exec_ioIn rd rs rt s, ?value, ?record, ?frame, ?leds, ?display, ?control⟩
  case value => exact reg_writeReg_of_mayWrite
  case record => rw [State.emitHwreg_hwreg, State.writeReg_hwreg]
  case frame => exact { sameOutside_writeReg s rd _ false with }
  case leds => exact State.writeReg_ledsLog ..
  case display => exact State.writeReg_display7segLog ..
  case control => constructor <;> simp

/-- The write of a register other than these four has no side effect (R153 to R157). -/
theorem outSideEffect_eq_self (s : State) (c v : RegVal) {k : IoIx} (hleds : k ≠ Io.leds)
    (hdisplay : k ≠ Io.display7seg) (hdisk : k ≠ Io.diskcmd) (hmonitor : k ≠ Io.monitorcmd) :
    s.outSideEffect c k v = s := by
  rcases outSideEffect_cases s c k v with ⟨h, -⟩ | ⟨h, -⟩ | ⟨h, -⟩ | ⟨h, -⟩ | ⟨-, -, -, -, h⟩
  exacts [absurd h hleds, absurd h hdisplay, absurd h hmonitor, absurd h hdisk, h]

/-- Settles O24: without a side effect, the common store and record are the whole of `out`. -/
theorem outStoresPlainRegister : Obligations.OutStoresPlainRegister := by
  intro rd rs rt s hleds hdisplay hdisk hmonitor
  rw [exec_ioOut, outSideEffect_eq_self _ _ _ hleds hdisplay hdisk hmonitor]
  exact ⟨_, rfl, State.ioReg_setIo_self .., rfl, sameOutside_outStored .., rfl, rfl,
    ⟨rfl, rfl, rfl, rfl, rfl⟩⟩

theorem outSideEffect_diskcmd (s : State) (c v : RegVal) :
    s.outSideEffect c Io.diskcmd v =
      if v = diskCmdRead ∨ v = diskCmdWrite then s.setIo Io.diskstatus diskBusy else s := rfl

/-- Settles O26: a value other than 1 and 2 is only stored; for these two `diskstatus` is written as well, and nothing moves. -/
theorem outStartsDiskCommand : Obligations.OutStartsDiskCommand := by
  intro rd rs rt s hk
  rw [exec_ioOut, hk, outSideEffect_diskcmd]
  have hcmd : (s.outStored Io.diskcmd (s.reg rd)).ioReg Io.diskcmd = s.reg rd :=
    State.ioReg_setIo_self ..
  have hstored := sameOutside_outStored s Io.diskcmd (s.reg rd)
  by_cases hv : s.reg rd = 1 ∨ s.reg rd = 2
  · rw [if_pos hv, if_pos hv]
    refine ⟨_, rfl, ?_, State.ioReg_setIo_self .., rfl, ?_, rfl, rfl, ⟨rfl, rfl, rfl, rfl, rfl⟩⟩
    · rw [State.ioReg_setIo, if_neg (by decide), hcmd]
    · constructor <;> try (intros; rfl)
      intro k hk'
      rw [State.ioReg_setIo, if_neg fun h => hk' (.inr h), hstored.io k fun h => hk' (.inl h)]
  · rw [if_neg hv, if_neg hv]
    exact ⟨_, rfl, hcmd, hstored.io _ (by decide), rfl,
      { hstored with io := fun k hk' => hstored.io k fun h => hk' (.inl h) },
      rfl, rfl, ⟨rfl, rfl, rfl, rfl, rfl⟩⟩

end Sys2Proof.Machine
end

section
/-! PROOF. Re-entry in the step of `reti` (R151, R187, R189, R191). `reti` clears `in_isr` before the interrupt test of the same step, and
what is enabled and pending there re-enters; bit 0 of a line outlasts the phase, because the controllers only set it. -/

namespace Sys2Proof.Machine

/-- The request line by line: some line has a bit set in both its registers (R187). -/
theorem irqRequest_iff (s : State) :
    irqRequest s = true ↔
      s.ioReg Io.irq0enable &&& s.ioReg Io.irq0status ≠ 0 ∨
      s.ioReg Io.irq1enable &&& s.ioReg Io.irq1status ≠ 0 ∨
      s.ioReg Io.irq2enable &&& s.ioReg Io.irq2status ≠ 0 := by
  simp only [irqRequest, bne_iff_ne, ne_eq, BitVec.ofNat_eq_ofNat, BitVec.or_eq_zero_iff,
    not_and_or, or_assoc]

theorem and_ne_zero_of_getLsbD {a b : RegVal} {i : Nat} (ha : a.getLsbD i = true)
    (hb : b.getLsbD i = true) : a &&& b ≠ 0 := by
  intro h
  have hbit := congrArg (BitVec.getLsbD · i) h
  simp [ha, hb] at hbit

/-- Bit 0 of a status register outlasts the phase: setting the register writes 1 (R20). -/
theorem getLsbD_zero_peripherals {s : State} {k : IoIx}
    (hk : k ∈ [Io.irq0status, Io.irq1status, Io.irq2status])
    (hbit : (s.ioReg k).getLsbD 0 = true) : (s.peripherals.ioReg k).getLsbD 0 = true := by
  obtain h | h := keptOrSet_peripherals s hk <;> rw [h]
  · exact hbit
  · rfl

/-- A line with bit 0 enabled and pending before the phase is enabled and pending after it (R18, R20). -/
theorem line_peripherals_ne_zero {s : State} {enable status : IoIx}
    (henable : enable ∈ [Io.irq0enable, Io.irq1enable, Io.irq2enable])
    (hstatus : status ∈ [Io.irq0status, Io.irq1status, Io.irq2status])
    (hbit : (s.ioReg enable).getLsbD 0 = true ∧ (s.ioReg status).getLsbD 0 = true) :
    s.peripherals.ioReg enable &&& s.peripherals.ioReg status ≠ 0 := by
  have hkept : s.peripherals.ioReg enable = s.ioReg enable := by
    apply ioReg_peripherals
    clear hbit
    revert enable
    decide
  rw [hkept]
  exact and_ne_zero_of_getLsbD hbit.1 (getLsbD_zero_peripherals hstatus hbit.2)

/-- A request at the test of the phase, outside a service routine, is taken (R187, R189). -/
theorem peripherals_of_irqRequest {s : State} (hirq : irqRequest s.peripherals = true)
    (hisr : s.inIsr = false) :
    s.peripherals.inIsr = true ∧ s.peripherals.pc = s.ioReg Io.irqhandler ∧
      s.peripherals.ioReg Io.irqreturn = s.pc := by
  obtain ⟨-, -, hentered⟩ | ⟨hno | hin, -⟩ := peripherals_interrupt_cases s
  · exact hentered
  · exact absurd (hirq.symm.trans hno) (by decide)
  · exact absurd (hisr.symm.trans hin) (by decide)

/-- The state in which the phase of a `reti` step begins: the return is done, and no I/O register but `clks` has changed (R95, R151). -/
theorem step_of_reti {s t : State} {f : Fetched} {rd rs rt : RegIx} (he : s.Executes f)
    (hstep : step s = .next t) (hreti : f.insn.instr = .reti rd rs rt) :
    ∃ u : State, t = u.peripherals ∧ u.inIsr = false ∧ u.pc = s.ioReg Io.irqreturn ∧
      ∀ k, k ≠ Io.clks → u.ioReg k = s.ioReg k := by
  have hio (k : IoIx) (hk : k ≠ Io.clks) : (s.beginInsn f).ioReg k = s.ioReg k := by
    rw [beginInsn_ioReg, if_neg hk]
  obtain ⟨u, hexec, rfl⟩ := step_of_executes he hstep
  rw [hreti, exec_reti] at hexec
  cases hexec
  exact ⟨_, rfl, rfl, hio _ (by decide), hio⟩

/-- Settles O47: the phase meets the state `reti` leaves, with `in_isr` 0 and `irqreturn` in `pc`, so a request at its test enters the
handler and saves that same value again. -/
theorem pendingInterruptReentersAfterReti : Obligations.PendingInterruptReentersAfterReti := by
  intro s t f rd rs rt he hstep hreti hline
  obtain ⟨u, rfl, hisr, hpc, hio⟩ := step_of_reti he hstep hreti
  have hrequest : irqRequest u.peripherals = true := by
    rw [irqRequest_iff]
    obtain hafter | hbefore := hline
    · exact hafter
    · rw [← hio Io.irq0enable (by decide), ← hio Io.irq0status (by decide),
        ← hio Io.irq1enable (by decide), ← hio Io.irq1status (by decide),
        ← hio Io.irq2enable (by decide), ← hio Io.irq2status (by decide)] at hbefore
      exact hbefore.imp (line_peripherals_ne_zero (by decide) (by decide))
        (Or.imp (line_peripherals_ne_zero (by decide) (by decide))
          (line_peripherals_ne_zero (by decide) (by decide)))
  obtain ⟨hin, hhandler, hreturn⟩ := peripherals_of_irqRequest hrequest hisr
  exact ⟨hin, hhandler.trans (hio _ (by decide)), hreturn.trans hpc⟩

end Sys2Proof.Machine
end

section
/-! SUPPORT. The disk in the peripheral phase, by whether a transfer completes in it (`spec/60_exceptions.md` rules R202 to R204), and the
frames of completion and of the whole phase as equations of states (R175). -/

namespace Sys2Proof.Machine

/-- A transfer completes in the phase that starts in `s`: the disk is BUSY and the step's cost brings the accumulator to the latency (R202). -/
def State.TransferDue (s : State) : Prop :=
  s.ioReg Io.diskstatus = diskBusy ∧ s.diskLatency ≤ s.diskAcc + s.cost

/-- Neither operand of the test is the injector's (R181). -/
theorem transferDue_injectScheduled (s : State) : s.injectScheduled.TransferDue ↔ s.TransferDue := by
  rw [State.TransferDue, ioReg_injectScheduled _ _ (by decide)]
  simp [State.TransferDue]

theorem storage_peripherals_of_due {s : State} (hdue : s.TransferDue) :
    s.peripherals.mem = s.completeTransfer.mem ∧ s.peripherals.disk = s.completeTransfer.disk := by
  obtain ⟨-, -, h⟩ | ⟨hnot, -⟩ := peripherals_storage_cases s
  exacts [h, absurd hdue hnot]

theorem storage_peripherals_of_not_due {s : State} (hnot : ¬ s.TransferDue) :
    s.peripherals.mem = s.mem ∧ s.peripherals.disk = s.disk := by
  obtain ⟨hbusy, hdue, -⟩ | ⟨-, h⟩ := peripherals_storage_cases s
  exacts [absurd ⟨hbusy, hdue⟩ hnot, h]

/-- The registers of the disk after a phase in which a transfer completes are those completion leaves (R204). -/
theorem ioReg_peripherals_of_due {s : State} (hdue : s.TransferDue) {k : IoIx}
    (hk : k ∈ [Io.irq1status, Io.diskcmd, Io.diskstatus]) :
    s.peripherals.ioReg k = s.completeTransfer.ioReg k := by
  obtain ⟨hbusy, hlat⟩ := (transferDue_injectScheduled s).2 hdue
  rw [ioReg_peripherals_disk s k hk]
  rcases diskProgress_cases s.injectScheduled with ⟨hidle, -⟩ | ⟨-, hbelow, -⟩ | ⟨-, -, h⟩
  · exact absurd hbusy hidle
  · omega
  · rw [h, ioReg_completeTransfer, ioReg_completeTransfer, State.setDiskAcc_ioReg,
      ioReg_injectScheduled]
    rintro rfl
    exact absurd hk (by decide)

/-- The registers of the disk stand until a transfer completes (R202). -/
theorem ioReg_peripherals_of_not_due {s : State} (hnot : ¬ s.TransferDue) {k : IoIx}
    (hk : k ∈ [Io.irq1status, Io.diskcmd, Io.diskstatus]) :
    s.peripherals.ioReg k = s.ioReg k := by
  have hinject : s.injectScheduled.ioReg k = s.ioReg k := by
    refine ioReg_injectScheduled s k ?_
    rintro rfl
    exact absurd hk (by decide)
  rw [ioReg_peripherals_disk s k hk]
  rcases diskProgress_cases s.injectScheduled with ⟨-, h⟩ | ⟨-, -, h⟩ | ⟨hbusy, hlat, -⟩
  · rw [h, hinject]
  · rw [h, State.setDiskAcc_ioReg, hinject]
  · exact absurd ((transferDue_injectScheduled s).1 ⟨hbusy, hlat⟩) hnot

theorem diskAcc_peripherals_of_idle {s : State} (hidle : s.ioReg Io.diskstatus ≠ diskBusy) :
    s.peripherals.diskAcc = s.diskAcc := by
  rw [peripherals_diskAcc, State.diskProgress, ioReg_injectScheduled _ _ (by decide), if_neg hidle,
    injectScheduled_diskAcc]

/-- The accumulator of a BUSY disk: it grows by the cost, and completion clears it (R202, R204). -/
theorem diskAcc_peripherals_of_busy {s : State} (hbusy : s.ioReg Io.diskstatus = diskBusy) :
    s.peripherals.diskAcc =
      if s.diskLatency ≤ s.diskAcc + s.cost then 0 else s.diskAcc + s.cost := by
  rw [peripherals_diskAcc, State.diskProgress, ioReg_injectScheduled _ _ (by decide), if_pos hbusy]
  simp only [State.setDiskAcc_diskAcc, injectScheduled_diskAcc, injectScheduled_cost,
    injectScheduled_diskLatency]
  split_ifs <;> rfl

/-- Completion writes memory, the disk, the I/O registers and the accumulator alone (R204). -/
theorem completeTransfer_eq (s : State) :
    s.completeTransfer =
      { s with mem := s.completeTransfer.mem, disk := s.completeTransfer.disk,
               io := s.completeTransfer.io, diskAcc := 0 } := by
  unfold State.completeTransfer
  rw [transfer_eq s]
  generalize s.transfer.mem = m
  generalize s.transfer.disk = d
  rfl

/-- The values completion sets, and that it sets no other register (R204). -/
theorem ioReg_completeTransfer_set (s : State) :
    s.completeTransfer.ioReg Io.irq1status = 1 ∧ s.completeTransfer.ioReg Io.diskcmd = 0 ∧
      s.completeTransfer.ioReg Io.diskstatus = 0 ∧
      ∀ k, k ≠ Io.irq1status → k ≠ Io.diskcmd → k ≠ Io.diskstatus →
        s.completeTransfer.ioReg k = s.ioReg k := by
  refine ⟨?_, ?_, ?_, fun k hirq hcmd hstatus => ?_⟩ <;> rw [ioReg_completeTransfer]
  · rfl
  · rfl
  · rfl
  · rw [if_neg hstatus, if_neg hcmd, if_neg hirq]

/-- What the whole phase can write (R175). -/
theorem peripherals_eq (s : State) :
    s.peripherals =
      { s with pc := s.peripherals.pc, io := s.peripherals.io, mem := s.peripherals.mem,
               disk := s.peripherals.disk, inIsr := s.peripherals.inIsr,
               diskAcc := s.peripherals.diskAcc, schedCursor := s.peripherals.schedCursor } := by
  rw [← peripherals_x s, ← peripherals_fb s, ← peripherals_halted s, ← peripherals_fault s,
    ← peripherals_trace s, ← peripherals_hwreg s, ← peripherals_ledsLog s,
    ← peripherals_display7segLog s, ← peripherals_irq2Schedule s, ← peripherals_diskLatency s,
    ← peripherals_cost s, ← peripherals_draws s]

/-- Without an interrupt entry the phase leaves `pc` and `irqreturn` (R189). -/
theorem peripherals_of_not_entered {s : State} (h : s.inIsr = true ∨ s.peripherals.inIsr = s.inIsr) :
    s.peripherals.inIsr = s.inIsr ∧ s.peripherals.pc = s.pc ∧
      s.peripherals.ioReg Io.irqreturn = s.ioReg Io.irqreturn := by
  obtain ⟨-, hout, hin, -⟩ | ⟨-, hkept⟩ := peripherals_interrupt_cases s
  · rw [hout, hin] at h
    exact absurd h (by decide)
  · exact hkept

end Sys2Proof.Machine
end

section
/-! PROOF. The disk: a BUSY disk completes its command in the first step that reaches the latency, and completion copies one sector
(R202 to R207). -/

namespace Sys2Proof.Machine

/-- Settles O40: the instruction touches none of the accumulator, the latency and the disk, so the phase tests the sum the statement
names. -/
theorem diskCompletesAtLatencyBoundary : Obligations.DiskCompletesAtLatencyBoundary := by
  intro s t u f he hstep hexec
  obtain ⟨v, hv, rfl⟩ := step_of_executes he hstep
  cases hexec.symm.trans hv
  have hid := exec_sameHidden hexec
  rw [← beginInsn_diskAcc s f, ← hid.diskAcc, ← beginInsn_diskLatency s f, ← hid.diskLatency,
    ← beginInsn_disk s f, ← hid.disk, peripherals_cost]
  refine ⟨fun hidle => ?idle, fun hbusy hbelow => ?waiting, fun hbusy hlat => ?due,
    ioReg_peripherals u, fun hisr => (peripherals_of_not_entered (.inr hisr)).2, peripherals_eq u⟩
  case idle =>
    have hnot : ¬ u.TransferDue := fun hdue => hidle hdue.1
    obtain ⟨hmem, hdisk⟩ := storage_peripherals_of_not_due hnot
    exact ⟨ioReg_peripherals_of_not_due hnot (by decide), diskAcc_peripherals_of_idle hidle, hmem,
      hdisk, ioReg_peripherals_of_not_due hnot (by decide),
      ioReg_peripherals_of_not_due hnot (by decide)⟩
  case waiting =>
    have hnot : ¬ u.TransferDue := fun hdue => absurd hdue.2 (by omega)
    obtain ⟨hmem, hdisk⟩ := storage_peripherals_of_not_due hnot
    refine ⟨(ioReg_peripherals_of_not_due hnot (by decide)).trans hbusy, ?_, hmem, hdisk,
      ioReg_peripherals_of_not_due hnot (by decide), ioReg_peripherals_of_not_due hnot (by decide)⟩
    rw [diskAcc_peripherals_of_busy hbusy, if_neg (by omega)]
  case due =>
    have hdue : u.TransferDue := ⟨hbusy, hlat⟩
    obtain ⟨hirq, hcmd, hstatus, -⟩ := ioReg_completeTransfer_set u
    refine ⟨(ioReg_peripherals_of_due hdue (by decide)).trans hstatus, ?_,
      (ioReg_peripherals_of_due hdue (by decide)).trans hcmd,
      (ioReg_peripherals_of_due hdue (by decide)).trans hirq, storage_peripherals_of_due hdue⟩
    rw [diskAcc_peripherals_of_busy hbusy, if_pos hlat]

/-- The disk indices of a transfer from the bits of `disksector` (R203). -/
theorem transferDiskIndex_eq (s : State) (i : Nat) :
    s.transferDiskIndex i = 128 * ((s.ioReg Io.disksector).toNat % 128) + i := by
  rw [State.transferDiskIndex, transferSector_eq]

theorem transfer_of_read {s : State} (hcmd : s.ioReg Io.diskcmd = diskCmdRead) :
    s.transfer = s.transferRead :=
  if_pos hcmd

theorem transfer_of_write {s : State} (hcmd : s.ioReg Io.diskcmd = diskCmdWrite) :
    s.transfer = s.transferWrite := by
  rw [State.transfer, hcmd, if_neg (by decide), if_pos rfl]

/-- Only a read command moves words to memory (R203, R207). -/
theorem completeTransfer_mem_of_ne_read {s : State} (hcmd : s.ioReg Io.diskcmd ≠ diskCmdRead) :
    s.completeTransfer.mem = s.mem := by
  rw [completeTransfer_mem]
  obtain ⟨hread, -⟩ | ⟨-, h⟩ | ⟨-, -, h⟩ := transfer_cases s
  · exact absurd hread hcmd
  · rw [h, transferWrite_mem]
  · rw [h]

/-- Only a write command moves words to the disk (R203, R207). -/
theorem completeTransfer_disk_of_ne_write {s : State} (hcmd : s.ioReg Io.diskcmd ≠ diskCmdWrite) :
    s.completeTransfer.disk = s.disk := by
  rw [completeTransfer_disk]
  obtain ⟨-, h⟩ | ⟨hwrite, -⟩ | ⟨-, -, h⟩ := transfer_cases s
  · rw [h, transferRead_disk]
  · exact absurd hwrite hcmd
  · rw [h]

/-- Settles O41: the run of writes of a read transfer, at the addresses and indices the two registers give. -/
theorem diskReadTransferCopiesSector : Obligations.DiskReadTransferCopiesSector := by
  intro s hwf hcmd address index
  have haddress (i : Nat) : address i = s.transferAddress i := (transferAddress_eq s i).symm
  have hindex (i : Nat) : index i = s.transferDiskIndex i := (transferDiskIndex_eq s i).symm
  have hword (a : Nat) : s.completeTransfer.memWord a = s.transferRead.memWord a := by
    rw [State.memWord, completeTransfer_mem, transfer_of_read hcmd, State.memWord]
  have hdisk : s.completeTransfer.disk = s.disk :=
    completeTransfer_disk_of_ne_write (by rw [hcmd]; decide)
  obtain ⟨-, hcopied, hothers⟩ := memWord_transferRead s hwf
  obtain ⟨hirq, hnone, hfree, hio⟩ := ioReg_completeTransfer_set s
  simp only [haddress, hindex, hword]
  exact ⟨hcopied, hothers, hdisk, rfl, hirq, hnone, hfree, hio,
    (completeTransfer_eq s).trans (by rw [hdisk])⟩

/-- Settles O42: the run of writes of a write transfer, at the indices and addresses the two registers give; no command but 2 moves words to
the disk, and none but 1 to memory. -/
theorem diskWriteTransferCopiesSector : Obligations.DiskWriteTransferCopiesSector := by
  intro s hwf hcmd address index
  have haddress (i : Nat) : address i = s.transferAddress i := (transferAddress_eq s i).symm
  have hindex (i : Nat) : index i = s.transferDiskIndex i := (transferDiskIndex_eq s i).symm
  have hmem : s.completeTransfer.mem = s.mem := completeTransfer_mem_of_ne_read hcmd
  obtain ⟨-, hcopied, hothers⟩ := diskWord_transferWrite s hwf
  obtain ⟨hirq, hnone, hfree, hio⟩ := ioReg_completeTransfer_set s
  refine ⟨fun hwrite => ?_, completeTransfer_disk_of_ne_write, hmem, rfl, hirq, hnone, hfree, hio,
    (completeTransfer_eq s).trans (by rw [hmem])⟩
  have hword (d : Nat) : s.completeTransfer.diskWord d = s.transferWrite.diskWord d := by
    rw [State.diskWord, completeTransfer_disk, transfer_of_write hwrite, State.diskWord]
  simp only [haddress, hindex, hword]
  exact ⟨hcopied, hothers⟩

end Sys2Proof.Machine
end

section
/-! PROOF. The interrupt controller (R187 to R192): the test bit by bit, entry, and leaving service-routine mode. -/

namespace Sys2Proof.Machine

/-- Two registers have a common bit exactly when their conjunction is not 0 (R187). -/
theorem and_ne_zero_iff_exists_getLsbD {a b : RegVal} :
    a &&& b ≠ 0 ↔ ∃ i, i < 32 ∧ a.getLsbD i = true ∧ b.getLsbD i = true := by
  constructor
  · intro hne
    by_contra hnone
    refine hne (BitVec.eq_of_getLsbD_eq fun i hi => ?_)
    have hbit : ¬ (a.getLsbD i = true ∧ b.getLsbD i = true) := fun h => hnone ⟨i, hi, h⟩
    simpa using hbit
  · rintro ⟨i, -, ha, hb⟩
    exact and_ne_zero_of_getLsbD ha hb

theorem takeCondition_iff (s : State) :
    takeCondition s = true ↔ s.inIsr = false ∧ irqRequest s = true := by
  rw [takeCondition, Bool.and_eq_true, Bool.not_eq_true', and_comm]

/-- Settles O43: a request is a line with a bit common to its two registers. -/
theorem interruptTestIsBitwise : Obligations.InterruptTestIsBitwise := by
  intro s
  simp only [takeCondition_iff, irqRequest_iff, and_ne_zero_iff_exists_getLsbD, and_or_left, exists_or]

/-- Settles O44: entry is three writes, and without it the test changes nothing. -/
theorem interruptEntrySavesPc : Obligations.InterruptEntrySavesPc := by
  intro s
  refine ⟨fun htake => ?_, fun hnot => ?_⟩
  · rw [State.interruptAssert, if_pos htake]
    refine ⟨State.ioReg_setIo_self .., rfl, rfl, ?_, ⟨rfl, rfl, rfl⟩, rfl, rfl, rfl⟩
    constructor <;> try (intros; rfl)
    intro k hk
    rw [State.ioReg_takeInterrupt, if_neg hk]
  · rw [State.interruptAssert, hnot, if_neg Bool.false_ne_true]

/-- Settles O45: only `reti` writes `in_isr` before the interrupt test, which enters nothing while it is 1. -/
theorem noNestedInterruptEntry : Obligations.NoNestedInterruptEntry := by
  intro s t u f he hisr hstep hreti hexec
  obtain ⟨v, hv, rfl⟩ := step_of_executes he hstep
  cases hexec.symm.trans hv
  obtain hkept | ⟨rd, rs, rt, hi, -⟩ := exec_inIsr hexec
  · have hin : u.inIsr = true := by rw [hkept, beginInsn_inIsr, hisr]
    obtain ⟨hphase, hpc, hreturn⟩ := peripherals_of_not_entered (.inl hin)
    exact ⟨hphase.trans hin, hpc, hreturn⟩
  · exact absurd hi (hreti rd rs rt)

/-- Settles O46: no fault and no controller clears `in_isr`, so the instruction has, and the test that ends the step has not entered. -/
theorem serviceModeLeftOnlyByReti : Obligations.ServiceModeLeftOnlyByReti := by
  intro s t hstep hin hout
  obtain ⟨-, ⟨f, -, rfl⟩ | ⟨f, u, hf, hexec, rfl⟩⟩ := step_cases hstep
  · exact nomatch hin.symm.trans hout
  · obtain hkept | ⟨rd, rs, rt, hi, rfl⟩ := exec_inIsr hexec
    · have hu : u.inIsr = true := by rw [hkept, beginInsn_inIsr, hin]
      obtain ⟨hphase, -⟩ := peripherals_of_not_entered (.inl hu)
      exact nomatch hu.symm.trans (hphase.symm.trans hout)
    · obtain ⟨-, hpc, -⟩ := peripherals_of_not_entered (.inr hout)
      rw [State.returnFromInterrupt_pc, beginInsn_ioReg, if_neg (by decide)] at hpc
      exact ⟨f, rd, rs, rt, hf, hi, hpc⟩

end Sys2Proof.Machine
end

section
/-! PROOF. The injector and the timer (R181, R195, R196), and the inputs of a run (R179, R224). -/

namespace Sys2Proof.Machine

theorem injectScheduled_of_reached {s : State} {t : Int} (hentry : s.irq2Schedule[s.schedCursor]? = some t)
    (hreached : t ≤ s32 s.clks) :
    s.injectScheduled = (s.setIo Io.irq2status statusSet).setSchedCursor (s.schedCursor + 1) := by
  obtain ⟨-, -, -, h⟩ | ⟨hnot, -⟩ := injectScheduled_cases s
  · exact h
  · exact absurd hreached (Int.not_le.2 (hnot t hentry))

theorem injectScheduled_of_not_reached {s : State}
    (hnot : ∀ t, s.irq2Schedule[s.schedCursor]? = some t → s32 s.clks < t) : s.injectScheduled = s := by
  obtain ⟨t, hentry, hreached, -⟩ | ⟨-, h⟩ := injectScheduled_cases s
  · exact absurd hreached (Int.not_le.2 (hnot t hentry))
  · exact h

/-- Settles O37: a reached entry is one write of a status and one of the cursor; an entry beyond `clks` or none at all is nothing. -/
theorem injectorConsumesOneEntry : Obligations.InjectorConsumesOneEntry := by
  refine ⟨fun s t hentry hreached => ?reached, fun s t hentry hlater => ?later, fun s hend => ?none⟩
  case reached =>
    rw [injectScheduled_of_reached hentry hreached]
    exact ⟨State.ioReg_setIo_self .., rfl,
      fun k hk => (State.ioReg_setIo ..).trans (if_neg hk), rfl⟩
  case later =>
    refine injectScheduled_of_not_reached fun t' hentry' => ?_
    cases hentry.symm.trans hentry'
    exact hlater
  case none =>
    refine injectScheduled_of_not_reached fun t hentry => ?_
    rw [List.getElem?_eq_none hend] at hentry
    cases hentry

/-- The timer's count after a step, as one 32-bit addition (R195). -/
def State.timerCount (s : State) : RegVal := s.ioReg Io.timercurrent + BitVec.ofNat 32 s.cost

/-- The timer by its two tests, in bit vectors (R195). -/
theorem timerProgress_eq (s : State) :
    s.timerProgress =
      if s.ioReg Io.timerenable = 0 then s
      else if (s.ioReg Io.timermax).sle s.timerCount = true then
        (s.setIo Io.timercurrent s.timerCount).timerExpire
      else s.setIo Io.timercurrent s.timerCount := by
  have hcases := timerProgress_cases s
  rw [wrap32_s32_add_nat, ← State.timerCount] at hcases
  obtain ⟨hoff, h⟩ | ⟨hon, hbelow, h⟩ | ⟨hon, hfull, h⟩ := hcases
  · rw [if_pos hoff, h]
  · rw [if_neg hon, if_neg (mt BitVec.sle_iff_toInt_le.1 (Int.not_le.2 hbelow)), h]
  · rw [if_neg hon, if_pos (BitVec.sle_iff_toInt_le.2 hfull), h]

theorem ioReg_timerExpire (s : State) (k : IoIx) :
    s.timerExpire.ioReg k =
      if k = Io.irq0status then statusSet else if k = Io.timercurrent then 0 else s.ioReg k := by
  simp only [State.timerExpire, State.ioReg_setIo]

/-- The timer writes I/O registers alone (R195, R196). -/
theorem timerProgress_writes_io (s : State) : s.timerProgress = { s with io := s.timerProgress.io } := by
  rw [timerProgress_eq]
  split_ifs <;> rfl

/-- Settles O39: `timerenable` and one signed comparison of the count tell the three cases apart; each is at most the write of the count,
then of the two registers of expiry. -/
theorem timerCountsAndExpires : Obligations.TimerCountsAndExpires := by
  intro s count
  refine ⟨fun hoff => ?disabled, fun hon hbelow => ?below, ?expired, timerProgress_writes_io s⟩ <;> rw [timerProgress_eq]
  case disabled => rw [if_pos hoff]
  case below =>
    have hnot : ¬ (s.ioReg Io.timermax).sle s.timerCount = true := by
      rw [BitVec.sle_iff_toInt_le, Int.not_le]
      exact BitVec.slt_iff_toInt_lt.1 hbelow
    rw [if_neg hon, if_neg hnot]
    exact ⟨State.ioReg_setIo_self .., fun k hk => (State.ioReg_setIo ..).trans (if_neg hk)⟩
  case expired =>
    intro hon (hfull : (s.ioReg Io.timermax).sle s.timerCount = true)
    rw [if_neg hon, if_pos hfull]
    refine ⟨ioReg_timerExpire .., ioReg_timerExpire .., fun k hcurrent hstatus => ?_⟩
    rw [ioReg_timerExpire, if_neg hstatus, if_neg hcurrent, State.ioReg_setIo, if_neg hcurrent]

theorem step_diskLatency {s t : State} (h : step s = .next t) : t.diskLatency = s.diskLatency := by
  obtain ⟨-, ⟨f, -, rfl⟩ | ⟨f, u, -, hexec, rfl⟩⟩ := step_cases h
  · rfl
  · rw [peripherals_diskLatency, (exec_sameHidden hexec).diskLatency, beginInsn_diskLatency]

/-- Settles O58: no part of a step writes either input of the run. -/
theorem runInputsNeverChange : Obligations.RunInputsNeverChange := fun _ _ hstep =>
  ⟨step_irq2Schedule hstep, step_diskLatency hstep⟩

end Sys2Proof.Machine
end

section
/-! PROOF. The observation streams are written and never read (R233 to R236). Every operation of a step commutes with placing older
records beneath the four streams, so the step does. A state is its own streams beneath those of the state without any: two states that differ
only there take the step of that one state, each over its own records, and the records of that step are what both gain. -/

namespace Sys2Proof.Machine

open Function (Commute)

/-- `s` with the streams of `b` beneath its own, as older records. -/
def addOlder (b s : State) : State :=
  { s with
    trace := s.trace ++ b.trace
    hwreg := s.hwreg ++ b.hwreg
    ledsLog := s.ledsLog ++ b.ledsLog
    display7segLog := s.display7segLog ++ b.display7segLog }

theorem addOlder_withoutStreams (s : State) : addOlder s s.withoutStreams = s := rfl

/-- A choice by a condition that `f` does not change. -/
theorem commute_ite {α : Type} {f g h : α → α} {c : α → Prop} [DecidablePred c] (hc : ∀ a, c (f a) ↔ c a)
    (hg : Commute f g) (hh : Commute f h) : Commute f fun a => if c a then g a else h a := fun a => by
  by_cases ha : c a
  · simp only [hc a, ha, if_true, hg a]
  · simp only [hc a, ha, if_false, hh a]

section
variable (b : State)

/-! ### The operations with a choice in them -/

theorem commute_addOlder_writeReg (rd : RegIx) (v : RegVal) (allowImm : Bool) :
    Commute (addOlder b) (State.writeReg · rd v allowImm) :=
  commute_ite (fun _ => .rfl) (fun _ => rfl) <| commute_ite (fun _ => .rfl) (fun _ => rfl) fun _ => rfl

theorem commute_addOlder_writeShift (rd : RegIx) (n : Int) (op : Nat → RegVal) :
    Commute (addOlder b) (writeShift · rd n op) := fun s => by
  change addOlder b (writeShift s rd n op) = writeShift (addOlder b s) rd n op
  by_cases hn : 0 ≤ n ∧ n ≤ 31
  · rw [writeShift_inRange _ _ _ _ hn, writeShift_inRange _ _ _ _ hn]
    exact commute_addOlder_writeReg b rd _ false s
  · rw [writeShift_outOfRange _ _ _ _ hn, writeShift_outOfRange _ _ _ _ hn]
    exact commute_addOlder_writeReg b rd _ false s.countDraw

theorem commute_addOlder_branchIf (c : Bool) (rd : RegIx) : Commute (addOlder b) (branchIf c rd) :=
  commute_ite (fun _ => .rfl) (fun _ => rfl) fun _ => rfl

theorem commute_addOlder_outSideEffect (c : RegVal) (k : IoIx) (v : RegVal) :
    Commute (addOlder b) (State.outSideEffect · c k v) := fun s => by
  simp only [State.outSideEffect]
  split_ifs <;> rfl

/-! ### The peripheral phase (R175) -/

theorem commute_addOlder_injectScheduled : Commute (addOlder b) State.injectScheduled := fun s => by
  have hentry : (addOlder b s).irq2Schedule[(addOlder b s).schedCursor]? = s.irq2Schedule[s.schedCursor]? := rfl
  unfold State.injectScheduled
  rw [hentry]
  cases s.irq2Schedule[s.schedCursor]? with
  | none => rfl
  | some t => exact apply_ite (addOlder b) ..

/-- A transfer moves what the three disk registers, memory and the disk say, and writes memory and the disk alone (R203). -/
theorem commute_addOlder_transfer : Commute (addOlder b) State.transfer := fun s => by
  have hmoved := completeTransfer_congr (s := s) (t := addOlder b s) rfl rfl rfl rfl rfl
  simp only [completeTransfer_mem, completeTransfer_disk] at hmoved
  obtain ⟨hmem, hdisk⟩ := hmoved
  rw [transfer_eq s, transfer_eq (addOlder b s), hmem, hdisk]
  rfl

theorem commute_addOlder_completeTransfer : Commute (addOlder b) State.completeTransfer := fun s => by
  simp only [State.completeTransfer, ← commute_addOlder_transfer b s]
  generalize s.transfer = u
  rfl

theorem commute_addOlder_diskProgress : Commute (addOlder b) State.diskProgress :=
  have hcount : Commute (addOlder b) fun s => s.setDiskAcc (s.diskAcc + s.cost) := fun _ => rfl
  commute_ite (fun _ => .rfl)
    (commute_ite (fun _ => .rfl) ((commute_addOlder_completeTransfer b).comp_right hcount) hcount)
    fun _ => rfl

theorem commute_addOlder_timerProgress : Commute (addOlder b) State.timerProgress :=
  commute_ite (fun _ => .rfl) (commute_ite (fun _ => .rfl) (fun _ => rfl) fun _ => rfl) fun _ => rfl

theorem commute_addOlder_interruptAssert : Commute (addOlder b) State.interruptAssert :=
  commute_ite (fun _ => .rfl) (fun _ => rfl) fun _ => rfl

theorem commute_addOlder_peripherals : Commute (addOlder b) State.peripherals :=
  (commute_addOlder_interruptAssert b).comp_right <| (commute_addOlder_timerProgress b).comp_right <|
    (commute_addOlder_diskProgress b).comp_right (commute_addOlder_injectScheduled b)

/-! ### The step -/

theorem loadImmediate_addOlder (imm : Option Word) (s : State) :
    (addOlder b s).loadImmediate imm = addOlder b (s.loadImmediate imm) := by
  cases imm <;> rfl

theorem beginInsn_addOlder (f : Fetched) (s : State) :
    (addOlder b s).beginInsn f = addOlder b (s.beginInsn f) := by
  simp only [State.beginInsn, loadImmediate_addOlder]
  rfl

/-- An opcode over older records: it reads none, and its own stand above them. -/
theorem exec_addOlder {i : Instr} {s t : State} (h : exec i s = .next t) :
    exec i (addOlder b s) = .next (addOlder b t) := by
  cases i <;> cases h <;> refine congrArg Host.Outcome.next (Eq.symm ?_)
  case add rd rs rt | sub rd rs rt | mul rd rs rt | and rd rs rt | or rd rs rt | xor rd rs rt =>
    exact commute_addOlder_writeReg b rd _ _ s
  case sll rd rs rt | sra rd rs rt | srl rd rs rt => exact commute_addOlder_writeShift b rd _ _ s
  case beq rd rs rt | bne rd rs rt | blt rd rs rt | bgt rd rs rt | ble rd rs rt | bge rd rs rt =>
    exact commute_addOlder_branchIf b _ rd s
  case jal rd rs rt =>
    exact congrArg (fun u : State => u.setPc (u.reg rs)) (commute_addOlder_writeReg b rd s.pc false s)
  case lw rd rs rt => exact congrArg State.extraCycle (commute_addOlder_writeReg b rd _ false s)
  case sw | reti | halt => rfl
  case ioIn rd rs rt => exact congrArg (State.emitHwreg · _) (commute_addOlder_writeReg b rd _ false s)
  case ioOut rd rs rt =>
    exact commute_addOlder_outSideEffect b s.clks _ _ ((s.setIo _ _).emitHwreg _)

/-- A step over older records: it reads none, and its own stand above them. -/
theorem step_addOlder {s t : State} (h : step s = .next t) : step (addOlder b s) = .next (addOlder b t) := by
  have hfetch : (addOlder b s).fetch = s.fetch := rfl
  obtain ⟨hrun, ⟨f, hf, rfl⟩ | ⟨f, u, hf, hexec, rfl⟩⟩ := step_cases h
  · exact step_of_fetch_error hrun (hfetch.trans hf)
  · have hexec' : exec f.insn.instr ((addOlder b s).beginInsn f) = .next (addOlder b u) := by
      rw [beginInsn_addOlder, exec_addOlder b hexec]
    rw [commute_addOlder_peripherals b]
    exact step_of_fetch_ok hrun (hfetch.trans hf) hexec'

end

/-- A step is that of the state without streams, over the streams it finds. -/
theorem step_of_step_withoutStreams {s u : State} (h : step s.withoutStreams = .next u) :
    step s = .next (addOlder s u) := by
  simpa only [addOlder_withoutStreams] using step_addOlder s h

theorem step_withoutStreams_of_step {s t : State} (h : step s = .next t) :
    ∃ u, step s.withoutStreams = .next u ∧ t = addOlder s u := by
  obtain ⟨hrun, -⟩ := step_cases h
  obtain ⟨u, hu, -⟩ := step_completes_of_running (s := s.withoutStreams) hrun
  exact ⟨u, hu, Host.Outcome.next.inj (h.symm.trans (step_of_step_withoutStreams hu))⟩

/-- Settles O57: both states take the step of the one state without streams, whose streams are the new records. -/
theorem streamsAreNeverRead : Obligations.StreamsAreNeverRead := by
  intro s s' t hrest hstep
  obtain ⟨u, hu, rfl⟩ := step_withoutStreams_of_step hstep
  rw [hrest] at hu
  exact ⟨addOlder s' u, step_of_step_withoutStreams hu, rfl, ⟨u.trace, rfl, rfl⟩, ⟨u.hwreg, rfl, rfl⟩,
    ⟨u.ledsLog, rfl, rfl⟩, ⟨u.display7segLog, rfl, rfl⟩⟩

end Sys2Proof.Machine
end
